-- ==== Sys2Proof/Word.lean ====
section
/-! DEFINITION. The value types of the two devices (spec/00_scope.md R10, R11): a byte, the SMC's
32-bit word, the IIC's 64-bit register value, and the 16-byte frame of the command FIFO. -/

namespace Sys2Proof

/-- "A byte is 8 bits, an unsigned value 0..255" (R10). -/
abbrev Byte := BitVec 8

/-- "A \"word\" is 32 bits in the SMC" (R10). -/
abbrev Word := BitVec 32

/-- "a \"register value\" is 64 bits in the IIC" (R10). -/
abbrev DWord := BitVec 64

/-- A 16-byte command frame `F[0..15]` (R108) or response frame `P[0..15]` (R110). -/
abbrev Frame := Vector Byte 16

/-- The bytes `F[1..15]` of a frame: everything after the command code (R108). -/
abbrev Args := Vector Byte 15

/-- The frame whose command code is `code` and whose bytes 1..15 are `args` (R108). -/
def frameOf (code : Byte) (args : Args) : Frame :=
  (#v[code] ++ args : Vector Byte (1 + 15))

end Sys2Proof
end

