-- ==== Sys2Proof/Machine/Bytes.lean ====
section
/-! DEFINITION. Byte order (spec/00_scope.md R12): how four window bytes form a 32-bit word (little
endian), how eight bytes form a 64-bit IIC register value (big endian), and replacing some lanes of a
slot by new bytes (R139, R263). -/

namespace Sys2Proof

/-- `word(b0,b1,b2,b3)`: b0 is the byte at the lowest address and holds bits 7..0 (R12, R74; DESIGN
CHOICE of the spec D3, log entry 8). -/
def word (b0 b1 b2 b3 : Byte) : Word := b3 ++ b2 ++ b1 ++ b0

/-- `lane(w, i) = (w div 256^i) mod 256` (R12). -/
def lane (w : Word) (i : Nat) : Byte := w.extractLsb' (8 * i) 8

/-- The four bytes of a word, lowest address first. -/
def wordBytes (w : Word) : List Byte := [lane w 0, lane w 1, lane w 2, lane w 3]

/-- `val(b0,...,b7)`: b0 is the byte at the lowest address and holds bits 63..56 (R12, R75; DESIGN
CHOICE of the spec D24, log entry 9). The bytes are given as a list; a missing byte counts as 0. -/
def val (bs : List Byte) : DWord :=
  bs.getD 0 0 ++ bs.getD 1 0 ++ bs.getD 2 0 ++ bs.getD 3 0 ++
    bs.getD 4 0 ++ bs.getD 5 0 ++ bs.getD 6 0 ++ bs.getD 7 0

/-- `blane(v, i) = (v div 256^(7-i)) mod 256` (R12). -/
def blane (v : DWord) (i : Nat) : Byte := v.extractLsb' (8 * (7 - i)) 8

/-- The eight bytes of an IIC register value, lowest address first. -/
def valBytes (v : DWord) : List Byte :=
  [blane v 0, blane v 1, blane v 2, blane v 3, blane v 4, blane v 5, blane v 6, blane v 7]

/-- `old` with the bytes at positions `at ..` replaced by `new`. -/
def splice (old : List Byte) (at' : Nat) (new : List Byte) : List Byte :=
  old.take at' ++ new ++ old.drop (at' + new.length)

/-- The bytes at positions `at .. at + k - 1` of a slot's bytes (R140, R262). -/
def lanes (slot : List Byte) (at' k : Nat) : List Byte := (slot.drop at').take k

end Sys2Proof
end

