-- ==== Sys2Proof/Syntax.lean ====
section
/-! DEFINITION. The names the spec enumerates (SMC registers, IIC registers, FIFO commands, tray
states) and the operations of the two devices: one constructor of `Instr` for each row of
spec/opcode_table.json. The hardware "executes no program": "What plays the role of an instruction
set is the set of operations a bus master or a requesting device can apply" (spec/00_scope.md R1). -/

namespace Sys2Proof

/-- The 14 named SMC registers (spec/10_state.md R24). -/
inductive SmcReg where
  | busControl  -- BUS_CONTROL
  | uartIn  -- UART_IN
  | uartOut  -- UART_OUT
  | uartStatus  -- UART_STATUS
  | uartConfig  -- UART_CONFIG
  | smiIntPending  -- SMI_INT_PENDING
  | smiIntAck  -- SMI_INT_ACK
  | smiIntEnable  -- SMI_INT_ENABLE
  | clockIntEnable  -- CLOCK_INT_ENABLE
  | clockIntStatus  -- CLOCK_INT_STATUS
  | fifoInMsg  -- FIFO_IN_MSG
  | fifoInStatus  -- FIFO_IN_STATUS
  | fifoOutMsg  -- FIFO_OUT_MSG
  | fifoOutStatus  -- FIFO_OUT_STATUS
  deriving DecidableEq, Repr

/-- All named SMC registers, in the order of R24's table. -/
def SmcReg.all : List SmcReg :=
  [.busControl, .uartIn, .uartOut, .uartStatus, .uartConfig, .smiIntPending, .smiIntAck,
   .smiIntEnable, .clockIntEnable, .clockIntStatus, .fifoInMsg, .fifoInStatus, .fifoOutMsg, .fifoOutStatus]

/-- The eight named registers of an IIC control block (spec/10_state.md R45). -/
inductive IicReg where
  | whoami  -- WHOAMI
  | currentTskPri  -- CURRENT_TSK_PRI
  | ipiDispatch0  -- IPI_DISPATCH_0
  | ack  -- ACK
  | ackSetPri  -- ACK_SET_CPU_CURRENT_TSK_PRI
  | eoi  -- EOI
  | eoiSetPri  -- EOI_SET_CPU_CURRENT_TSK_PRI
  | mcack  -- INT_MCACK
  deriving DecidableEq, Repr

/-- All named IIC registers, in the order of R45's table. -/
def IicReg.all : List IicReg :=
  [.whoami, .currentTskPri, .ipiDispatch0, .ack, .ackSetPri, .eoi, .eoiSetPri, .mcack]

/-- The 25 FIFO commands (spec/30_encoding.md R112). -/
inductive Cmd where
  | pwronType  -- PWRON_TYPE
  | queryRtc  -- QUERY_RTC
  | queryTemp  -- QUERY_TEMP
  | queryTray  -- QUERY_TRAY
  | queryAvpack  -- QUERY_AVPACK
  | i2cPassthrough  -- I2C_PASSTHROUGH
  | queryVersion  -- QUERY_VERSION
  | fifoTest  -- FIFO_TEST
  | queryIrAddr  -- QUERY_IR_ADDR
  | queryTilt  -- QUERY_TILT
  | queryIntAck0  -- QUERY_INT_ACK[0]
  | queryIntAck1  -- QUERY_INT_ACK[1]
  | setStandby  -- SET_STANDBY
  | setTime  -- SET_TIME
  | setFanAlgorithm  -- SET_FAN_ALGORITHM
  | setFanSpeed0  -- SET_FAN_SPEED[0]
  | setFanSpeed1  -- SET_FAN_SPEED[1]
  | setDvdTray  -- SET_DVD_TRAY
  | setPowerLed  -- SET_POWER_LED
  | setAudioMute  -- SET_AUDIO_MUTE
  | setIrAddr  -- SET_IR_ADDR
  | setRtcWake  -- SET_RTC_WAKE
  | setAsyncOp  -- SET_ASYNC_OP
  | setIntEnable0  -- SET_INT_ENABLE[0]
  | setIntEnable1  -- SET_INT_ENABLE[1]
  deriving DecidableEq, Repr

/-- All commands, in the order of R112's table. -/
def Cmd.all : List Cmd :=
  [.pwronType, .queryRtc, .queryTemp, .queryTray, .queryAvpack,
   .i2cPassthrough, .queryVersion, .fifoTest, .queryIrAddr, .queryTilt,
   .queryIntAck0, .queryIntAck1, .setStandby, .setTime, .setFanAlgorithm,
   .setFanSpeed0, .setFanSpeed1, .setDvdTray, .setPowerLed, .setAudioMute,
   .setIrAddr, .setRtcWake, .setAsyncOp, .setIntEnable0, .setIntEnable1]

/-- The tray states, in the source's order (spec/10_state.md R38, R39). -/
inductive Tray where
  | opened  -- OPEN
  | openRequest  -- OPEN_REQUEST
  | closed  -- CLOSED
  | opening  -- OPENING
  | closing  -- CLOSING
  | unknown  -- UNKNOWN
  | spinup  -- SPINUP
  deriving DecidableEq, Repr

/-- The two values the source leaves open for a drained FIFO out message register: "returning
zero/stale value once drained" (spec/41_smc_named_registers.md R166, U1). -/
inductive Drained where
  | zero
  | stale
  deriving DecidableEq, Repr

/-- The operations of the hardware, one constructor per row of spec/opcode_table.json.
Level 1 is a port operation with its operands (R100 to R102); level 2 is one piece on one slot
(R106: first lane, and a byte count for a read or the data bytes for a write); level 3 is the
command of one dispatched frame (R196: run the rule of the command with frame F), its operand the
frame's bytes 1..15; level 4 is one step of a background agent (R240). -/
inductive Instr where
  -- level 1: the SMC bus port
  | read (addr len : Nat)
  | write (addr : Nat) (buf : List Byte)
  | memSet (addr value len : Nat)
  | configRead (addr len : Nat)
  | configWrite (addr : Nat) (buf : List Byte)
  -- level 1: the IIC register port and request port
  | readInterrupt (addr len : Nat)
  | writeInterrupt (addr : Nat) (data : List Byte)
  | genInterrupt (type : Byte) (coreMask : Nat)
  | cancelInterrupt (type : Byte) (coreMask : Nat)
  | checkExtInterrupt (coreID : Nat)
  -- level 2: pieces on the SMC window
  | busControlRead (lane : Fin 4) (count : Nat)
  | busControlWrite (lane : Fin 4) (data : List Byte)
  | uartInRead (lane : Fin 4) (count : Nat)
  | uartInWrite (lane : Fin 4) (data : List Byte)
  | uartOutRead (lane : Fin 4) (count : Nat)
  | uartOutWrite (lane : Fin 4) (data : List Byte)
  | uartStatusRead (lane : Fin 4) (count : Nat)
  | uartStatusWrite (lane : Fin 4) (data : List Byte)
  | uartConfigRead (lane : Fin 4) (count : Nat)
  | uartConfigWrite (lane : Fin 4) (data : List Byte)
  | smiIntPendingRead (lane : Fin 4) (count : Nat)
  | smiIntPendingWrite (lane : Fin 4) (data : List Byte)
  | smiIntAckRead (lane : Fin 4) (count : Nat)
  | smiIntAckWrite (lane : Fin 4) (data : List Byte)
  | smiIntEnableRead (lane : Fin 4) (count : Nat)
  | smiIntEnableWrite (lane : Fin 4) (data : List Byte)
  | clockIntEnableRead (lane : Fin 4) (count : Nat)
  | clockIntEnableWrite (lane : Fin 4) (data : List Byte)
  | clockIntStatusRead (lane : Fin 4) (count : Nat)
  | clockIntStatusWrite (lane : Fin 4) (data : List Byte)
  | fifoInMsgRead (lane : Fin 4) (count : Nat)
  | fifoInMsgWrite (lane : Fin 4) (data : List Byte)
  | fifoInStatusRead (lane : Fin 4) (count : Nat)
  | fifoInStatusWrite (lane : Fin 4) (data : List Byte)
  | fifoOutMsgRead (lane : Fin 4) (count : Nat)
  | fifoOutMsgWrite (lane : Fin 4) (data : List Byte)
  | fifoOutStatusRead (lane : Fin 4) (count : Nat)
  | fifoOutStatusWrite (lane : Fin 4) (data : List Byte)
  | smcStorageRead (slot : Fin 64) (lane : Fin 4) (count : Nat)
  | smcStorageWrite (slot : Fin 64) (lane : Fin 4) (data : List Byte)
  -- level 2: pieces on an IIC control block
  | whoamiRead (block : Fin 6) (lane : Fin 8) (count : Nat)
  | whoamiWrite (block : Fin 6) (lane : Fin 8) (data : List Byte)
  | currentTskPriRead (block : Fin 6) (lane : Fin 8) (count : Nat)
  | currentTskPriWrite (block : Fin 6) (lane : Fin 8) (data : List Byte)
  | ipiDispatch0Read (block : Fin 6) (lane : Fin 8) (count : Nat)
  | ipiDispatch0Write (block : Fin 6) (lane : Fin 8) (data : List Byte)
  | ackRead (block : Fin 6) (lane : Fin 8) (count : Nat)
  | ackWrite (block : Fin 6) (lane : Fin 8) (data : List Byte)
  | ackSetPriRead (block : Fin 6) (lane : Fin 8) (count : Nat)
  | ackSetPriWrite (block : Fin 6) (lane : Fin 8) (data : List Byte)
  | eoiRead (block : Fin 6) (lane : Fin 8) (count : Nat)
  | eoiWrite (block : Fin 6) (lane : Fin 8) (data : List Byte)
  | eoiSetPriRead (block : Fin 6) (lane : Fin 8) (count : Nat)
  | eoiSetPriWrite (block : Fin 6) (lane : Fin 8) (data : List Byte)
  | mcackRead (block : Fin 6) (lane : Fin 8) (count : Nat)
  | mcackWrite (block : Fin 6) (lane : Fin 8) (data : List Byte)
  | iicUnnamedRead (block : Fin 6) (slot : Fin 512) (lane : Fin 8) (count : Nat)
  | iicUnnamedWrite (block : Fin 6) (slot : Fin 512) (lane : Fin 8) (data : List Byte)
  -- level 3: the command of one dispatched frame
  | pwronType (args : Args)
  | queryRtc (args : Args)
  | queryTemp (args : Args)
  | queryTray (args : Args)
  | queryAvpack (args : Args)
  | i2cPassthrough (args : Args)
  | queryVersion (args : Args)
  | fifoTest (args : Args)
  | queryIrAddr (args : Args)
  | queryTilt (args : Args)
  | queryIntAck0 (args : Args)
  | queryIntAck1 (args : Args)
  | setStandby (args : Args)
  | setTime (args : Args)
  | setFanAlgorithm (args : Args)
  | setFanSpeed0 (args : Args)
  | setFanSpeed1 (args : Args)
  | setDvdTray (args : Args)
  | setPowerLed (args : Args)
  | setAudioMute (args : Args)
  | setIrAddr (args : Args)
  | setRtcWake (args : Args)
  | setAsyncOp (args : Args)
  | setIntEnable0 (args : Args)
  | setIntEnable1 (args : Args)
  | unknownCommand (code : Byte) (args : Args)
  -- level 4: steps of the background agents
  | trayStepOpenRequest
  | trayStepOpening
  | trayStepClosing
  | uartRx (d st : Word)
  deriving DecidableEq, Repr

/-- The piece read of a named SMC register, by its name. -/
def Instr.smcRead (r : SmcReg) (lane : Fin 4) (count : Nat) : Instr :=
  match r with
  | .busControl => .busControlRead lane count
  | .uartIn => .uartInRead lane count
  | .uartOut => .uartOutRead lane count
  | .uartStatus => .uartStatusRead lane count
  | .uartConfig => .uartConfigRead lane count
  | .smiIntPending => .smiIntPendingRead lane count
  | .smiIntAck => .smiIntAckRead lane count
  | .smiIntEnable => .smiIntEnableRead lane count
  | .clockIntEnable => .clockIntEnableRead lane count
  | .clockIntStatus => .clockIntStatusRead lane count
  | .fifoInMsg => .fifoInMsgRead lane count
  | .fifoInStatus => .fifoInStatusRead lane count
  | .fifoOutMsg => .fifoOutMsgRead lane count
  | .fifoOutStatus => .fifoOutStatusRead lane count

/-- The piece write of a named SMC register, by its name. -/
def Instr.smcWrite (r : SmcReg) (lane : Fin 4) (data : List Byte) : Instr :=
  match r with
  | .busControl => .busControlWrite lane data
  | .uartIn => .uartInWrite lane data
  | .uartOut => .uartOutWrite lane data
  | .uartStatus => .uartStatusWrite lane data
  | .uartConfig => .uartConfigWrite lane data
  | .smiIntPending => .smiIntPendingWrite lane data
  | .smiIntAck => .smiIntAckWrite lane data
  | .smiIntEnable => .smiIntEnableWrite lane data
  | .clockIntEnable => .clockIntEnableWrite lane data
  | .clockIntStatus => .clockIntStatusWrite lane data
  | .fifoInMsg => .fifoInMsgWrite lane data
  | .fifoInStatus => .fifoInStatusWrite lane data
  | .fifoOutMsg => .fifoOutMsgWrite lane data
  | .fifoOutStatus => .fifoOutStatusWrite lane data

/-- The piece read of a named IIC register, by its name. -/
def Instr.iicRead (r : IicReg) (block : Fin 6) (lane : Fin 8) (count : Nat) : Instr :=
  match r with
  | .whoami => .whoamiRead block lane count
  | .currentTskPri => .currentTskPriRead block lane count
  | .ipiDispatch0 => .ipiDispatch0Read block lane count
  | .ack => .ackRead block lane count
  | .ackSetPri => .ackSetPriRead block lane count
  | .eoi => .eoiRead block lane count
  | .eoiSetPri => .eoiSetPriRead block lane count
  | .mcack => .mcackRead block lane count

/-- The piece write of a named IIC register, by its name. -/
def Instr.iicWrite (r : IicReg) (block : Fin 6) (lane : Fin 8) (data : List Byte) : Instr :=
  match r with
  | .whoami => .whoamiWrite block lane data
  | .currentTskPri => .currentTskPriWrite block lane data
  | .ipiDispatch0 => .ipiDispatch0Write block lane data
  | .ack => .ackWrite block lane data
  | .ackSetPri => .ackSetPriWrite block lane data
  | .eoi => .eoiWrite block lane data
  | .eoiSetPri => .eoiSetPriWrite block lane data
  | .mcack => .mcackWrite block lane data

/-- The command `c` of a frame whose bytes 1..15 are `args`. -/
def Instr.command (c : Cmd) (args : Args) : Instr :=
  match c with
  | .pwronType => .pwronType args
  | .queryRtc => .queryRtc args
  | .queryTemp => .queryTemp args
  | .queryTray => .queryTray args
  | .queryAvpack => .queryAvpack args
  | .i2cPassthrough => .i2cPassthrough args
  | .queryVersion => .queryVersion args
  | .fifoTest => .fifoTest args
  | .queryIrAddr => .queryIrAddr args
  | .queryTilt => .queryTilt args
  | .queryIntAck0 => .queryIntAck0 args
  | .queryIntAck1 => .queryIntAck1 args
  | .setStandby => .setStandby args
  | .setTime => .setTime args
  | .setFanAlgorithm => .setFanAlgorithm args
  | .setFanSpeed0 => .setFanSpeed0 args
  | .setFanSpeed1 => .setFanSpeed1 args
  | .setDvdTray => .setDvdTray args
  | .setPowerLed => .setPowerLed args
  | .setAudioMute => .setAudioMute args
  | .setIrAddr => .setIrAddr args
  | .setRtcWake => .setRtcWake args
  | .setAsyncOp => .setAsyncOp args
  | .setIntEnable0 => .setIntEnable0 args
  | .setIntEnable1 => .setIntEnable1 args

end Sys2Proof
end

