-- ==== Sys2Proof/Machine/Params.lean ====
section
/-! DEFINITION. The parameter table of spec/00_scope.md R9 where the source or the spec fixes a
value, and the encoding tables: register offsets (R24, R45), command codes (R112), tray codes (R39).
Open parameters and free values stand in Config.lean. It stands under Machine/ because a test could
show one of these values wrong. -/

namespace Sys2Proof

namespace Params

/-- SMC_SIZE: "0x100 for the SMC" (R71). -/
def smcSize : Nat := 0x100

/-- CFG_SIZE, the spec's decision D7 (R72; PRESUMED G3, log entry 18). -/
def cfgSize : Nat := 0x100

/-- IIC_BLOCK_STRIDE, the spec's decision D25 (R73; PRESUMED G4, log entry 18). -/
def iicStride : Nat := 0x1000

/-- N_CORES * IIC_BLOCK_STRIDE: the size of the IIC register space (R260). -/
def iicSize : Nat := 6 * iicStride

/-- OOR_READ_BYTE, the spec's decision D5 (R83; log entry 18). -/
def oorReadByte : Byte := 0x00

/-- FIFO_IN_READY_MASK, the spec's decision D11 (R107; PRESUMED G2, log entry 10). -/
def fifoInReadyMask : Word := 0x00000004

/-- FIFO_OUT_READY_MASK, the spec's decision D11 (R107; PRESUMED G2, log entry 10). -/
def fifoOutReadyMask : Word := 0x00000004

/-- FIFO_CLEAR_ON_DISPATCH, the spec's decision D10 (R194; log entry 11). -/
def fifoClearOnDispatch : Bool := false

/-- FIFO_OUT_DRAINED, the spec's decision D13 (R166; log entry 11). -/
def fifoOutDrained : Drained := .zero

/-- TRAY_SET_OPEN_ARG, the spec's decision D18 (R117; log entry 19). -/
def traySetOpenArg : Byte := 0x60

/-- TRAY_SET_CLOSE_ARG, the spec's decision D18 (R117; log entry 19). -/
def traySetCloseArg : Byte := 0x62

/-- NONE_ID, the spec's decision D27 (R116; PRESUMED G6, log entry 17). -/
def noneId : Byte := 0x7C

/-- ACK_READ_OFFSETS, the spec's decision D26 (R270; log entry 17). -/
def ackReadOffsets : List Nat := [0x50]

/-- EOI_WRITE_OFFSETS, the spec's decision D28 (R273; log entry 17). -/
def eoiWriteOffsets : List Nat := [0x60, 0x68]

/-- TRAY_INIT, the spec's decision D35 (R9, R66; log entry 13). -/
def trayInit : Tray := .closed

/-- PWR_INIT is OPEN; the value the model names is the one of spec/95_test_vectors.md's conventions
(DESIGN CHOICE, log entry 15). -/
def pwrInit : Byte := 0x11

/-- AVPACK_INIT is OPEN; the value the model names is the one of spec/95_test_vectors.md's conventions
(DESIGN CHOICE, log entry 15). -/
def avpackInit : Byte := 0x1F

/-- WHOAMI_RESET(c) is OPEN; the value the model names for every block is the one of
spec/95_test_vectors.md's conventions (DESIGN CHOICE, log entry 16). -/
def whoamiReset : DWord := 0

end Params

/-- The window offset of a named SMC register (R24). -/
def SmcReg.offset : SmcReg → Nat
  | .busControl => 0x00
  | .uartIn => 0x10
  | .uartOut => 0x14
  | .uartStatus => 0x18
  | .uartConfig => 0x1C
  | .smiIntPending => 0x50
  | .smiIntAck => 0x5C
  | .smiIntEnable => 0x60
  | .clockIntEnable => 0x64
  | .clockIntStatus => 0x6C
  | .fifoInMsg => 0x80
  | .fifoInStatus => 0x84
  | .fifoOutMsg => 0x90
  | .fifoOutStatus => 0x94

/-- The named register whose offset is the slot base `s`, if there is one (R104). -/
def SmcReg.ofOffset (s : Nat) : Option SmcReg :=
  SmcReg.all.find? fun r => r.offset == s

/-- The block offset of a named IIC register (R45). -/
def IicReg.offset : IicReg → Nat
  | .whoami => 0x00
  | .currentTskPri => 0x08
  | .ipiDispatch0 => 0x10
  | .ack => 0x50
  | .ackSetPri => 0x58
  | .eoi => 0x60
  | .eoiSetPri => 0x68
  | .mcack => 0x70

/-- The named register whose block offset is the slot base `s`, if there is one (R105). -/
def IicReg.ofOffset (s : Nat) : Option IicReg :=
  IicReg.all.find? fun r => r.offset == s

/-- CMD: the code of a command (R112, column "default code"; PRESUMED G1, log entry 12). -/
def Cmd.code : Cmd → Byte
  | .pwronType => 0x01
  | .queryRtc => 0x04
  | .queryTemp => 0x07
  | .queryTray => 0x0A
  | .queryAvpack => 0x0F
  | .i2cPassthrough => 0x11
  | .queryVersion => 0x12
  | .fifoTest => 0x13
  | .queryIrAddr => 0x16
  | .queryTilt => 0x17
  | .queryIntAck0 => 0x1E
  | .queryIntAck1 => 0x20
  | .setStandby => 0x82
  | .setTime => 0x85
  | .setFanAlgorithm => 0x88
  | .setFanSpeed0 => 0x89
  | .setFanSpeed1 => 0x94
  | .setDvdTray => 0x8B
  | .setPowerLed => 0x8C
  | .setAudioMute => 0x8D
  | .setIrAddr => 0x96
  | .setRtcWake => 0x9A
  | .setAsyncOp => 0x9C
  | .setIntEnable0 => 0x9D
  | .setIntEnable1 => 0x9F

/-- The command whose code is `b`, if there is one: "Because CMD is injective at most one X matches"
(R196). -/
def Cmd.ofCode (b : Byte) : Option Cmd :=
  Cmd.all.find? fun c => c.code == b

/-- `traycode(t)` (R39). -/
def Tray.code : Tray → Byte
  | .opened => 0x60
  | .openRequest => 0x61
  | .closed => 0x62
  | .opening => 0x63
  | .closing => 0x64
  | .unknown => 0x65
  | .spinup => 0x66

end Sys2Proof
end

