-- ==== Sys2Proof/WellFormed.lean ====
section
/-! DEFINITION. Which instructions are well formed: the ranges the spec gives a piece (R106: "1 <= n <=
W - l"), and that a row for everything unnamed does not name a register or a command ("applies only
when no other row of its format does", spec/30_encoding.md). Port operations take any operands
(R79, R100). -/

namespace Sys2Proof

/-- A piece of `count` bytes from lane `lane` fits in a slot of `w` bytes (R106). -/
def pieceFits (w lane count : Nat) : Bool :=
  decide (1 ≤ count) && decide (lane + count ≤ w)

/-- No SMC register is named at slot `slot` (R104). -/
def smcSlotUnnamed (slot : Fin 64) : Bool :=
  (SmcReg.ofOffset (4 * slot.val)).isNone

/-- No IIC register is named at slot `slot` of a block (R105). -/
def iicSlotUnnamed (slot : Fin 512) : Bool :=
  (IicReg.ofOffset (8 * slot.val)).isNone

/-- An instruction is well formed when every operand is in the range the spec gives its row. -/
def Instr.wf : Instr → Bool
  | .read _ _ => true
  | .write _ _ => true
  | .memSet _ _ _ => true
  | .configRead _ _ => true
  | .configWrite _ _ => true
  | .readInterrupt _ _ => true
  | .writeInterrupt _ _ => true
  | .genInterrupt _ _ => true
  | .cancelInterrupt _ _ => true
  | .checkExtInterrupt _ => true
  | .busControlRead lane count => pieceFits 4 lane.val count
  | .busControlWrite lane data => pieceFits 4 lane.val data.length
  | .uartInRead lane count => pieceFits 4 lane.val count
  | .uartInWrite lane data => pieceFits 4 lane.val data.length
  | .uartOutRead lane count => pieceFits 4 lane.val count
  | .uartOutWrite lane data => pieceFits 4 lane.val data.length
  | .uartStatusRead lane count => pieceFits 4 lane.val count
  | .uartStatusWrite lane data => pieceFits 4 lane.val data.length
  | .uartConfigRead lane count => pieceFits 4 lane.val count
  | .uartConfigWrite lane data => pieceFits 4 lane.val data.length
  | .smiIntPendingRead lane count => pieceFits 4 lane.val count
  | .smiIntPendingWrite lane data => pieceFits 4 lane.val data.length
  | .smiIntAckRead lane count => pieceFits 4 lane.val count
  | .smiIntAckWrite lane data => pieceFits 4 lane.val data.length
  | .smiIntEnableRead lane count => pieceFits 4 lane.val count
  | .smiIntEnableWrite lane data => pieceFits 4 lane.val data.length
  | .clockIntEnableRead lane count => pieceFits 4 lane.val count
  | .clockIntEnableWrite lane data => pieceFits 4 lane.val data.length
  | .clockIntStatusRead lane count => pieceFits 4 lane.val count
  | .clockIntStatusWrite lane data => pieceFits 4 lane.val data.length
  | .fifoInMsgRead lane count => pieceFits 4 lane.val count
  | .fifoInMsgWrite lane data => pieceFits 4 lane.val data.length
  | .fifoInStatusRead lane count => pieceFits 4 lane.val count
  | .fifoInStatusWrite lane data => pieceFits 4 lane.val data.length
  | .fifoOutMsgRead lane count => pieceFits 4 lane.val count
  | .fifoOutMsgWrite lane data => pieceFits 4 lane.val data.length
  | .fifoOutStatusRead lane count => pieceFits 4 lane.val count
  | .fifoOutStatusWrite lane data => pieceFits 4 lane.val data.length
  | .smcStorageRead slot lane count => smcSlotUnnamed slot && pieceFits 4 lane.val count
  | .smcStorageWrite slot lane data => smcSlotUnnamed slot && pieceFits 4 lane.val data.length
  | .whoamiRead _ lane count => pieceFits 8 lane.val count
  | .whoamiWrite _ lane data => pieceFits 8 lane.val data.length
  | .currentTskPriRead _ lane count => pieceFits 8 lane.val count
  | .currentTskPriWrite _ lane data => pieceFits 8 lane.val data.length
  | .ipiDispatch0Read _ lane count => pieceFits 8 lane.val count
  | .ipiDispatch0Write _ lane data => pieceFits 8 lane.val data.length
  | .ackRead _ lane count => pieceFits 8 lane.val count
  | .ackWrite _ lane data => pieceFits 8 lane.val data.length
  | .ackSetPriRead _ lane count => pieceFits 8 lane.val count
  | .ackSetPriWrite _ lane data => pieceFits 8 lane.val data.length
  | .eoiRead _ lane count => pieceFits 8 lane.val count
  | .eoiWrite _ lane data => pieceFits 8 lane.val data.length
  | .eoiSetPriRead _ lane count => pieceFits 8 lane.val count
  | .eoiSetPriWrite _ lane data => pieceFits 8 lane.val data.length
  | .mcackRead _ lane count => pieceFits 8 lane.val count
  | .mcackWrite _ lane data => pieceFits 8 lane.val data.length
  | .iicUnnamedRead _ slot lane count => iicSlotUnnamed slot && pieceFits 8 lane.val count
  | .iicUnnamedWrite _ slot lane data => iicSlotUnnamed slot && pieceFits 8 lane.val data.length
  | .pwronType _ => true
  | .queryRtc _ => true
  | .queryTemp _ => true
  | .queryTray _ => true
  | .queryAvpack _ => true
  | .i2cPassthrough _ => true
  | .queryVersion _ => true
  | .fifoTest _ => true
  | .queryIrAddr _ => true
  | .queryTilt _ => true
  | .queryIntAck0 _ => true
  | .queryIntAck1 _ => true
  | .setStandby _ => true
  | .setTime _ => true
  | .setFanAlgorithm _ => true
  | .setFanSpeed0 _ => true
  | .setFanSpeed1 _ => true
  | .setDvdTray _ => true
  | .setPowerLed _ => true
  | .setAudioMute _ => true
  | .setIrAddr _ => true
  | .setRtcWake _ => true
  | .setAsyncOp _ => true
  | .setIntEnable0 _ => true
  | .setIntEnable1 _ => true
  | .unknownCommand code _ => (Cmd.ofCode code).isNone
  | .trayStepOpenRequest => true
  | .trayStepOpening => true
  | .trayStepClosing => true
  | .uartRx _ _ => true

/-- The well-formed instructions, as a proposition `decide` evaluates. -/
abbrev Instr.WellFormed (i : Instr) : Prop := i.wf = true

end Sys2Proof
end

