-- ==== Sys2Proof/Decode.lean ====
section
/-! DEFINITION. The byte packets in which the model hands one whole operation to a device, their
decoder and encoder. The spec gives operations "no wire format, so the fields below are abstract
values, not bit fields" (spec/30_encoding.md R100): the packet is the model's own (DESIGN CHOICE, log
entry 3). Its first byte names the format of spec/opcode_table.json; what follows is the value that
format's match and mask apply to (the kind number R103; the window offset R104; the IIC address, whose
low 12 bits are the block offset R105; the frame byte F[0] R108; the tray code R241 to R243), then the
operands. Naturals are unbounded (R10), seven bits a byte, least significant first. -/

namespace Sys2Proof

/-- The ten formats of spec/opcode_table.json. -/
inductive Format where
  | smcPort
  | iicPort
  | iicReq
  | smcSlotRead
  | smcSlotWrite
  | iicSlotRead
  | iicSlotWrite
  | fifoFrame
  | agentStep
  | agentUartrx
  deriving DecidableEq, Repr

/-- The first byte of a packet of each format. -/
def Format.tag : Format → Byte
  | .smcPort => 0
  | .iicPort => 1
  | .iicReq => 2
  | .smcSlotRead => 3
  | .smcSlotWrite => 4
  | .iicSlotRead => 5
  | .iicSlotWrite => 6
  | .fifoFrame => 7
  | .agentStep => 8
  | .agentUartrx => 9

/-- The format a packet's first byte names. -/
def Format.ofTag (b : Byte) : Option Format :=
  match b.toNat with
  | 0 => some .smcPort
  | 1 => some .iicPort
  | 2 => some .iicReq
  | 3 => some .smcSlotRead
  | 4 => some .smcSlotWrite
  | 5 => some .iicSlotRead
  | 6 => some .iicSlotWrite
  | 7 => some .fifoFrame
  | 8 => some .agentStep
  | 9 => some .agentUartrx
  | _ => none

/-- Why a packet stands for no operation. -/
inductive DecodeError where
  /-- The packet has no byte. -/
  | emptyPacket
  /-- Its first byte names no format. -/
  | noSuchFormat
  /-- The kind number does not exist: "5 to 7 do not exist" (R103), or it is another port's. -/
  | noSuchKind
  /-- It ends before its operands do. -/
  | truncated
  /-- It goes on after its operands. -/
  | trailingBytes
  /-- The stated length is not the number of data bytes (R100: `buf` is of length `len`). -/
  | lengthMismatch
  /-- The piece does not fit in its slot (R106). -/
  | pieceTooWide
  /-- The IIC block does not exist: "Blocks 0..5 exist" (R73). -/
  | noSuchBlock
  /-- No tray step has this code (R244). -/
  | noSuchStep
  deriving DecidableEq, Repr

/-- What the decoder answers: an instruction or a named reason. -/
abbrev Decoded := Except DecodeError Instr

/-! ### Natural operands -/

/-- Read a natural: seven bits a byte, least significant first; a byte below 128 is the last. -/
def decodeNat : List Byte → Option (Nat × List Byte)
  | [] => none
  | b :: bs =>
    if b.toNat < 128 then some (b.toNat, bs)
    else match decodeNat bs with
      | none => none
      | some (n, rest) => some (b.toNat - 128 + 128 * n, rest)

/-- Write a natural, with `fuel` at least the number of bytes it takes less one. -/
def encodeNatFuel : Nat → Nat → List Byte
  | 0, n => [BitVec.ofNat 8 n]
  | fuel + 1, n =>
    if n < 128 then [BitVec.ofNat 8 n]
    else BitVec.ofNat 8 (128 + n % 128) :: encodeNatFuel fuel (n / 128)

/-- Write a natural. -/
def encodeNat (n : Nat) : List Byte := encodeNatFuel n n

/-- Read a natural and go on with it and the bytes after it. -/
def takeNat (bs : List Byte) (go : Nat → List Byte → Decoded) : Decoded :=
  match decodeNat bs with
  | none => .error .truncated
  | some (n, rest) => go n rest

/-- `i`, if the packet ends here. -/
def atEnd (i : Instr) : List Byte → Decoded
  | [] => .ok i
  | _ :: _ => .error .trailingBytes

/-- A data buffer of exactly `len` bytes that ends the packet (R100). -/
def takeBuf (len : Nat) (buf : List Byte) (mk : List Byte → Instr) : Decoded :=
  if buf.length = len then .ok (mk buf) else .error .lengthMismatch

/-! ### Level 1: port operations (R101, R102, R103) -/

/-- The operations of the SMC bus port by kind number (R103). -/
def decodeSmcPort : List Byte → Decoded
  | [] => .error .truncated
  | kind :: ops =>
    match kind.toNat with
    | 0 => takeNat ops fun addr r => takeNat r fun len r => atEnd (.read addr len) r
    | 1 => takeNat ops fun addr r => takeNat r fun len r => takeBuf len r (.write addr)
    | 2 => takeNat ops fun addr r => takeNat r fun value r => takeNat r fun len r =>
        atEnd (.memSet addr value len) r
    | 3 => takeNat ops fun addr r => takeNat r fun len r => atEnd (.configRead addr len) r
    | 4 => takeNat ops fun addr r => takeNat r fun len r => takeBuf len r (.configWrite addr)
    | _ => .error .noSuchKind

/-- The operations of the IIC register port by kind number (R103). -/
def decodeIicPort : List Byte → Decoded
  | [] => .error .truncated
  | kind :: ops =>
    match kind.toNat with
    | 0 => takeNat ops fun addr r => takeNat r fun len r => atEnd (.readInterrupt addr len) r
    | 1 => takeNat ops fun addr r => takeNat r fun len r => takeBuf len r (.writeInterrupt addr)
    | _ => .error .noSuchKind

/-- The type byte and the mask of genInterrupt and cancelInterrupt (R100). -/
def takeRequest (ops : List Byte) (mk : Byte → Nat → Instr) : Decoded :=
  match ops with
  | [] => .error .truncated
  | type :: r => takeNat r fun mask r => atEnd (mk type mask) r

/-- The operations of the IIC request port by kind number (R103). -/
def decodeIicReq : List Byte → Decoded
  | [] => .error .truncated
  | kind :: ops =>
    match kind.toNat with
    | 2 => takeRequest ops .genInterrupt
    | 3 => takeRequest ops .cancelInterrupt
    | 4 => takeNat ops fun core r => atEnd (.checkExtInterrupt core) r
    | _ => .error .noSuchKind

/-! ### Level 2: pieces (R104, R105, R106) -/

/-- Bits 1..0 of a window offset: the first lane (R104). -/
def smcLane (off : Byte) : Fin 4 := Fin.ofNat 4 off.toNat

/-- Bits 7..2 of a window offset: the slot (R104). -/
def smcSlot (off : Byte) : Fin 64 := Fin.ofNat 64 (off.toNat / 4)

/-- The piece read at a window offset (R104): a named register's, or storage's. -/
def smcReadAt (off : Byte) (count : Nat) : Instr :=
  match SmcReg.ofOffset (4 * (smcSlot off).val) with
  | some r => Instr.smcRead r (smcLane off) count
  | none => .smcStorageRead (smcSlot off) (smcLane off) count

/-- The piece write at a window offset (R104): a named register's, or storage's. -/
def smcWriteAt (off : Byte) (data : List Byte) : Instr :=
  match SmcReg.ofOffset (4 * (smcSlot off).val) with
  | some r => Instr.smcWrite r (smcLane off) data
  | none => .smcStorageWrite (smcSlot off) (smcLane off) data

/-- A piece read of the SMC window: the offset, then the byte count less one. -/
def decodeSmcSlotRead : List Byte → Decoded
  | off :: c :: [] =>
    if pieceFits 4 (smcLane off).val (c.toNat + 1) then .ok (smcReadAt off (c.toNat + 1))
    else .error .pieceTooWide
  | _ :: _ :: _ :: _ => .error .trailingBytes
  | _ => .error .truncated

/-- A piece write of the SMC window: the offset, then the data bytes. -/
def decodeSmcSlotWrite : List Byte → Decoded
  | off :: d :: ds =>
    if pieceFits 4 (smcLane off).val (d :: ds).length then .ok (smcWriteAt off (d :: ds))
    else .error .pieceTooWide
  | _ => .error .truncated

/-- An IIC address of 16 bits, low byte first: the block in bits 15..12, the block offset below (R105
with stride 0x1000). -/
def iicAddr (lo hi : Byte) : Nat := lo.toNat + 256 * hi.toNat

/-- Bits 2..0 of an IIC address: the first lane (R105). -/
def iicLane (a : Nat) : Fin 8 := Fin.ofNat 8 a

/-- Bits 11..3 of an IIC address: the slot within its block (R105). -/
def iicSlot (a : Nat) : Fin 512 := Fin.ofNat 512 (a / 8)

/-- The block of an IIC address below N_CORES * IIC_BLOCK_STRIDE: `a div IIC_BLOCK_STRIDE` (R105). -/
def iicBlock (a : Nat) : Fin 6 := Fin.ofNat 6 (a / Params.iicStride)

/-- The piece read at an IIC address (R105): a named register's, or an unnamed offset's. -/
def iicReadAt (a count : Nat) : Instr :=
  match IicReg.ofOffset (8 * (iicSlot a).val) with
  | some r => Instr.iicRead r (iicBlock a) (iicLane a) count
  | none => .iicUnnamedRead (iicBlock a) (iicSlot a) (iicLane a) count

/-- The piece write at an IIC address (R105): a named register's, or an unnamed offset's. -/
def iicWriteAt (a : Nat) (data : List Byte) : Instr :=
  match IicReg.ofOffset (8 * (iicSlot a).val) with
  | some r => Instr.iicWrite r (iicBlock a) (iicLane a) data
  | none => .iicUnnamedWrite (iicBlock a) (iicSlot a) (iicLane a) data

/-- A piece read of the IIC: the address, then the byte count less one. -/
def decodeIicSlotRead : List Byte → Decoded
  | lo :: hi :: c :: [] =>
    if iicAddr lo hi < Params.iicSize then
      if pieceFits 8 (iicLane (iicAddr lo hi)).val (c.toNat + 1) then
        .ok (iicReadAt (iicAddr lo hi) (c.toNat + 1))
      else .error .pieceTooWide
    else .error .noSuchBlock
  | _ :: _ :: _ :: _ :: _ => .error .trailingBytes
  | _ => .error .truncated

/-- A piece write of the IIC: the address, then the data bytes. -/
def decodeIicSlotWrite : List Byte → Decoded
  | lo :: hi :: d :: ds =>
    if iicAddr lo hi < Params.iicSize then
      if pieceFits 8 (iicLane (iicAddr lo hi)).val (d :: ds).length then
        .ok (iicWriteAt (iicAddr lo hi) (d :: ds))
      else .error .pieceTooWide
    else .error .noSuchBlock
  | _ => .error .truncated

/-! ### Level 3: the command frame (R108, R112, R113) -/

/-- The command of a frame: F[0] "compared for equality with the CMD table" (R108); "Every byte value
not in the image of CMD is unknown" (R113). -/
def frameInstr (code : Byte) (args : Args) : Instr :=
  match Cmd.ofCode code with
  | some c => Instr.command c args
  | none => .unknownCommand code args

/-- A frame of exactly 16 bytes. -/
def decodeFrame : List Byte → Decoded
  | [] => .error .truncated
  | code :: args =>
    if h : args.length = 15 then .ok (frameInstr code ⟨args.toArray, by simpa using h⟩)
    else if args.length < 15 then .error .truncated else .error .trailingBytes

/-! ### Level 4: agent steps (R241 to R243, R246) -/

/-- The tray worker's step by the tray code that enables it. -/
def decodeAgentStep : List Byte → Decoded
  | [] => .error .truncated
  | code :: r =>
    if code = Tray.openRequest.code then atEnd .trayStepOpenRequest r
    else if code = Tray.opening.code then atEnd .trayStepOpening r
    else if code = Tray.closing.code then atEnd .trayStepClosing r
    else .error .noSuchStep

/-- The receive bridge's step: the words `d` and `st`, four bytes each, least significant first. -/
def decodeUartrx : List Byte → Decoded
  | d0 :: d1 :: d2 :: d3 :: s0 :: s1 :: s2 :: s3 :: r =>
    atEnd (.uartRx (word d0 d1 d2 d3) (word s0 s1 s2 s3)) r
  | _ => .error .truncated

/-! ### The decoder -/

/-- The operands of a packet of format `f`. -/
def decodeBody (f : Format) (ops : List Byte) : Decoded :=
  match f with
  | .smcPort => decodeSmcPort ops
  | .iicPort => decodeIicPort ops
  | .iicReq => decodeIicReq ops
  | .smcSlotRead => decodeSmcSlotRead ops
  | .smcSlotWrite => decodeSmcSlotWrite ops
  | .iicSlotRead => decodeIicSlotRead ops
  | .iicSlotWrite => decodeIicSlotWrite ops
  | .fifoFrame => decodeFrame ops
  | .agentStep => decodeAgentStep ops
  | .agentUartrx => decodeUartrx ops

/-- The operation a packet stands for, or the reason it stands for none. Total on any bytes. -/
def decode : List Byte → Decoded
  | [] => .error .emptyPacket
  | tag :: ops =>
    match Format.ofTag tag with
    | some f => decodeBody f ops
    | none => .error .noSuchFormat

/-! ### The encoder -/

/-- The format of an instruction's row (spec/opcode_table.json, "format"). -/
def Instr.format : Instr → Format
  | .read _ _ => .smcPort
  | .write _ _ => .smcPort
  | .memSet _ _ _ => .smcPort
  | .configRead _ _ => .smcPort
  | .configWrite _ _ => .smcPort
  | .readInterrupt _ _ => .iicPort
  | .writeInterrupt _ _ => .iicPort
  | .genInterrupt _ _ => .iicReq
  | .cancelInterrupt _ _ => .iicReq
  | .checkExtInterrupt _ => .iicReq
  | .busControlRead _ _ => .smcSlotRead
  | .busControlWrite _ _ => .smcSlotWrite
  | .uartInRead _ _ => .smcSlotRead
  | .uartInWrite _ _ => .smcSlotWrite
  | .uartOutRead _ _ => .smcSlotRead
  | .uartOutWrite _ _ => .smcSlotWrite
  | .uartStatusRead _ _ => .smcSlotRead
  | .uartStatusWrite _ _ => .smcSlotWrite
  | .uartConfigRead _ _ => .smcSlotRead
  | .uartConfigWrite _ _ => .smcSlotWrite
  | .smiIntPendingRead _ _ => .smcSlotRead
  | .smiIntPendingWrite _ _ => .smcSlotWrite
  | .smiIntAckRead _ _ => .smcSlotRead
  | .smiIntAckWrite _ _ => .smcSlotWrite
  | .smiIntEnableRead _ _ => .smcSlotRead
  | .smiIntEnableWrite _ _ => .smcSlotWrite
  | .clockIntEnableRead _ _ => .smcSlotRead
  | .clockIntEnableWrite _ _ => .smcSlotWrite
  | .clockIntStatusRead _ _ => .smcSlotRead
  | .clockIntStatusWrite _ _ => .smcSlotWrite
  | .fifoInMsgRead _ _ => .smcSlotRead
  | .fifoInMsgWrite _ _ => .smcSlotWrite
  | .fifoInStatusRead _ _ => .smcSlotRead
  | .fifoInStatusWrite _ _ => .smcSlotWrite
  | .fifoOutMsgRead _ _ => .smcSlotRead
  | .fifoOutMsgWrite _ _ => .smcSlotWrite
  | .fifoOutStatusRead _ _ => .smcSlotRead
  | .fifoOutStatusWrite _ _ => .smcSlotWrite
  | .smcStorageRead _ _ _ => .smcSlotRead
  | .smcStorageWrite _ _ _ => .smcSlotWrite
  | .whoamiRead _ _ _ => .iicSlotRead
  | .whoamiWrite _ _ _ => .iicSlotWrite
  | .currentTskPriRead _ _ _ => .iicSlotRead
  | .currentTskPriWrite _ _ _ => .iicSlotWrite
  | .ipiDispatch0Read _ _ _ => .iicSlotRead
  | .ipiDispatch0Write _ _ _ => .iicSlotWrite
  | .ackRead _ _ _ => .iicSlotRead
  | .ackWrite _ _ _ => .iicSlotWrite
  | .ackSetPriRead _ _ _ => .iicSlotRead
  | .ackSetPriWrite _ _ _ => .iicSlotWrite
  | .eoiRead _ _ _ => .iicSlotRead
  | .eoiWrite _ _ _ => .iicSlotWrite
  | .eoiSetPriRead _ _ _ => .iicSlotRead
  | .eoiSetPriWrite _ _ _ => .iicSlotWrite
  | .mcackRead _ _ _ => .iicSlotRead
  | .mcackWrite _ _ _ => .iicSlotWrite
  | .iicUnnamedRead _ _ _ _ => .iicSlotRead
  | .iicUnnamedWrite _ _ _ _ => .iicSlotWrite
  | .pwronType _ => .fifoFrame
  | .queryRtc _ => .fifoFrame
  | .queryTemp _ => .fifoFrame
  | .queryTray _ => .fifoFrame
  | .queryAvpack _ => .fifoFrame
  | .i2cPassthrough _ => .fifoFrame
  | .queryVersion _ => .fifoFrame
  | .fifoTest _ => .fifoFrame
  | .queryIrAddr _ => .fifoFrame
  | .queryTilt _ => .fifoFrame
  | .queryIntAck0 _ => .fifoFrame
  | .queryIntAck1 _ => .fifoFrame
  | .setStandby _ => .fifoFrame
  | .setTime _ => .fifoFrame
  | .setFanAlgorithm _ => .fifoFrame
  | .setFanSpeed0 _ => .fifoFrame
  | .setFanSpeed1 _ => .fifoFrame
  | .setDvdTray _ => .fifoFrame
  | .setPowerLed _ => .fifoFrame
  | .setAudioMute _ => .fifoFrame
  | .setIrAddr _ => .fifoFrame
  | .setRtcWake _ => .fifoFrame
  | .setAsyncOp _ => .fifoFrame
  | .setIntEnable0 _ => .fifoFrame
  | .setIntEnable1 _ => .fifoFrame
  | .unknownCommand _ _ => .fifoFrame
  | .trayStepOpenRequest => .agentStep
  | .trayStepOpening => .agentStep
  | .trayStepClosing => .agentStep
  | .uartRx _ _ => .agentUartrx

/-- A byte count less one, as a piece read carries it. -/
def encodeCount (count : Nat) : Byte := BitVec.ofNat 8 (count - 1)

/-- The operands of a piece read at a window offset. -/
def smcReadBody (base : Nat) (lane : Fin 4) (count : Nat) : List Byte :=
  [BitVec.ofNat 8 (base + lane.val), encodeCount count]

/-- The operands of a piece write at a window offset. -/
def smcWriteBody (base : Nat) (lane : Fin 4) (data : List Byte) : List Byte :=
  BitVec.ofNat 8 (base + lane.val) :: data

/-- The 16-bit address of a lane of an IIC slot, low byte first (R105). -/
def iicAddrBytes (base : Nat) (block : Fin 6) (lane : Fin 8) : List Byte :=
  [BitVec.ofNat 8 ((block.val * Params.iicStride + base + lane.val) % 256),
   BitVec.ofNat 8 ((block.val * Params.iicStride + base + lane.val) / 256)]

/-- The operands of a piece read at a block offset. -/
def iicReadBody (base : Nat) (block : Fin 6) (lane : Fin 8) (count : Nat) : List Byte :=
  iicAddrBytes base block lane ++ [encodeCount count]

/-- The operands of a piece write at a block offset. -/
def iicWriteBody (base : Nat) (block : Fin 6) (lane : Fin 8) (data : List Byte) : List Byte :=
  iicAddrBytes base block lane ++ data

/-- The operands of a frame. -/
def frameBody (code : Byte) (args : Args) : List Byte := code :: args.toList

/-- The bytes of a packet after its format's tag. -/
def Instr.body : Instr → List Byte
  | .read addr len => 0 :: (encodeNat addr ++ encodeNat len)
  | .write addr buf => 1 :: (encodeNat addr ++ (encodeNat buf.length ++ buf))
  | .memSet addr value len => 2 :: (encodeNat addr ++ (encodeNat value ++ encodeNat len))
  | .configRead addr len => 3 :: (encodeNat addr ++ encodeNat len)
  | .configWrite addr buf => 4 :: (encodeNat addr ++ (encodeNat buf.length ++ buf))
  | .readInterrupt addr len => 0 :: (encodeNat addr ++ encodeNat len)
  | .writeInterrupt addr data => 1 :: (encodeNat addr ++ (encodeNat data.length ++ data))
  | .genInterrupt type coreMask => 2 :: type :: encodeNat coreMask
  | .cancelInterrupt type coreMask => 3 :: type :: encodeNat coreMask
  | .checkExtInterrupt coreID => 4 :: encodeNat coreID
  | .busControlRead lane count => smcReadBody SmcReg.busControl.offset lane count
  | .busControlWrite lane data => smcWriteBody SmcReg.busControl.offset lane data
  | .uartInRead lane count => smcReadBody SmcReg.uartIn.offset lane count
  | .uartInWrite lane data => smcWriteBody SmcReg.uartIn.offset lane data
  | .uartOutRead lane count => smcReadBody SmcReg.uartOut.offset lane count
  | .uartOutWrite lane data => smcWriteBody SmcReg.uartOut.offset lane data
  | .uartStatusRead lane count => smcReadBody SmcReg.uartStatus.offset lane count
  | .uartStatusWrite lane data => smcWriteBody SmcReg.uartStatus.offset lane data
  | .uartConfigRead lane count => smcReadBody SmcReg.uartConfig.offset lane count
  | .uartConfigWrite lane data => smcWriteBody SmcReg.uartConfig.offset lane data
  | .smiIntPendingRead lane count => smcReadBody SmcReg.smiIntPending.offset lane count
  | .smiIntPendingWrite lane data => smcWriteBody SmcReg.smiIntPending.offset lane data
  | .smiIntAckRead lane count => smcReadBody SmcReg.smiIntAck.offset lane count
  | .smiIntAckWrite lane data => smcWriteBody SmcReg.smiIntAck.offset lane data
  | .smiIntEnableRead lane count => smcReadBody SmcReg.smiIntEnable.offset lane count
  | .smiIntEnableWrite lane data => smcWriteBody SmcReg.smiIntEnable.offset lane data
  | .clockIntEnableRead lane count => smcReadBody SmcReg.clockIntEnable.offset lane count
  | .clockIntEnableWrite lane data => smcWriteBody SmcReg.clockIntEnable.offset lane data
  | .clockIntStatusRead lane count => smcReadBody SmcReg.clockIntStatus.offset lane count
  | .clockIntStatusWrite lane data => smcWriteBody SmcReg.clockIntStatus.offset lane data
  | .fifoInMsgRead lane count => smcReadBody SmcReg.fifoInMsg.offset lane count
  | .fifoInMsgWrite lane data => smcWriteBody SmcReg.fifoInMsg.offset lane data
  | .fifoInStatusRead lane count => smcReadBody SmcReg.fifoInStatus.offset lane count
  | .fifoInStatusWrite lane data => smcWriteBody SmcReg.fifoInStatus.offset lane data
  | .fifoOutMsgRead lane count => smcReadBody SmcReg.fifoOutMsg.offset lane count
  | .fifoOutMsgWrite lane data => smcWriteBody SmcReg.fifoOutMsg.offset lane data
  | .fifoOutStatusRead lane count => smcReadBody SmcReg.fifoOutStatus.offset lane count
  | .fifoOutStatusWrite lane data => smcWriteBody SmcReg.fifoOutStatus.offset lane data
  | .smcStorageRead slot lane count => smcReadBody (4 * slot.val) lane count
  | .smcStorageWrite slot lane data => smcWriteBody (4 * slot.val) lane data
  | .whoamiRead block lane count => iicReadBody IicReg.whoami.offset block lane count
  | .whoamiWrite block lane data => iicWriteBody IicReg.whoami.offset block lane data
  | .currentTskPriRead block lane count => iicReadBody IicReg.currentTskPri.offset block lane count
  | .currentTskPriWrite block lane data => iicWriteBody IicReg.currentTskPri.offset block lane data
  | .ipiDispatch0Read block lane count => iicReadBody IicReg.ipiDispatch0.offset block lane count
  | .ipiDispatch0Write block lane data => iicWriteBody IicReg.ipiDispatch0.offset block lane data
  | .ackRead block lane count => iicReadBody IicReg.ack.offset block lane count
  | .ackWrite block lane data => iicWriteBody IicReg.ack.offset block lane data
  | .ackSetPriRead block lane count => iicReadBody IicReg.ackSetPri.offset block lane count
  | .ackSetPriWrite block lane data => iicWriteBody IicReg.ackSetPri.offset block lane data
  | .eoiRead block lane count => iicReadBody IicReg.eoi.offset block lane count
  | .eoiWrite block lane data => iicWriteBody IicReg.eoi.offset block lane data
  | .eoiSetPriRead block lane count => iicReadBody IicReg.eoiSetPri.offset block lane count
  | .eoiSetPriWrite block lane data => iicWriteBody IicReg.eoiSetPri.offset block lane data
  | .mcackRead block lane count => iicReadBody IicReg.mcack.offset block lane count
  | .mcackWrite block lane data => iicWriteBody IicReg.mcack.offset block lane data
  | .iicUnnamedRead block slot lane count => iicReadBody (8 * slot.val) block lane count
  | .iicUnnamedWrite block slot lane data => iicWriteBody (8 * slot.val) block lane data
  | .pwronType args => frameBody Cmd.pwronType.code args
  | .queryRtc args => frameBody Cmd.queryRtc.code args
  | .queryTemp args => frameBody Cmd.queryTemp.code args
  | .queryTray args => frameBody Cmd.queryTray.code args
  | .queryAvpack args => frameBody Cmd.queryAvpack.code args
  | .i2cPassthrough args => frameBody Cmd.i2cPassthrough.code args
  | .queryVersion args => frameBody Cmd.queryVersion.code args
  | .fifoTest args => frameBody Cmd.fifoTest.code args
  | .queryIrAddr args => frameBody Cmd.queryIrAddr.code args
  | .queryTilt args => frameBody Cmd.queryTilt.code args
  | .queryIntAck0 args => frameBody Cmd.queryIntAck0.code args
  | .queryIntAck1 args => frameBody Cmd.queryIntAck1.code args
  | .setStandby args => frameBody Cmd.setStandby.code args
  | .setTime args => frameBody Cmd.setTime.code args
  | .setFanAlgorithm args => frameBody Cmd.setFanAlgorithm.code args
  | .setFanSpeed0 args => frameBody Cmd.setFanSpeed0.code args
  | .setFanSpeed1 args => frameBody Cmd.setFanSpeed1.code args
  | .setDvdTray args => frameBody Cmd.setDvdTray.code args
  | .setPowerLed args => frameBody Cmd.setPowerLed.code args
  | .setAudioMute args => frameBody Cmd.setAudioMute.code args
  | .setIrAddr args => frameBody Cmd.setIrAddr.code args
  | .setRtcWake args => frameBody Cmd.setRtcWake.code args
  | .setAsyncOp args => frameBody Cmd.setAsyncOp.code args
  | .setIntEnable0 args => frameBody Cmd.setIntEnable0.code args
  | .setIntEnable1 args => frameBody Cmd.setIntEnable1.code args
  | .unknownCommand code args => frameBody code args
  | .trayStepOpenRequest => [Tray.openRequest.code]
  | .trayStepOpening => [Tray.opening.code]
  | .trayStepClosing => [Tray.closing.code]
  | .uartRx d st => wordBytes d ++ wordBytes st

/-- The packet of an instruction. -/
def encode (i : Instr) : List Byte := i.format.tag :: i.body

/-! ### Words of the opcode table -/

/-- The packet of a table word. A row's format is not among its bits (spec/30_encoding.md: "a row's
`format` says what its `match` and `mask` apply to"), so one word can be the word of rows of several
formats; the packet takes the first of: an IIC slot read for a word of more than 8 bits; a frame, if
its byte is a command code; a tray step; an SMC port operation, if it is a kind number; an SMC slot
read. Operands are zeros (DESIGN CHOICE, log entry 4). -/
def tablePacket (nbits w : Nat) : List Byte :=
  let b : Byte := BitVec.ofNat 8 w
  if 8 < nbits then [Format.iicSlotRead.tag, b, BitVec.ofNat 8 (w / 256), 0]
  else if (Cmd.ofCode b).isSome then Format.fifoFrame.tag :: b :: List.replicate 15 0
  else if b = Tray.openRequest.code ∨ b = Tray.opening.code ∨ b = Tray.closing.code then
    [Format.agentStep.tag, b]
  else if b = 2 then [Format.smcPort.tag, b, 0, 0, 0]
  else if b.toNat < 5 then [Format.smcPort.tag, b, 0, 0]
  else [Format.smcSlotRead.tag, b, 0]

/-- The instruction the decoder reads from a table word. -/
def decodeTableWord (nbits w : Nat) : Option Instr :=
  match decode (tablePacket nbits w) with
  | .ok i => some i
  | .error _ => none

end Sys2Proof
end

