-- ==== Sys2Proof/Machine/State.lean ====
section
/-! DEFINITION. The state of the two devices as plain data (spec/10_state.md R20, R44), the schedule
of operations still to be applied, what the last operation handed back, and the reset state (R66). -/

namespace Sys2Proof.Machine

/-- A byte-addressed storage space: (address, byte) pairs, addresses strictly rising, no entry equal
to what an unlisted address reads as, which is 0x00 (R66: SMC_WIN_RESET "default: all 0x00"). -/
abbrev Mem := List Host.Cell

/-- The output events of the SMC (R64). -/
inductive SmcEvent where
  /-- `UartTx(w)`: "a 32-bit word written to UART_OUT". -/
  | uartTx (w : Word)
  /-- `UartReinit(w)`: "a 32-bit word written to UART_CONFIG". -/
  | uartReinit (w : Word)
  deriving DecidableEq, Repr

/-- The output event of the IIC (R64). -/
inductive IicEvent where
  /-- `LineAssert(c)`: core `c`'s signal flag went from false to true (R301). -/
  | lineAssert (core : Fin 6)
  deriving DecidableEq, Repr

/-- The SMC device state `S` (R20), with the device's output trace (R64) and the model's own draw
counter. -/
structure Smc where
  /-- `S.win`: the RegisterFile, one byte per window offset 0x00..0xFF (R21). -/
  win : Mem
  /-- `S.cfg`: the PCI configuration space (R22). -/
  cfg : Mem
  /-- `S.fifo`: the 16-byte command frame buffer (R36). -/
  fifo : Frame
  /-- `S.cur`: the frame buffer's cursor, 0..15 between operations (R36, R41). -/
  cur : Nat
  /-- `S.respq`: the queued responses, head first (R37). -/
  respq : List Frame
  /-- `S.ocur`: the read position in the head response, one of 0, 4, 8, 12 (R37, R41). -/
  ocur : Nat
  /-- `S.olast`: the last word a FIFO out message read took from a response (R37, R166). -/
  olast : Word
  /-- `S.tray`: the tray state (R38). -/
  tray : Tray
  /-- `S.pwr`: the power-on reason (R40). -/
  pwr : Byte
  /-- `S.avpack`: the AV-pack type (R40). -/
  avpack : Byte
  /-- `S.uartcfg`: the UART configuration word (R29, R38). -/
  uartcfg : Word
  /-- The output trace of the SMC, in the order of emission (R64). -/
  trace : List SmcEvent
  /-- The MODEL's own: how many free payloads were drawn (R200, U7; log entry 5). -/
  draws : Nat
  deriving DecidableEq, Repr

/-- One queued interrupt `{type, prio, ack}` (R54): PENDING when `ack` is false, ACKED when true. -/
structure IntRecord where
  type : Byte
  prio : Nat
  ack : Bool
  deriving DecidableEq, Repr

/-- The eight registers of a control block (R45 to R53). -/
structure Regs where
  /-- WHOAMI (R46). -/
  whoami : DWord
  /-- CURRENT_TSK_PRI (R47). -/
  currentTskPri : DWord
  /-- IPI_DISPATCH_0 (R48). -/
  ipiDispatch0 : DWord
  /-- ACK (R49). -/
  ack : DWord
  /-- ACK_SET_CPU_CURRENT_TSK_PRI (R50). -/
  ackSetPri : DWord
  /-- EOI (R51). -/
  eoi : DWord
  /-- EOI_SET_CPU_CURRENT_TSK_PRI (R52). -/
  eoiSetPri : DWord
  /-- INT_MCACK (R53). -/
  mcack : DWord
  deriving DecidableEq, Repr

/-- One InterruptControlBlock `B` (R44). -/
structure Block where
  /-- `B.reg`. -/
  regs : Regs
  /-- `B.q`: the queue of records, earliest enqueued first (R54). -/
  q : List IntRecord
  /-- `B.sig`: "signal already raised" (R55). -/
  sig : Bool
  deriving DecidableEq, Repr

/-- The interrupt controller state `I` (R44) with the device's output trace (R64). -/
structure Iic where
  /-- `I.blk[c]`, c = 0..5. -/
  blk : Vector Block 6
  /-- The output trace of the IIC, in the order of emission (R64). -/
  trace : List IicEvent
  deriving DecidableEq, Repr

/-- What the collaborator supplies at an SMC reset (R350): "the inputs PWR_INIT and AVPACK_INIT (and,
if it wishes, the images SMC_WIN_RESET and CFG_RESET)". An image lists bytes from offset 0; offsets it
does not reach hold 0x00. -/
structure SmcInputs where
  win : List Byte
  cfg : List Byte
  pwr : Byte
  avpack : Byte
  deriving DecidableEq, Repr

/-- One entry of the schedule: an operation's packet, or a reset event of one device (R350). -/
inductive Input where
  /-- An operation "delivered whole to a port" (R100), or an agent's step, as the decoder's packet. -/
  | packet (bytes : List Byte)
  /-- SMC reset (R350). -/
  | smcReset (inputs : SmcInputs)
  /-- IIC reset, with WHOAMI_RESET(c) for each block (R46, R350). -/
  | iicReset (whoami : Vector DWord 6)
  deriving DecidableEq, Repr

/-- What an operation hands back to its caller. -/
inductive Result where
  /-- Nothing: a write, a request, a command, an agent's step. -/
  | nothing
  /-- The bytes of `Read`, `ConfigRead`, `readInterrupt` or a piece read (R133, R135, R262). -/
  | data (bytes : List Byte)
  /-- The boolean of `checkExtInterrupt` (R303). -/
  | flag (b : Bool)
  deriving DecidableEq, Repr

/-- The machine: both devices, the schedule and the last result. -/
structure State where
  /-- The SMC device. -/
  smc : Smc
  /-- The IIC device. -/
  iic : Iic
  /-- The MODEL's own: the operations and reset events still to be applied, in the one order in which
  they are serialised (R84 to R86; log entry 1). -/
  inbox : List Input
  /-- The MODEL's own: what the last operation handed back (log entry 2). -/
  result : Result
  deriving DecidableEq, Repr

/-- Why the machine stops with a fault: never. "No operation of this hardware raises an exception,
returns an error code, blocks or leaves the state ill formed" (spec/60_exceptions.md R320). -/
inductive Fault where
  deriving DecidableEq, Repr

/-- Why the machine refuses a step. -/
inductive Refusal where
  /-- An instruction without a meaning, raised by `exec` in its arm; safe. No arm of this model raises
  it. -/
  | notModelled (mnemonic : String)
  /-- Raised by `step` on a packet that stands for no operation: such an operation "cannot be expressed"
  at a port (spec/30_encoding.md R113); safe. -/
  | undecodable (reason : DecodeError)
  deriving DecidableEq, Repr

/-- The registers of a block after reset (R66): WHOAMI as given, the others 0. -/
def Regs.reset (whoami : DWord) : Regs where
  whoami := whoami
  currentTskPri := 0
  ipiDispatch0 := 0
  ack := 0
  ackSetPri := 0
  eoi := 0
  eoiSetPri := 0
  mcack := 0

/-- A block after reset (R66): no record, no signal. -/
def Block.reset (whoami : DWord) : Block where
  regs := Regs.reset whoami
  q := []
  sig := false

/-- The machine right after reset (R66, R351), with the OPEN inputs at the values the model names (log
entries 14, 15, 16) and nothing scheduled. -/
def State.reset : State where
  smc :=
    { win := []
      cfg := []
      fifo := Vector.replicate 16 0
      cur := 0
      respq := []
      ocur := 0
      olast := 0
      tray := Params.trayInit
      pwr := Params.pwrInit
      avpack := Params.avpackInit
      uartcfg := 0
      trace := []
      draws := 0 }
  iic := { blk := Vector.replicate 6 (Block.reset Params.whoamiReset), trace := [] }
  inbox := []
  result := .nothing

end Sys2Proof.Machine
end

