-- ==== Sys2Proof/Machine/Operands.lean ====
section
/-! DEFINITION. Operand forms: clamping an operation to its space (R83, R130), cutting it into pieces at
slot boundaries (R131, R261), the cores a mask selects (R115). -/

namespace Sys2Proof.Machine

/-- `n`, the number of bytes of an operation at `addr` of length `len` that act on a space of `size`
bytes (R83, R130). -/
def clamp (addr len size : Nat) : Nat :=
  if size ≤ addr then 0 else min len (size - addr)

/-- The part of one operation that falls in one slot (R106): slot base, first lane, byte count. -/
structure Piece where
  base : Nat
  lane : Nat
  count : Nat
  deriving DecidableEq, Repr

/-- The pieces of the `n` bytes at `addr`, slots being `w` bytes wide, ascending: "cut at every
multiple of 4 into maximal runs that each lie in one slot" (R131; of 8, R261). `fuel` is at least the
number of pieces. -/
def piecesFuel (w : Nat) : Nat → Nat → Nat → List Piece
  | 0, _, _ => []
  | fuel + 1, addr, n =>
    if n = 0 then []
    else
      ⟨addr - addr % w, addr % w, min (w - addr % w) n⟩ ::
        piecesFuel w fuel (addr + min (w - addr % w) n) (n - min (w - addr % w) n)

/-- The pieces of an operation (R131, R261). -/
def pieces (w addr n : Nat) : List Piece := piecesFuel w n addr n

/-- The six cores, ascending (R300, R302; the order is the spec's decision D43, log entry 20). -/
def cores : List (Fin 6) := [0, 1, 2, 3, 4, 5]

/-- "bit i (value 2^i) selects core i for i = 0..5" (R115; the spec's decision D31, log entry 20). -/
def coreSelected (coreMask : Nat) (c : Fin 6) : Bool := coreMask.testBit c.val

end Sys2Proof.Machine
end

