-- ==== Sys2Proof/Machine/Ops.lean ====
section
/-! DEFINITION. The named operations over storage, registers and queues that the meanings share:
reading and writing bytes (R137, R138), the SMC's slots (R14), the response queue (R197), the IIC's
registers and blocks (R44, R265, R266), selecting the best record (R15), and the two operations that
stand for taking an interrupt and returning from it: acknowledge (R270, R331) and end of interrupt
(R273, R332). -/

namespace Sys2Proof.Machine

/-! ### Byte storage -/

/-- The byte at an address: the first entry that lists it, 0x00 where none does. -/
def Mem.read : Mem → Nat → Byte
  | [], _ => 0
  | (k, v) :: m, a => if k = a then v else Mem.read m a

/-- Put an entry before the first one with a higher address. -/
def Mem.insert : Mem → Nat → Byte → Mem
  | [], a, b => [(a, b)]
  | (k, v) :: m, a, b => if a < k then (a, b) :: (k, v) :: m else (k, v) :: Mem.insert m a b

/-- The memory with `b` at address `a` and every other byte as before; an entry equal to what an
unlisted address reads as is not listed. -/
def Mem.write (m : Mem) (a : Nat) (b : Byte) : Mem :=
  if b = 0 then m.filter (fun c => c.1 != a)
  else Mem.insert (m.filter fun c => c.1 != a) a b

/-- Write bytes at ascending addresses from `a` (R11: `buf[i]` is the byte for address `addr + i`). -/
def Mem.writeBytes : Mem → Nat → List Byte → Mem
  | m, _, [] => m
  | m, a, b :: bs => Mem.writeBytes (Mem.write m a b) (a + 1) bs

/-- Read `n` bytes at ascending addresses from `a`. -/
def Mem.readBytes (m : Mem) : Nat → Nat → List Byte
  | _, 0 => []
  | a, n + 1 => Mem.read m a :: Mem.readBytes m (a + 1) n

/-- The canonical form of a memory of `size` bytes: addresses strictly rising and below `size`, no
entry 0x00. -/
def Mem.wf (size : Nat) (m : Mem) : Bool :=
  decide (m.Pairwise fun c d => c.1 < d.1) && m.all fun c => decide (c.1 < size) && c.2 != 0

/-- A memory of `size` bytes from an image listed from address 0. -/
def Mem.ofImage (size : Nat) (image : List Byte) : Mem :=
  Mem.writeBytes [] 0 (image.take size)

/-! ### SMC slots, responses, events -/

/-- `wslot(s)`: the 32-bit value of a slot of the window (R14). -/
def Smc.wslot (s : Smc) (base : Nat) : Word :=
  word (Mem.read s.win base) (Mem.read s.win (base + 1)) (Mem.read s.win (base + 2))
    (Mem.read s.win (base + 3))

/-- Store bytes in the window: "`S.win[s + l + j] <- d[j]`" (R137). -/
def Smc.store (s : Smc) (a : Nat) (d : List Byte) : Smc :=
  { s with win := Mem.writeBytes s.win a d }

/-- `emit E` on the SMC's trace (R14, R64). -/
def Smc.emit (s : Smc) (e : SmcEvent) : Smc := { s with trace := s.trace ++ [e] }

/-- `respond(P)`: append a response at the tail of the queue (R197). -/
def Smc.respond (s : Smc) (p : Frame) : Smc := { s with respq := s.respq ++ [p] }

/-- Bytes `i .. i + 3` of a response as the word FIFO_OUT_MSG returns (R166). -/
def frameWord (p : Frame) (i : Nat) : Word :=
  word (p.toList.getD i 0) (p.toList.getD (i + 1) 0) (p.toList.getD (i + 2) 0)
    (p.toList.getD (i + 3) 0)

/-- What a FIFO out message read returns when no response is queued (R166, U1). -/
def Smc.drained (s : Smc) : Drained → Word
  | .zero => 0
  | .stale => s.olast

/-- A FIFO out message read (R166), for either value of FIFO_OUT_DRAINED: the word, and the queue
advanced by four bytes. -/
def Smc.takeWord (d : Drained) (s : Smc) : Word × Smc :=
  match s.respq with
  | [] => (s.drained d, s)
  | p :: rest =>
    if s.ocur + 4 = 16 then
      (frameWord p s.ocur, { s with respq := rest, ocur := 0, olast := frameWord p s.ocur })
    else
      (frameWord p s.ocur, { s with ocur := s.ocur + 4, olast := frameWord p s.ocur })

/-! ### IIC registers and blocks -/

/-- `B.reg[N]` (R265). -/
def Regs.get (r : Regs) : IicReg → DWord
  | .whoami => r.whoami
  | .currentTskPri => r.currentTskPri
  | .ipiDispatch0 => r.ipiDispatch0
  | .ack => r.ack
  | .ackSetPri => r.ackSetPri
  | .eoi => r.eoi
  | .eoiSetPri => r.eoiSetPri
  | .mcack => r.mcack

/-- `B.reg[N] <- v` (R266). -/
def Regs.set (r : Regs) : IicReg → DWord → Regs
  | .whoami, v => { r with whoami := v }
  | .currentTskPri, v => { r with currentTskPri := v }
  | .ipiDispatch0, v => { r with ipiDispatch0 := v }
  | .ack, v => { r with ack := v }
  | .ackSetPri, v => { r with ackSetPri := v }
  | .eoi, v => { r with eoi := v }
  | .eoiSetPri, v => { r with eoiSetPri := v }
  | .mcack, v => { r with mcack := v }

/-- A register of a block. -/
def Block.get (b : Block) (r : IicReg) : DWord := b.regs.get r

/-- A register of a block, written. -/
def Block.set (b : Block) (r : IicReg) (v : DWord) : Block := { b with regs := b.regs.set r v }

/-- `I.blk[c]` (R44). -/
def Iic.block (i : Iic) (c : Fin 6) : Block := i.blk[c]

/-- Block `c` replaced (R280: no other block is touched). -/
def Iic.setBlock (i : Iic) (c : Fin 6) (b : Block) : Iic :=
  { i with blk := i.blk.set c.val b c.isLt }

/-- `emit E` on the IIC's trace (R14, R64). -/
def Iic.emit (i : Iic) (e : IicEvent) : Iic := { i with trace := i.trace ++ [e] }

/-! ### Queues -/

/-- `best(q, P)` (R15): "among indices i with P(q[i]), the one with the least q[i].prio; among several
with the same least prio, the least index"; the index with its record. -/
def best (p : IntRecord → Bool) : List IntRecord → Option (Nat × IntRecord)
  | [] => none
  | r :: q =>
    match best p q with
    | none => if p r then some (0, r) else none
    | some (j, m) => if p r && decide (r.prio ≤ m.prio) then some (0, r) else some (j + 1, m)

/-- A record in state PENDING (R54). -/
def IntRecord.pending (r : IntRecord) : Bool := !r.ack

/-- A queue shortened, and the signal flag cleared if it is now empty (R273, R302). -/
def Block.withQueue (b : Block) (q : List IntRecord) : Block :=
  { b with q := q, sig := if q.isEmpty then false else b.sig }

/-! ### Taking an interrupt and returning from it -/

/-- Acknowledge: what the controller does when a core takes its interrupt (R270, R331). The best
PENDING record becomes ACKED and its type, zero-extended, is latched into register `r`; with none,
NONE_ID is latched. The value latched is the value read. -/
def acknowledge (r : IicReg) (b : Block) : DWord × Block :=
  match best IntRecord.pending b.q with
  | some (i, m) =>
    (m.type.setWidth 64,
      { b with q := b.q.set i { m with ack := true }, regs := b.regs.set r (m.type.setWidth 64) })
  | none => (Params.noneId.setWidth 64, b.set r (Params.noneId.setWidth 64))

/-- End of interrupt: what the controller does when a core's handler returns (R273, R332). The best
ACKED record leaves the queue; with none, nothing happens. -/
def endOfInterrupt (b : Block) : Block :=
  match best IntRecord.ack b.q with
  | some (j, _) => b.withQueue (b.q.eraseIdx j)
  | none => b

/-! ### The two devices in the machine -/

/-- An operation of the SMC that hands nothing back; the IIC is not touched (R87). -/
def State.onSmc (s : State) (f : Smc → Smc) : State :=
  { s with smc := f s.smc, result := .nothing }

/-- An operation of the SMC that hands bytes back. -/
def State.readSmc (s : State) (f : Smc → List Byte × Smc) : State :=
  { s with smc := (f s.smc).2, result := .data (f s.smc).1 }

/-- An operation of the IIC that hands nothing back; the SMC is not touched (R87). -/
def State.onIic (s : State) (f : Iic → Iic) : State :=
  { s with iic := f s.iic, result := .nothing }

/-- An operation of the IIC that hands bytes back. -/
def State.readIic (s : State) (f : Iic → List Byte × Iic) : State :=
  { s with iic := (f s.iic).2, result := .data (f s.iic).1 }

/-! ### Reset events (R350) -/

/-- SMC reset: "every field of S takes the value in the table of R66", the images and the two bytes
being the collaborator's. The model's draw counter goes on, so that no payload is drawn twice. -/
def Smc.resetWith (inp : SmcInputs) (old : Smc) : Smc :=
  let win := Mem.ofImage Params.smcSize inp.win
  { win := win
    cfg := Mem.ofImage Params.cfgSize inp.cfg
    fifo := Vector.replicate 16 0
    cur := 0
    respq := []
    ocur := 0
    olast := 0
    tray := Params.trayInit
    pwr := inp.pwr
    avpack := inp.avpack
    uartcfg := word (Mem.read win 0x1C) (Mem.read win 0x1D) (Mem.read win 0x1E) (Mem.read win 0x1F)
    trace := []
    draws := old.draws }

/-- IIC reset: "every block takes the values of the same table" (R350). -/
def Iic.resetWith (whoami : Vector DWord 6) : Iic where
  blk := #v[Block.reset whoami[0], Block.reset whoami[1], Block.reset whoami[2],
    Block.reset whoami[3], Block.reset whoami[4], Block.reset whoami[5]]
  trace := []

end Sys2Proof.Machine
end

