-- ==== Sys2Proof/Machine/Agents.lean ====
section
/-! DEFINITION. The steps of the SMC's background agents (spec/43_smc_background_agents.md R240 to
R246): the tray worker's three and the UART receive bridge's one. A tray step that is not enabled
changes nothing (R244, V43.1). -/

namespace Sys2Proof.Machine

/-- A tray step: from `from'`, to `to'`; in any other state "not enabled, no change". -/
def Smc.trayStep (from' to' : Tray) (s : Smc) : Smc :=
  if s.tray = from' then { s with tray := to' } else s

/-- The receive bridge (R246): `d` overwrites UART_IN and `st` overwrites UART_STATUS; nothing else
changes (the spec's decision D21, log entry 29). -/
def Smc.uartReceive (d st : Word) (s : Smc) : Smc :=
  (s.store SmcReg.uartIn.offset (wordBytes d)).store SmcReg.uartStatus.offset (wordBytes st)

/-! ### Meanings -/

/-- TRAYSTEP in OPEN_REQUEST (R241). -/
def execTrayStepOpenRequest (s : State) : Host.Outcome State Fault Refusal :=
  .next (s.onSmc (Smc.trayStep .openRequest .opening))

/-- TRAYSTEP in OPENING (R242). -/
def execTrayStepOpening (s : State) : Host.Outcome State Fault Refusal :=
  .next (s.onSmc (Smc.trayStep .opening .opened))

/-- TRAYSTEP in CLOSING (R243). -/
def execTrayStepClosing (s : State) : Host.Outcome State Fault Refusal :=
  .next (s.onSmc (Smc.trayStep .closing .closed))

/-- UARTRX (R246). -/
def execUartRx (d st : Word) (s : State) : Host.Outcome State Fault Refusal :=
  .next (s.onSmc (Smc.uartReceive d st))

end Sys2Proof.Machine
end

