-- ==== Sys2Proof/Config.lean ====
section
/-! DEFINITION. What the spec leaves OPEN (spec/00_scope.md R9): the free values of the model, opaque
constants without a body, so that a statement about them holds for every value. The values the source
or the spec fixes stand in Machine/Params.lean. -/

namespace Sys2Proof

namespace Config

/-- PRIO, the PriorityTable: "static mapping from interrupt type → priority value", "a total function
from INT_ID_BITS-bit types to naturals; it is not state" (R56; free value, log entry 6). -/
opaque prio : Byte → Nat

/-- RESP_PAYLOAD: "function (command, frame, SMC state) to 15 bytes" (R9), which "a model treats ... as
a free draw" (R200). The first argument is the model's draw counter, so that two queries in one SMC
state may be answered differently; `σ` is the type of the SMC state (free value, log entry 5). -/
opaque respPayload {σ : Type} (draw : Nat) (cmd : Cmd) (frame : Frame) (smc : σ) : Args

/-- SELFTEST_PATTERN: "16 bytes returned by the FIFO self-test" (R9), fixed, and given by no source
(R206; free value, log entry 7). -/
opaque selfTestPattern : Frame

end Config

end Sys2Proof
end

