-- ==== Sys2Proof/Machine/Flags.lean ====
section
/-! DEFINITION. Every flag of the hardware (R58): the ready bit of FIFO_IN_STATUS as it is tested (R16,
R107), FIFO_OUT_STATUS as it is computed (R34, R168), the line state of a core (R303), and the raising
of a core's signal flag (R300, R301). The signal flag is cleared by `Block.withQueue`, the `ack` flag
set by `acknowledge` (Ops.lean). There are no arithmetic condition codes (R58). -/

namespace Sys2Proof.Machine

/-- "Ready set" means `(w & MASK) != 0` (R107). -/
def inReady (w : Word) : Bool := (w &&& Params.fifoInReadyMask) != 0

/-- FIFO_OUT_STATUS: "FIFO_OUT_READY_MASK if S.respq is not empty, else 0" (R34, R168). -/
def Smc.outStatus (s : Smc) : Word :=
  if s.respq.isEmpty then 0 else Params.fifoOutReadyMask

/-- At least one pending, unacknowledged record: "the external interrupt line state" (R303). -/
def Block.line (b : Block) : Bool := b.q.any IntRecord.pending

/-- Append a PENDING record of `type` to core `c`'s queue and raise its signal flag, with a
`LineAssert` if it was not raised (R300, R301). -/
def Iic.post (type : Byte) (i : Iic) (c : Fin 6) : Iic :=
  let b := i.block c
  let b' := { b with q := b.q ++ [⟨type, Config.prio type, false⟩], sig := true }
  if b.sig then i.setBlock c b' else (i.setBlock c b').emit (.lineAssert c)

/-- Remove the earliest PENDING record of `type` from core `c`'s queue, if there is one (R302). -/
def Iic.withdraw (type : Byte) (i : Iic) (c : Fin 6) : Iic :=
  let b := i.block c
  match b.q.findIdx? fun r => r.type == type && r.pending with
  | some j => i.setBlock c (b.withQueue (b.q.eraseIdx j))
  | none => i

end Sys2Proof.Machine
end

