-- ==== Sys2Proof/Machine/IicRegs.lean ====
section
/-! DEFINITION. The eight registers of an IIC control block (spec/44_iic_register_access.md R264 to
R277): a read rule and a write effect for each, and one meaning for each row of formats iic_slot_read
and iic_slot_write. -/

namespace Sys2Proof.Machine

/-! ### Shapes of rules -/

/-- Shadow read (R265): the register, no state change. -/
def Block.shadow (r : IicReg) (b : Block) : DWord × Block := (b.get r, b)

/-- A read of a register: an acknowledge where ACK_READ_OFFSETS holds its offset (R270, R272), else a
shadow read. -/
def Block.ackable (r : IicReg) (b : Block) : DWord × Block :=
  if r.offset ∈ Params.ackReadOffsets then acknowledge r b else b.shadow r

/-- Shadow write (R266): no effect after the store. -/
def Block.noEffect (_v : DWord) (b : Block) : Block := b

/-- A piece read (R262): the rule's value once, then lanes `l .. l + k - 1` of it. -/
def Iic.readPiece (rule : Block → DWord × Block) (c : Fin 6) (lane count : Nat) (i : Iic) :
    List Byte × Iic :=
  (lanes (valBytes (rule (i.block c)).1) lane count, i.setBlock c (rule (i.block c)).2)

/-- The register with lanes `lane ..` replaced by the bytes written (R263). -/
def mergeLanes (v : DWord) (lane : Nat) (d : List Byte) : DWord := val (splice (valBytes v) lane d)

/-- A piece write (R263): the merged value is stored, then the effect is applied with it. -/
def Iic.writePiece (r : IicReg) (effect : DWord → Block → Block) (c : Fin 6) (lane : Nat)
    (d : List Byte) (i : Iic) : Iic :=
  let v := mergeLanes ((i.block c).get r) lane d
  i.setBlock c (effect v ((i.block c).set r v))

/-- A piece read at an unnamed block offset: "a read piece returns 0x00 bytes" (R264). -/
def Iic.unnamedRead (count : Nat) (i : Iic) : List Byte × Iic := (List.replicate count 0, i)

/-- A piece write at an unnamed block offset: "dropped" (R264). -/
def Iic.unnamedWrite (_d : List Byte) (i : Iic) : Iic := i

/-! ### Read rules and write effects -/

/-- WHOAMI, read rule (R267): shadow read. -/
def Block.whoamiRule (b : Block) : DWord × Block := b.shadow .whoami

/-- WHOAMI, write effect (R267): shadow write. -/
def Block.whoamiEffect (v : DWord) (b : Block) : Block := b.noEffect v

/-- CURRENT_TSK_PRI, read rule (R268): shadow read "with the default ACK_READ_OFFSETS". -/
def Block.currentTskPriRule (b : Block) : DWord × Block := b.ackable .currentTskPri

/-- CURRENT_TSK_PRI, write effect (R268): shadow write. -/
def Block.currentTskPriEffect (v : DWord) (b : Block) : Block := b.noEffect v

/-- IPI_DISPATCH_0, read rule (R269): shadow read. -/
def Block.ipiDispatch0Rule (b : Block) : DWord × Block := b.shadow .ipiDispatch0

/-- IPI_DISPATCH_0, write effect (R269): shadow write. -/
def Block.ipiDispatch0Effect (v : DWord) (b : Block) : Block := b.noEffect v

/-- ACK, read rule (R270): acknowledge. -/
def Block.ackRule (b : Block) : DWord × Block := acknowledge .ack b

/-- ACK, write effect (R271): shadow write. -/
def Block.ackEffect (v : DWord) (b : Block) : Block := b.noEffect v

/-- ACK_SET_CPU_CURRENT_TSK_PRI, read rule (R272): shadow read "with the default ACK_READ_OFFSETS". -/
def Block.ackSetPriRule (b : Block) : DWord × Block := b.ackable .ackSetPri

/-- ACK_SET_CPU_CURRENT_TSK_PRI, write effect (R272): shadow write. -/
def Block.ackSetPriEffect (v : DWord) (b : Block) : Block := b.noEffect v

/-- EOI, read rule (R274): shadow read. -/
def Block.eoiRule (b : Block) : DWord × Block := b.shadow .eoi

/-- EOI, write effect (R273): end of interrupt where EOI_WRITE_OFFSETS holds 0x60; "the written
value does not select the record". -/
def Block.eoiEffect (_v : DWord) (b : Block) : Block :=
  if IicReg.eoi.offset ∈ Params.eoiWriteOffsets then endOfInterrupt b else b

/-- EOI_SET_CPU_CURRENT_TSK_PRI, read rule (R276): shadow read. -/
def Block.eoiSetPriRule (b : Block) : DWord × Block := b.shadow .eoiSetPri

/-- EOI_SET_CPU_CURRENT_TSK_PRI, write effect (R275): end of interrupt, then the merged
value copied to CURRENT_TSK_PRI "whether or not a record was removed"; "With 0x68 removed from
EOI_WRITE_OFFSETS the rule is a shadow write". -/
def Block.eoiSetPriEffect (v : DWord) (b : Block) : Block :=
  if IicReg.eoiSetPri.offset ∈ Params.eoiWriteOffsets then (endOfInterrupt b).set .currentTskPri v
  else b

/-- INT_MCACK, read rule (R277): shadow read. -/
def Block.mcackRule (b : Block) : DWord × Block := b.shadow .mcack

/-- INT_MCACK, write effect (R277): shadow write. -/
def Block.mcackEffect (v : DWord) (b : Block) : Block := b.noEffect v

/-- The read rule of a named register (R262). -/
def Block.rule (r : IicReg) (b : Block) : DWord × Block :=
  match r with
  | .whoami => b.whoamiRule
  | .currentTskPri => b.currentTskPriRule
  | .ipiDispatch0 => b.ipiDispatch0Rule
  | .ack => b.ackRule
  | .ackSetPri => b.ackSetPriRule
  | .eoi => b.eoiRule
  | .eoiSetPri => b.eoiSetPriRule
  | .mcack => b.mcackRule

/-- The write effect of a named register (R263). -/
def Block.effect (r : IicReg) (v : DWord) (b : Block) : Block :=
  match r with
  | .whoami => b.whoamiEffect v
  | .currentTskPri => b.currentTskPriEffect v
  | .ipiDispatch0 => b.ipiDispatch0Effect v
  | .ack => b.ackEffect v
  | .ackSetPri => b.ackSetPriEffect v
  | .eoi => b.eoiEffect v
  | .eoiSetPri => b.eoiSetPriEffect v
  | .mcack => b.mcackEffect v

/-- A piece read of a named register, as a meaning. -/
def readIicReg (rule : Block → DWord × Block) (block : Fin 6) (lane : Fin 8) (count : Nat)
    (s : State) : Host.Outcome State Fault Refusal :=
  .next (s.readIic (Iic.readPiece rule block lane.val count))

/-- A piece write of a named register, as a meaning. -/
def writeIicReg (r : IicReg) (effect : DWord → Block → Block) (block : Fin 6) (lane : Fin 8)
    (data : List Byte) (s : State) : Host.Outcome State Fault Refusal :=
  .next (s.onIic (Iic.writePiece r effect block lane.val data))

/-! ### Meanings -/

/-- WHOAMI, read of one piece (R267). -/
def execWhoamiRead (block : Fin 6) (lane : Fin 8) (count : Nat) (s : State) :
    Host.Outcome State Fault Refusal :=
  readIicReg Block.whoamiRule block lane count s

/-- WHOAMI, write of one piece (R267). -/
def execWhoamiWrite (block : Fin 6) (lane : Fin 8) (data : List Byte) (s : State) :
    Host.Outcome State Fault Refusal :=
  writeIicReg .whoami Block.whoamiEffect block lane data s

/-- CURRENT_TSK_PRI, read of one piece (R268). -/
def execCurrentTskPriRead (block : Fin 6) (lane : Fin 8) (count : Nat) (s : State) :
    Host.Outcome State Fault Refusal :=
  readIicReg Block.currentTskPriRule block lane count s

/-- CURRENT_TSK_PRI, write of one piece (R268). -/
def execCurrentTskPriWrite (block : Fin 6) (lane : Fin 8) (data : List Byte) (s : State) :
    Host.Outcome State Fault Refusal :=
  writeIicReg .currentTskPri Block.currentTskPriEffect block lane data s

/-- IPI_DISPATCH_0, read of one piece (R269). -/
def execIpiDispatch0Read (block : Fin 6) (lane : Fin 8) (count : Nat) (s : State) :
    Host.Outcome State Fault Refusal :=
  readIicReg Block.ipiDispatch0Rule block lane count s

/-- IPI_DISPATCH_0, write of one piece (R269). -/
def execIpiDispatch0Write (block : Fin 6) (lane : Fin 8) (data : List Byte) (s : State) :
    Host.Outcome State Fault Refusal :=
  writeIicReg .ipiDispatch0 Block.ipiDispatch0Effect block lane data s

/-- ACK, read of one piece (R270). -/
def execAckRead (block : Fin 6) (lane : Fin 8) (count : Nat) (s : State) :
    Host.Outcome State Fault Refusal :=
  readIicReg Block.ackRule block lane count s

/-- ACK, write of one piece (R271). -/
def execAckWrite (block : Fin 6) (lane : Fin 8) (data : List Byte) (s : State) :
    Host.Outcome State Fault Refusal :=
  writeIicReg .ack Block.ackEffect block lane data s

/-- ACK_SET_CPU_CURRENT_TSK_PRI, read of one piece (R272). -/
def execAckSetPriRead (block : Fin 6) (lane : Fin 8) (count : Nat) (s : State) :
    Host.Outcome State Fault Refusal :=
  readIicReg Block.ackSetPriRule block lane count s

/-- ACK_SET_CPU_CURRENT_TSK_PRI, write of one piece (R272). -/
def execAckSetPriWrite (block : Fin 6) (lane : Fin 8) (data : List Byte) (s : State) :
    Host.Outcome State Fault Refusal :=
  writeIicReg .ackSetPri Block.ackSetPriEffect block lane data s

/-- EOI, read of one piece (R274). -/
def execEoiRead (block : Fin 6) (lane : Fin 8) (count : Nat) (s : State) :
    Host.Outcome State Fault Refusal :=
  readIicReg Block.eoiRule block lane count s

/-- EOI, write of one piece (R273). -/
def execEoiWrite (block : Fin 6) (lane : Fin 8) (data : List Byte) (s : State) :
    Host.Outcome State Fault Refusal :=
  writeIicReg .eoi Block.eoiEffect block lane data s

/-- EOI_SET_CPU_CURRENT_TSK_PRI, read of one piece (R276). -/
def execEoiSetPriRead (block : Fin 6) (lane : Fin 8) (count : Nat) (s : State) :
    Host.Outcome State Fault Refusal :=
  readIicReg Block.eoiSetPriRule block lane count s

/-- EOI_SET_CPU_CURRENT_TSK_PRI, write of one piece (R275). -/
def execEoiSetPriWrite (block : Fin 6) (lane : Fin 8) (data : List Byte) (s : State) :
    Host.Outcome State Fault Refusal :=
  writeIicReg .eoiSetPri Block.eoiSetPriEffect block lane data s

/-- INT_MCACK, read of one piece (R277). -/
def execMcackRead (block : Fin 6) (lane : Fin 8) (count : Nat) (s : State) :
    Host.Outcome State Fault Refusal :=
  readIicReg Block.mcackRule block lane count s

/-- INT_MCACK, write of one piece (R277). -/
def execMcackWrite (block : Fin 6) (lane : Fin 8) (data : List Byte) (s : State) :
    Host.Outcome State Fault Refusal :=
  writeIicReg .mcack Block.mcackEffect block lane data s

/-- IIC_UNNAMED, read of one piece (R264): whatever the block, slot and lane. -/
def execIicUnnamedRead (_block : Fin 6) (_slot : Fin 512) (_lane : Fin 8) (count : Nat) (s : State) :
    Host.Outcome State Fault Refusal :=
  .next (s.readIic (Iic.unnamedRead count))

/-- IIC_UNNAMED, write of one piece (R264): whatever the block, slot and lane. -/
def execIicUnnamedWrite (_block : Fin 6) (_slot : Fin 512) (_lane : Fin 8) (data : List Byte)
    (s : State) : Host.Outcome State Fault Refusal :=
  .next (s.onIic (Iic.unnamedWrite data))

end Sys2Proof.Machine
end

