-- ==== Sys2Proof/Machine/IicBus.lean ====
section
/-! DEFINITION. The two operations of the IIC register port (spec/44_iic_register_access.md R260 to
R264). Each is one atomic step (R84). -/

namespace Sys2Proof.Machine

/-- The block offset of a slot base: `a mod IIC_BLOCK_STRIDE` (R260). -/
def blockOffset (a : Nat) : Nat := a % Params.iicStride

/-- One piece of a readInterrupt (R262): the block is selected by the address alone (R260). -/
def Iic.busReadPiece (p : Piece) (i : Iic) : List Byte × Iic :=
  match IicReg.ofOffset (blockOffset p.base) with
  | some r => i.readPiece (Block.rule r) (iicBlock p.base) p.lane p.count
  | none => i.unnamedRead p.count

/-- One piece of a writeInterrupt (R263). -/
def Iic.busWritePiece (p : Piece) (d : List Byte) (i : Iic) : Iic :=
  match IicReg.ofOffset (blockOffset p.base) with
  | some r => i.writePiece r (Block.effect r) (iicBlock p.base) p.lane d
  | none => i.unnamedWrite d

/-- The pieces of a readInterrupt, in ascending address order (R261). -/
def Iic.readPieces : List Piece → Iic → List Byte × Iic
  | [], i => ([], i)
  | p :: ps, i =>
    ((i.busReadPiece p).1 ++ (Iic.readPieces ps (i.busReadPiece p).2).1,
      (Iic.readPieces ps (i.busReadPiece p).2).2)

/-- The pieces of a writeInterrupt, each with the bytes that fall on it (R261). -/
def Iic.writePieces : List Piece → List Byte → Iic → Iic
  | [], _, i => i
  | p :: ps, data, i =>
    Iic.writePieces ps (data.drop p.count) (i.busWritePiece p (data.take p.count))

/-- `readInterrupt(addr, len)` (R262). -/
def Iic.busRead (addr len : Nat) (i : Iic) : List Byte × Iic :=
  let n := clamp addr len Params.iicSize
  ((Iic.readPieces (pieces 8 addr n) i).1 ++ List.replicate (len - n) Params.oorReadByte,
    (Iic.readPieces (pieces 8 addr n) i).2)

/-- `writeInterrupt(addr, data, len)` (R263). -/
def Iic.busWrite (addr : Nat) (data : List Byte) (i : Iic) : Iic :=
  let n := clamp addr data.length Params.iicSize
  Iic.writePieces (pieces 8 addr n) (data.take n) i

/-! ### Meanings -/

/-- readInterrupt (R262). -/
def execReadInterrupt (addr len : Nat) (s : State) : Host.Outcome State Fault Refusal :=
  .next (s.readIic (Iic.busRead addr len))

/-- writeInterrupt (R263). -/
def execWriteInterrupt (addr : Nat) (data : List Byte) (s : State) :
    Host.Outcome State Fault Refusal :=
  .next (s.onIic (Iic.busWrite addr data))

end Sys2Proof.Machine
end

