-- ==== Sys2Proof/Machine/IicReq.lean ====
section
/-! DEFINITION. The three operations of the IIC request port (spec/45_iic_requests.md R300 to R305).
Each is one atomic step even where it selects several cores (R84). -/

namespace Sys2Proof.Machine

/-- The selected cores one after the other: "for c in 0..5, ascending: if coreMask bit c = 1" (R300,
R302). -/
def Iic.forCores (coreMask : Nat) (act : Iic → Fin 6 → Iic) (i : Iic) : Iic :=
  (cores.filter (coreSelected coreMask)).foldl act i

/-- `genInterrupt(type, coreMask)` (R300). -/
def Iic.gen (type : Byte) (coreMask : Nat) (i : Iic) : Iic := i.forCores coreMask (Iic.post type)

/-- `cancelInterrupt(type, coreMask)` (R302). -/
def Iic.cancel (type : Byte) (coreMask : Nat) (i : Iic) : Iic :=
  i.forCores coreMask (Iic.withdraw type)

/-- `checkExtInterrupt(coreID)` (R303): false for a core the controller does not have. -/
def Iic.check (coreID : Nat) (i : Iic) : Bool :=
  if h : coreID < 6 then (i.block ⟨coreID, h⟩).line else false

/-! ### Meanings -/

/-- genInterrupt (R300). -/
def execGenInterrupt (type : Byte) (coreMask : Nat) (s : State) :
    Host.Outcome State Fault Refusal :=
  .next (s.onIic (Iic.gen type coreMask))

/-- cancelInterrupt (R302). -/
def execCancelInterrupt (type : Byte) (coreMask : Nat) (s : State) :
    Host.Outcome State Fault Refusal :=
  .next (s.onIic (Iic.cancel type coreMask))

/-- checkExtInterrupt (R303): "No state changes". -/
def execCheckExtInterrupt (coreID : Nat) (s : State) : Host.Outcome State Fault Refusal :=
  .next { s with result := .flag (s.iic.check coreID) }

end Sys2Proof.Machine
end

