-- ==== Sys2Proof/Machine/Commands.lean ====
section
/-! DEFINITION. The FIFO commands (spec/42_fifo_commands.md R198 to R222): one definition for the effect
of each on the SMC, and one meaning for each row of format fifo_frame. A frame's meaning is "the rule
of X with frame F", the last line of the dispatch R196; the cursor reset of the dispatch itself is in
Fifo.lean. -/

namespace Sys2Proof.Machine

/-! ### Shapes of commands -/

/-- A response whose byte 0 is the command code, byte 1 the answer, the rest 0x00 (R110). -/
def answer (code a : Byte) : Frame :=
  frameOf code (#v[a] ++ (Vector.replicate 14 0 : Vector Byte 14) : Vector Byte (1 + 14))

/-- `respond([F[0]] ++ RESP_PAYLOAD(cmd, F, S))` (R200 and the rules like it): the payload is a free
draw (U7, log entry 5). -/
def Smc.respondFree (c : Cmd) (f : Frame) (s : Smc) : Smc :=
  { s with
    respq := s.respq ++ [frameOf f[0] (Config.respPayload s.draws c f s)]
    draws := s.draws + 1 }

/-- A set command whose setting CoreState has no field for: "accepted and has no effect on specified
state" (R210, R222; the spec's decision D17). -/
def Smc.accept (_f : Frame) (s : Smc) : Smc := s

/-- A row's meaning: the command's effect on the SMC with frame F = code and args; nothing is handed
back to a caller. -/
def runFrame (effect : Frame → Smc → Smc) (code : Byte) (args : Args) (s : State) :
    Host.Outcome State Fault Refusal :=
  .next (s.onSmc (effect (frameOf code args)))

/-! ### Effects -/

/-- PWRON_TYPE (R199): `respond([F[0], S.pwr] ++ zeros(14))`. -/
def Smc.pwronType (f : Frame) (s : Smc) : Smc := s.respond (answer f[0] s.pwr)

/-- QUERY_RTC (R200): `respond([F[0]] ++ RESP_PAYLOAD(QUERY_RTC, F, S))`. -/
def Smc.queryRtc (f : Frame) (s : Smc) : Smc := s.respondFree .queryRtc f

/-- QUERY_TEMP (R201): `respond([F[0]] ++ RESP_PAYLOAD(QUERY_TEMP, F, S))`. -/
def Smc.queryTemp (f : Frame) (s : Smc) : Smc := s.respondFree .queryTemp f

/-- QUERY_TRAY (R202): `respond([F[0], traycode(S.tray)] ++ zeros(14))`. -/
def Smc.queryTray (f : Frame) (s : Smc) : Smc := s.respond (answer f[0] s.tray.code)

/-- QUERY_AVPACK (R203): `respond([F[0], S.avpack] ++ zeros(14))`. -/
def Smc.queryAvpack (f : Frame) (s : Smc) : Smc := s.respond (answer f[0] s.avpack)

/-- I2C_PASSTHROUGH (R204): `respond([F[0]] ++ RESP_PAYLOAD(I2C_PASSTHROUGH, F, S))`. -/
def Smc.i2cPassthrough (f : Frame) (s : Smc) : Smc := s.respondFree .i2cPassthrough f

/-- QUERY_VERSION (R205): `respond([F[0]] ++ RESP_PAYLOAD(QUERY_VERSION, F, S))`. -/
def Smc.queryVersion (f : Frame) (s : Smc) : Smc := s.respondFree .queryVersion f

/-- FIFO_TEST (R206): `respond(SELFTEST_PATTERN)`, whatever the frame. -/
def Smc.fifoTest (_f : Frame) (s : Smc) : Smc := s.respond Config.selfTestPattern

/-- QUERY_IR_ADDR (R207): `respond([F[0]] ++ RESP_PAYLOAD(QUERY_IR_ADDR, F, S))`. -/
def Smc.queryIrAddr (f : Frame) (s : Smc) : Smc := s.respondFree .queryIrAddr f

/-- QUERY_TILT (R208): `respond([F[0]] ++ RESP_PAYLOAD(QUERY_TILT, F, S))`. -/
def Smc.queryTilt (f : Frame) (s : Smc) : Smc := s.respondFree .queryTilt f

/-- QUERY_INT_ACK[0] (R209): `respond([F[0]] ++ RESP_PAYLOAD(QUERY_INT_ACK[0], F, S))`. -/
def Smc.queryIntAck0 (f : Frame) (s : Smc) : Smc := s.respondFree .queryIntAck0 f

/-- QUERY_INT_ACK[1] (R209): `respond([F[0]] ++ RESP_PAYLOAD(QUERY_INT_ACK[1], F, S))`. -/
def Smc.queryIntAck1 (f : Frame) (s : Smc) : Smc := s.respondFree .queryIntAck1 f

/-- SET_STANDBY (R210): "Pseudocode: nothing"; no response. -/
def Smc.setStandby (f : Frame) (s : Smc) : Smc := s.accept f

/-- SET_TIME (R211): "Pseudocode: nothing"; no response. -/
def Smc.setTime (f : Frame) (s : Smc) : Smc := s.accept f

/-- SET_FAN_ALGORITHM (R212): "Pseudocode: nothing"; no response. -/
def Smc.setFanAlgorithm (f : Frame) (s : Smc) : Smc := s.accept f

/-- SET_FAN_SPEED[0] (R213): "Pseudocode: nothing"; no response. -/
def Smc.setFanSpeed0 (f : Frame) (s : Smc) : Smc := s.accept f

/-- SET_FAN_SPEED[1] (R213): "Pseudocode: nothing"; no response. -/
def Smc.setFanSpeed1 (f : Frame) (s : Smc) : Smc := s.accept f

/-- The tray after a request with argument `arg` (R214; the spec's decision D18, log entry 19). -/
def trayRequest (arg : Byte) (t : Tray) : Tray :=
  if arg = Params.traySetOpenArg then
    match t with
    | .closed => .openRequest
    | .opened => .opened
    | .openRequest => .openRequest
    | .opening => .opening
    | .closing => .closing
    | .unknown => .unknown
    | .spinup => .spinup
  else if arg = Params.traySetCloseArg then
    match t with
    | .opened => .closing
    | .openRequest => .closed
    | .closed => .closed
    | .opening => .opening
    | .closing => .closing
    | .unknown => .unknown
    | .spinup => .spinup
  else t

/-- SET_DVD_TRAY (R214): `arg0 = F[1]` requests the tray to open or close; no response. -/
def Smc.setDvdTray (f : Frame) (s : Smc) : Smc := { s with tray := trayRequest f[1] s.tray }

/-- SET_POWER_LED (R215): "Pseudocode: nothing"; no response. -/
def Smc.setPowerLed (f : Frame) (s : Smc) : Smc := s.accept f

/-- SET_AUDIO_MUTE (R216): "Pseudocode: nothing"; no response. -/
def Smc.setAudioMute (f : Frame) (s : Smc) : Smc := s.accept f

/-- SET_IR_ADDR (R217): "Pseudocode: nothing"; no response. -/
def Smc.setIrAddr (f : Frame) (s : Smc) : Smc := s.accept f

/-- SET_RTC_WAKE (R218): "Pseudocode: nothing"; no response. -/
def Smc.setRtcWake (f : Frame) (s : Smc) : Smc := s.accept f

/-- SET_ASYNC_OP (R219): "Pseudocode: nothing"; no response. -/
def Smc.setAsyncOp (f : Frame) (s : Smc) : Smc := s.accept f

/-- SET_INT_ENABLE[0] (R220): "Pseudocode: nothing"; no response. -/
def Smc.setIntEnable0 (f : Frame) (s : Smc) : Smc := s.accept f

/-- SET_INT_ENABLE[1] (R220): "Pseudocode: nothing"; no response. -/
def Smc.setIntEnable1 (f : Frame) (s : Smc) : Smc := s.accept f

/-- UNKNOWN_COMMAND (R198): "no state change, no response, no failure signaled to the caller". -/
def Smc.unknownCommand (f : Frame) (s : Smc) : Smc := s.accept f

/-- "run the rule of X with frame F" (R196). -/
def Smc.runCommand (c : Cmd) (f : Frame) (s : Smc) : Smc :=
  match c with
  | .pwronType => s.pwronType f
  | .queryRtc => s.queryRtc f
  | .queryTemp => s.queryTemp f
  | .queryTray => s.queryTray f
  | .queryAvpack => s.queryAvpack f
  | .i2cPassthrough => s.i2cPassthrough f
  | .queryVersion => s.queryVersion f
  | .fifoTest => s.fifoTest f
  | .queryIrAddr => s.queryIrAddr f
  | .queryTilt => s.queryTilt f
  | .queryIntAck0 => s.queryIntAck0 f
  | .queryIntAck1 => s.queryIntAck1 f
  | .setStandby => s.setStandby f
  | .setTime => s.setTime f
  | .setFanAlgorithm => s.setFanAlgorithm f
  | .setFanSpeed0 => s.setFanSpeed0 f
  | .setFanSpeed1 => s.setFanSpeed1 f
  | .setDvdTray => s.setDvdTray f
  | .setPowerLed => s.setPowerLed f
  | .setAudioMute => s.setAudioMute f
  | .setIrAddr => s.setIrAddr f
  | .setRtcWake => s.setRtcWake f
  | .setAsyncOp => s.setAsyncOp f
  | .setIntEnable0 => s.setIntEnable0 f
  | .setIntEnable1 => s.setIntEnable1 f

/-! ### Meanings -/

/-- PWRON_TYPE (R199). -/
def execPwronType (args : Args) (s : State) : Host.Outcome State Fault Refusal :=
  runFrame (fun f d => d.pwronType f) Cmd.pwronType.code args s

/-- QUERY_RTC (R200). -/
def execQueryRtc (args : Args) (s : State) : Host.Outcome State Fault Refusal :=
  runFrame (fun f d => d.queryRtc f) Cmd.queryRtc.code args s

/-- QUERY_TEMP (R201). -/
def execQueryTemp (args : Args) (s : State) : Host.Outcome State Fault Refusal :=
  runFrame (fun f d => d.queryTemp f) Cmd.queryTemp.code args s

/-- QUERY_TRAY (R202). -/
def execQueryTray (args : Args) (s : State) : Host.Outcome State Fault Refusal :=
  runFrame (fun f d => d.queryTray f) Cmd.queryTray.code args s

/-- QUERY_AVPACK (R203). -/
def execQueryAvpack (args : Args) (s : State) : Host.Outcome State Fault Refusal :=
  runFrame (fun f d => d.queryAvpack f) Cmd.queryAvpack.code args s

/-- I2C_PASSTHROUGH (R204). -/
def execI2cPassthrough (args : Args) (s : State) : Host.Outcome State Fault Refusal :=
  runFrame (fun f d => d.i2cPassthrough f) Cmd.i2cPassthrough.code args s

/-- QUERY_VERSION (R205). -/
def execQueryVersion (args : Args) (s : State) : Host.Outcome State Fault Refusal :=
  runFrame (fun f d => d.queryVersion f) Cmd.queryVersion.code args s

/-- FIFO_TEST (R206). -/
def execFifoTest (args : Args) (s : State) : Host.Outcome State Fault Refusal :=
  runFrame (fun f d => d.fifoTest f) Cmd.fifoTest.code args s

/-- QUERY_IR_ADDR (R207). -/
def execQueryIrAddr (args : Args) (s : State) : Host.Outcome State Fault Refusal :=
  runFrame (fun f d => d.queryIrAddr f) Cmd.queryIrAddr.code args s

/-- QUERY_TILT (R208). -/
def execQueryTilt (args : Args) (s : State) : Host.Outcome State Fault Refusal :=
  runFrame (fun f d => d.queryTilt f) Cmd.queryTilt.code args s

/-- QUERY_INT_ACK[0] (R209). -/
def execQueryIntAck0 (args : Args) (s : State) : Host.Outcome State Fault Refusal :=
  runFrame (fun f d => d.queryIntAck0 f) Cmd.queryIntAck0.code args s

/-- QUERY_INT_ACK[1] (R209). -/
def execQueryIntAck1 (args : Args) (s : State) : Host.Outcome State Fault Refusal :=
  runFrame (fun f d => d.queryIntAck1 f) Cmd.queryIntAck1.code args s

/-- SET_STANDBY (R210). -/
def execSetStandby (args : Args) (s : State) : Host.Outcome State Fault Refusal :=
  runFrame (fun f d => d.setStandby f) Cmd.setStandby.code args s

/-- SET_TIME (R211). -/
def execSetTime (args : Args) (s : State) : Host.Outcome State Fault Refusal :=
  runFrame (fun f d => d.setTime f) Cmd.setTime.code args s

/-- SET_FAN_ALGORITHM (R212). -/
def execSetFanAlgorithm (args : Args) (s : State) : Host.Outcome State Fault Refusal :=
  runFrame (fun f d => d.setFanAlgorithm f) Cmd.setFanAlgorithm.code args s

/-- SET_FAN_SPEED[0] (R213). -/
def execSetFanSpeed0 (args : Args) (s : State) : Host.Outcome State Fault Refusal :=
  runFrame (fun f d => d.setFanSpeed0 f) Cmd.setFanSpeed0.code args s

/-- SET_FAN_SPEED[1] (R213). -/
def execSetFanSpeed1 (args : Args) (s : State) : Host.Outcome State Fault Refusal :=
  runFrame (fun f d => d.setFanSpeed1 f) Cmd.setFanSpeed1.code args s

/-- SET_DVD_TRAY (R214). -/
def execSetDvdTray (args : Args) (s : State) : Host.Outcome State Fault Refusal :=
  runFrame (fun f d => d.setDvdTray f) Cmd.setDvdTray.code args s

/-- SET_POWER_LED (R215). -/
def execSetPowerLed (args : Args) (s : State) : Host.Outcome State Fault Refusal :=
  runFrame (fun f d => d.setPowerLed f) Cmd.setPowerLed.code args s

/-- SET_AUDIO_MUTE (R216). -/
def execSetAudioMute (args : Args) (s : State) : Host.Outcome State Fault Refusal :=
  runFrame (fun f d => d.setAudioMute f) Cmd.setAudioMute.code args s

/-- SET_IR_ADDR (R217). -/
def execSetIrAddr (args : Args) (s : State) : Host.Outcome State Fault Refusal :=
  runFrame (fun f d => d.setIrAddr f) Cmd.setIrAddr.code args s

/-- SET_RTC_WAKE (R218). -/
def execSetRtcWake (args : Args) (s : State) : Host.Outcome State Fault Refusal :=
  runFrame (fun f d => d.setRtcWake f) Cmd.setRtcWake.code args s

/-- SET_ASYNC_OP (R219). -/
def execSetAsyncOp (args : Args) (s : State) : Host.Outcome State Fault Refusal :=
  runFrame (fun f d => d.setAsyncOp f) Cmd.setAsyncOp.code args s

/-- SET_INT_ENABLE[0] (R220). -/
def execSetIntEnable0 (args : Args) (s : State) : Host.Outcome State Fault Refusal :=
  runFrame (fun f d => d.setIntEnable0 f) Cmd.setIntEnable0.code args s

/-- SET_INT_ENABLE[1] (R220). -/
def execSetIntEnable1 (args : Args) (s : State) : Host.Outcome State Fault Refusal :=
  runFrame (fun f d => d.setIntEnable1 f) Cmd.setIntEnable1.code args s

/-- UNKNOWN_COMMAND (R198). -/
def execUnknownCommand (code : Byte) (args : Args) (s : State) : Host.Outcome State Fault Refusal :=
  runFrame (fun f d => d.unknownCommand f) code args s

end Sys2Proof.Machine
end

