-- ==== Sys2Proof/Machine/Fifo.lean ====
section
/-! DEFINITION. The 16-byte FIFO accumulator (spec/42_fifo_commands.md R190 to R196): appending a byte,
dispatching a frame, flushing a partial one. -/

namespace Sys2Proof.Machine

/-- The frame buffer after a dispatch: left as it is, or zeroed where FIFO_CLEAR_ON_DISPATCH (R194). -/
def afterDispatch (clear : Bool) (f : Frame) : Frame := if clear then Vector.replicate 16 0 else f

/-- `fifo_dispatch()` (R196), for either value of FIFO_CLEAR_ON_DISPATCH: the cursor returns to 0 and
the command of byte 0 runs with the whole frame; a code outside CMD does nothing (R198). -/
def Smc.dispatchWith (clear : Bool) (s : Smc) : Smc :=
  let f := s.fifo
  let s' := { s with cur := 0, fifo := afterDispatch clear f }
  match Cmd.ofCode f[0] with
  | some c => s'.runCommand c f
  | none => s'.unknownCommand f

/-- `fifo_dispatch()` with the spec's value of FIFO_CLEAR_ON_DISPATCH (R196). -/
def Smc.fifoDispatch (s : Smc) : Smc := s.dispatchWith Params.fifoClearOnDispatch

/-- The first two lines of `fifo_append(b)`: the byte placed at the cursor, the cursor moved on (R190). -/
def Smc.place (s : Smc) (b : Byte) : Smc :=
  { s with fifo := s.fifo.setIfInBounds s.cur b, cur := s.cur + 1 }

/-- `fifo_append(b)` (R190): "reaching 16 triggers exactly one dispatch, after which cursor resets to 0". -/
def Smc.fifoAppend (s : Smc) (b : Byte) : Smc :=
  if (s.place b).cur = 16 then (s.place b).fifoDispatch else s.place b

/-- Append bytes in the order given (R76, R162). -/
def Smc.appendAll : Smc → List Byte → Smc
  | s, [] => s
  | s, b :: bs => Smc.appendAll (s.fifoAppend b) bs

/-- `fifo_flush()` (R192): with the cursor at 0 "nothing has been accumulated and the flush does
nothing". -/
def Smc.fifoFlush (s : Smc) : Smc := if s.cur = 0 then s else s.fifoDispatch

end Sys2Proof.Machine
end

