-- ==== Sys2Proof/Machine/SmcRegs.lean ====
section
/-! DEFINITION. The 14 named SMC registers (spec/41_smc_named_registers.md R150 to R169) and
passthrough storage (R137, R138): a read rule and a write effect for each, and one meaning for each row
of formats smc_slot_read and smc_slot_write. A read rule yields one 32-bit word "and may change state,
once per piece" (R140); a write effect is applied once, with the merged word of the slot, after the
piece's bytes are stored (R139). -/

namespace Sys2Proof.Machine

/-! ### Shapes of rules -/

/-- "Stored value" means `r = wslot(s)` with no state change (R150). -/
def Smc.stored (r : SmcReg) (s : Smc) : Word × Smc := (s.wslot r.offset, s)

/-- Write effect: "none beyond the store". -/
def Smc.noEffect (_w : Word) (_d : List Byte) (s : Smc) : Smc := s

/-- A named piece read (R140): the rule's word once, then lanes `l .. l + k - 1` of it. -/
def Smc.readPiece (rule : Smc → Word × Smc) (lane count : Nat) (s : Smc) : List Byte × Smc :=
  (lanes (wordBytes (rule s).1) lane count, (rule s).2)

/-- A named piece write (R139): store, then the effect with the merged word and the piece's bytes. -/
def Smc.writePiece (base : Nat) (effect : Word → List Byte → Smc → Smc) (lane : Nat)
    (d : List Byte) (s : Smc) : Smc :=
  effect ((s.store (base + lane) d).wslot base) d (s.store (base + lane) d)

/-- A storage piece read (R138). -/
def Smc.storageRead (a count : Nat) (s : Smc) : List Byte × Smc := (Mem.readBytes s.win a count, s)

/-- A storage piece write (R137). -/
def Smc.storageWrite (a : Nat) (d : List Byte) (s : Smc) : Smc := s.store a d

/-! ### Read rules and write effects -/

/-- BUS_CONTROL, read rule (R151): stored value. -/
def Smc.busControlRule (s : Smc) : Word × Smc := s.stored .busControl

/-- BUS_CONTROL, write effect (R151): none beyond the store. -/
def Smc.busControlEffect (w : Word) (d : List Byte) (s : Smc) : Smc := s.noEffect w d

/-- UART_IN, read rule (R152): stored value. -/
def Smc.uartInRule (s : Smc) : Word × Smc := s.stored .uartIn

/-- UART_IN, write effect (R152): none beyond the store. -/
def Smc.uartInEffect (w : Word) (d : List Byte) (s : Smc) : Smc := s.noEffect w d

/-- UART_OUT, read rule (R153): stored value. -/
def Smc.uartOutRule (s : Smc) : Word × Smc := s.stored .uartOut

/-- UART_OUT, write effect (R153): `emit UartTx(w_new)` (the spec's decision D21, log entry 29). -/
def Smc.uartOutEffect (w : Word) (_d : List Byte) (s : Smc) : Smc := s.emit (.uartTx w)

/-- UART_STATUS, read rule (R154): stored value. -/
def Smc.uartStatusRule (s : Smc) : Word × Smc := s.stored .uartStatus

/-- UART_STATUS, write effect (R154): none beyond the store. -/
def Smc.uartStatusEffect (w : Word) (d : List Byte) (s : Smc) : Smc := s.noEffect w d

/-- UART_CONFIG, read rule (R156): stored value. -/
def Smc.uartConfigRule (s : Smc) : Word × Smc := s.stored .uartConfig

/-- UART_CONFIG, write effect (R155): `S.uartcfg <- w_new`, `emit UartReinit(w_new)` (D21, log entry 29). -/
def Smc.uartConfigEffect (w : Word) (_d : List Byte) (s : Smc) : Smc :=
  Smc.emit { s with uartcfg := w } (.uartReinit w)

/-- SMI_INT_PENDING, read rule (R157): stored value. -/
def Smc.smiIntPendingRule (s : Smc) : Word × Smc := s.stored .smiIntPending

/-- SMI_INT_PENDING, write effect (R157): none beyond the store. -/
def Smc.smiIntPendingEffect (w : Word) (d : List Byte) (s : Smc) : Smc := s.noEffect w d

/-- SMI_INT_ACK, read rule (R158): stored value. -/
def Smc.smiIntAckRule (s : Smc) : Word × Smc := s.stored .smiIntAck

/-- SMI_INT_ACK, write effect (R158): none beyond the store. -/
def Smc.smiIntAckEffect (w : Word) (d : List Byte) (s : Smc) : Smc := s.noEffect w d

/-- SMI_INT_ENABLE, read rule (R159): stored value. -/
def Smc.smiIntEnableRule (s : Smc) : Word × Smc := s.stored .smiIntEnable

/-- SMI_INT_ENABLE, write effect (R159): none beyond the store. -/
def Smc.smiIntEnableEffect (w : Word) (d : List Byte) (s : Smc) : Smc := s.noEffect w d

/-- CLOCK_INT_ENABLE, read rule (R160): stored value. -/
def Smc.clockIntEnableRule (s : Smc) : Word × Smc := s.stored .clockIntEnable

/-- CLOCK_INT_ENABLE, write effect (R160): none beyond the store. -/
def Smc.clockIntEnableEffect (w : Word) (d : List Byte) (s : Smc) : Smc := s.noEffect w d

/-- CLOCK_INT_STATUS, read rule (R161): stored value. -/
def Smc.clockIntStatusRule (s : Smc) : Word × Smc := s.stored .clockIntStatus

/-- CLOCK_INT_STATUS, write effect (R161): none beyond the store. -/
def Smc.clockIntStatusEffect (w : Word) (d : List Byte) (s : Smc) : Smc := s.noEffect w d

/-- FIFO_IN_MSG, read rule (R163): stored value. -/
def Smc.fifoInMsgRule (s : Smc) : Word × Smc := s.stored .fifoInMsg

/-- FIFO_IN_MSG, write effect (R162): append the piece's bytes, "not the whole merged word". -/
def Smc.fifoInMsgEffect (_w : Word) (d : List Byte) (s : Smc) : Smc := s.appendAll d

/-- FIFO_IN_STATUS, read rule (R165): stored value. -/
def Smc.fifoInStatusRule (s : Smc) : Word × Smc := s.stored .fifoInStatus

/-- FIFO_IN_STATUS, write effect (R164): with the ready bit set in the merged word, flush. -/
def Smc.fifoInStatusEffect (w : Word) (_d : List Byte) (s : Smc) : Smc :=
  if inReady w then s.fifoFlush else s

/-- FIFO_OUT_MSG, read rule (R166): the next word of the head response, consumed. -/
def Smc.fifoOutMsgRule (s : Smc) : Word × Smc := s.takeWord Params.fifoOutDrained

/-- FIFO_OUT_MSG, write effect (R167): none beyond the store. -/
def Smc.fifoOutMsgEffect (w : Word) (d : List Byte) (s : Smc) : Smc := s.noEffect w d

/-- FIFO_OUT_STATUS, read rule (R168): "a status read does not drain". -/
def Smc.fifoOutStatusRule (s : Smc) : Word × Smc := (s.outStatus, s)

/-- FIFO_OUT_STATUS, write effect (R169): none beyond the store. -/
def Smc.fifoOutStatusEffect (w : Word) (d : List Byte) (s : Smc) : Smc := s.noEffect w d

/-- The read rule of a named register (R140). -/
def Smc.rule (r : SmcReg) (s : Smc) : Word × Smc :=
  match r with
  | .busControl => s.busControlRule
  | .uartIn => s.uartInRule
  | .uartOut => s.uartOutRule
  | .uartStatus => s.uartStatusRule
  | .uartConfig => s.uartConfigRule
  | .smiIntPending => s.smiIntPendingRule
  | .smiIntAck => s.smiIntAckRule
  | .smiIntEnable => s.smiIntEnableRule
  | .clockIntEnable => s.clockIntEnableRule
  | .clockIntStatus => s.clockIntStatusRule
  | .fifoInMsg => s.fifoInMsgRule
  | .fifoInStatus => s.fifoInStatusRule
  | .fifoOutMsg => s.fifoOutMsgRule
  | .fifoOutStatus => s.fifoOutStatusRule

/-- The write effect of a named register (R139). -/
def Smc.effect (r : SmcReg) (w : Word) (d : List Byte) (s : Smc) : Smc :=
  match r with
  | .busControl => s.busControlEffect w d
  | .uartIn => s.uartInEffect w d
  | .uartOut => s.uartOutEffect w d
  | .uartStatus => s.uartStatusEffect w d
  | .uartConfig => s.uartConfigEffect w d
  | .smiIntPending => s.smiIntPendingEffect w d
  | .smiIntAck => s.smiIntAckEffect w d
  | .smiIntEnable => s.smiIntEnableEffect w d
  | .clockIntEnable => s.clockIntEnableEffect w d
  | .clockIntStatus => s.clockIntStatusEffect w d
  | .fifoInMsg => s.fifoInMsgEffect w d
  | .fifoInStatus => s.fifoInStatusEffect w d
  | .fifoOutMsg => s.fifoOutMsgEffect w d
  | .fifoOutStatus => s.fifoOutStatusEffect w d

/-- A piece read of a named register, as a meaning. -/
def readReg (rule : Smc → Word × Smc) (lane : Fin 4) (count : Nat) (s : State) :
    Host.Outcome State Fault Refusal :=
  .next (s.readSmc (Smc.readPiece rule lane.val count))

/-- A piece write of a named register, as a meaning. -/
def writeReg (r : SmcReg) (effect : Word → List Byte → Smc → Smc) (lane : Fin 4) (data : List Byte)
    (s : State) : Host.Outcome State Fault Refusal :=
  .next (s.onSmc (Smc.writePiece r.offset effect lane.val data))

/-! ### Meanings -/

/-- BUS_CONTROL, read of one piece (R151). -/
def execBusControlRead (lane : Fin 4) (count : Nat) (s : State) : Host.Outcome State Fault Refusal :=
  readReg Smc.busControlRule lane count s

/-- BUS_CONTROL, write of one piece (R151). -/
def execBusControlWrite (lane : Fin 4) (data : List Byte) (s : State) :
    Host.Outcome State Fault Refusal :=
  writeReg .busControl Smc.busControlEffect lane data s

/-- UART_IN, read of one piece (R152). -/
def execUartInRead (lane : Fin 4) (count : Nat) (s : State) : Host.Outcome State Fault Refusal :=
  readReg Smc.uartInRule lane count s

/-- UART_IN, write of one piece (R152). -/
def execUartInWrite (lane : Fin 4) (data : List Byte) (s : State) :
    Host.Outcome State Fault Refusal :=
  writeReg .uartIn Smc.uartInEffect lane data s

/-- UART_OUT, read of one piece (R153). -/
def execUartOutRead (lane : Fin 4) (count : Nat) (s : State) : Host.Outcome State Fault Refusal :=
  readReg Smc.uartOutRule lane count s

/-- UART_OUT, write of one piece (R153). -/
def execUartOutWrite (lane : Fin 4) (data : List Byte) (s : State) :
    Host.Outcome State Fault Refusal :=
  writeReg .uartOut Smc.uartOutEffect lane data s

/-- UART_STATUS, read of one piece (R154). -/
def execUartStatusRead (lane : Fin 4) (count : Nat) (s : State) : Host.Outcome State Fault Refusal :=
  readReg Smc.uartStatusRule lane count s

/-- UART_STATUS, write of one piece (R154). -/
def execUartStatusWrite (lane : Fin 4) (data : List Byte) (s : State) :
    Host.Outcome State Fault Refusal :=
  writeReg .uartStatus Smc.uartStatusEffect lane data s

/-- UART_CONFIG, read of one piece (R156). -/
def execUartConfigRead (lane : Fin 4) (count : Nat) (s : State) : Host.Outcome State Fault Refusal :=
  readReg Smc.uartConfigRule lane count s

/-- UART_CONFIG, write of one piece (R155). -/
def execUartConfigWrite (lane : Fin 4) (data : List Byte) (s : State) :
    Host.Outcome State Fault Refusal :=
  writeReg .uartConfig Smc.uartConfigEffect lane data s

/-- SMI_INT_PENDING, read of one piece (R157). -/
def execSmiIntPendingRead (lane : Fin 4) (count : Nat) (s : State) : Host.Outcome State Fault Refusal :=
  readReg Smc.smiIntPendingRule lane count s

/-- SMI_INT_PENDING, write of one piece (R157). -/
def execSmiIntPendingWrite (lane : Fin 4) (data : List Byte) (s : State) :
    Host.Outcome State Fault Refusal :=
  writeReg .smiIntPending Smc.smiIntPendingEffect lane data s

/-- SMI_INT_ACK, read of one piece (R158). -/
def execSmiIntAckRead (lane : Fin 4) (count : Nat) (s : State) : Host.Outcome State Fault Refusal :=
  readReg Smc.smiIntAckRule lane count s

/-- SMI_INT_ACK, write of one piece (R158). -/
def execSmiIntAckWrite (lane : Fin 4) (data : List Byte) (s : State) :
    Host.Outcome State Fault Refusal :=
  writeReg .smiIntAck Smc.smiIntAckEffect lane data s

/-- SMI_INT_ENABLE, read of one piece (R159). -/
def execSmiIntEnableRead (lane : Fin 4) (count : Nat) (s : State) : Host.Outcome State Fault Refusal :=
  readReg Smc.smiIntEnableRule lane count s

/-- SMI_INT_ENABLE, write of one piece (R159). -/
def execSmiIntEnableWrite (lane : Fin 4) (data : List Byte) (s : State) :
    Host.Outcome State Fault Refusal :=
  writeReg .smiIntEnable Smc.smiIntEnableEffect lane data s

/-- CLOCK_INT_ENABLE, read of one piece (R160). -/
def execClockIntEnableRead (lane : Fin 4) (count : Nat) (s : State) : Host.Outcome State Fault Refusal :=
  readReg Smc.clockIntEnableRule lane count s

/-- CLOCK_INT_ENABLE, write of one piece (R160). -/
def execClockIntEnableWrite (lane : Fin 4) (data : List Byte) (s : State) :
    Host.Outcome State Fault Refusal :=
  writeReg .clockIntEnable Smc.clockIntEnableEffect lane data s

/-- CLOCK_INT_STATUS, read of one piece (R161). -/
def execClockIntStatusRead (lane : Fin 4) (count : Nat) (s : State) : Host.Outcome State Fault Refusal :=
  readReg Smc.clockIntStatusRule lane count s

/-- CLOCK_INT_STATUS, write of one piece (R161). -/
def execClockIntStatusWrite (lane : Fin 4) (data : List Byte) (s : State) :
    Host.Outcome State Fault Refusal :=
  writeReg .clockIntStatus Smc.clockIntStatusEffect lane data s

/-- FIFO_IN_MSG, read of one piece (R163). -/
def execFifoInMsgRead (lane : Fin 4) (count : Nat) (s : State) : Host.Outcome State Fault Refusal :=
  readReg Smc.fifoInMsgRule lane count s

/-- FIFO_IN_MSG, write of one piece (R162). -/
def execFifoInMsgWrite (lane : Fin 4) (data : List Byte) (s : State) :
    Host.Outcome State Fault Refusal :=
  writeReg .fifoInMsg Smc.fifoInMsgEffect lane data s

/-- FIFO_IN_STATUS, read of one piece (R165). -/
def execFifoInStatusRead (lane : Fin 4) (count : Nat) (s : State) : Host.Outcome State Fault Refusal :=
  readReg Smc.fifoInStatusRule lane count s

/-- FIFO_IN_STATUS, write of one piece (R164). -/
def execFifoInStatusWrite (lane : Fin 4) (data : List Byte) (s : State) :
    Host.Outcome State Fault Refusal :=
  writeReg .fifoInStatus Smc.fifoInStatusEffect lane data s

/-- FIFO_OUT_MSG, read of one piece (R166). -/
def execFifoOutMsgRead (lane : Fin 4) (count : Nat) (s : State) : Host.Outcome State Fault Refusal :=
  readReg Smc.fifoOutMsgRule lane count s

/-- FIFO_OUT_MSG, write of one piece (R167). -/
def execFifoOutMsgWrite (lane : Fin 4) (data : List Byte) (s : State) :
    Host.Outcome State Fault Refusal :=
  writeReg .fifoOutMsg Smc.fifoOutMsgEffect lane data s

/-- FIFO_OUT_STATUS, read of one piece (R168). -/
def execFifoOutStatusRead (lane : Fin 4) (count : Nat) (s : State) : Host.Outcome State Fault Refusal :=
  readReg Smc.fifoOutStatusRule lane count s

/-- FIFO_OUT_STATUS, write of one piece (R169). -/
def execFifoOutStatusWrite (lane : Fin 4) (data : List Byte) (s : State) :
    Host.Outcome State Fault Refusal :=
  writeReg .fifoOutStatus Smc.fifoOutStatusEffect lane data s

/-- SMC_STORAGE, read of one piece (R138). -/
def execSmcStorageRead (slot : Fin 64) (lane : Fin 4) (count : Nat) (s : State) :
    Host.Outcome State Fault Refusal :=
  .next (s.readSmc (Smc.storageRead (4 * slot.val + lane.val) count))

/-- SMC_STORAGE, write of one piece (R137). -/
def execSmcStorageWrite (slot : Fin 64) (lane : Fin 4) (data : List Byte) (s : State) :
    Host.Outcome State Fault Refusal :=
  .next (s.onSmc (Smc.storageWrite (4 * slot.val + lane.val) data))

end Sys2Proof.Machine
end

