-- ==== Sys2Proof/Machine/SmcBus.lean ====
section
/-! DEFINITION. The five operations of the SMC bus port (spec/40_smc_bus_operations.md R130 to R142).
Each is one atomic step however many slots it spans (R84). -/

namespace Sys2Proof.Machine

/-- One piece of a Read: "if s is a named offset: named_read, else: storage_read" (R133). -/
def Smc.busReadPiece (p : Piece) (s : Smc) : List Byte × Smc :=
  match SmcReg.ofOffset p.base with
  | some r => s.readPiece (Smc.rule r) p.lane p.count
  | none => s.storageRead (p.base + p.lane) p.count

/-- One piece of a Write (R132). -/
def Smc.busWritePiece (p : Piece) (d : List Byte) (s : Smc) : Smc :=
  match SmcReg.ofOffset p.base with
  | some r => s.writePiece r.offset (Smc.effect r) p.lane d
  | none => s.storageWrite (p.base + p.lane) d

/-- The pieces of a Read "one after the other in ascending address order, each seeing the state left
by the one before" (R131). -/
def Smc.readPieces : List Piece → Smc → List Byte × Smc
  | [], s => ([], s)
  | p :: ps, s =>
    ((s.busReadPiece p).1 ++ (Smc.readPieces ps (s.busReadPiece p).2).1,
      (Smc.readPieces ps (s.busReadPiece p).2).2)

/-- The pieces of a Write, each with the bytes of the buffer that fall on it (R131). -/
def Smc.writePieces : List Piece → List Byte → Smc → Smc
  | [], _, s => s
  | p :: ps, buf, s =>
    Smc.writePieces ps (buf.drop p.count) (s.busWritePiece p (buf.take p.count))

/-- `Read(addr, len)` (R133). -/
def Smc.busRead (addr len : Nat) (s : Smc) : List Byte × Smc :=
  let n := clamp addr len Params.smcSize
  ((Smc.readPieces (pieces 4 addr n) s).1 ++ List.replicate (len - n) Params.oorReadByte,
    (Smc.readPieces (pieces 4 addr n) s).2)

/-- `Write(addr, buf, len)` (R132). -/
def Smc.busWrite (addr : Nat) (buf : List Byte) (s : Smc) : Smc :=
  let n := clamp addr buf.length Params.smcSize
  Smc.writePieces (pieces 4 addr n) (buf.take n) s

/-- `trunc8(v) = v mod 256` (R13). -/
def trunc8 (v : Nat) : Byte := BitVec.ofNat 8 v

/-- `MemSet(addr, value, len)`: `Write(addr, rep(len, trunc8(value)), len)` (R134). -/
def Smc.busMemSet (addr value len : Nat) (s : Smc) : Smc :=
  s.busWrite addr (List.replicate len (trunc8 value))

/-- `ConfigRead(addr, len)` (R135). -/
def Smc.configRead (addr len : Nat) (s : Smc) : List Byte × Smc :=
  let n := clamp addr len Params.cfgSize
  (Mem.readBytes s.cfg addr n ++ List.replicate (len - n) Params.oorReadByte, s)

/-- `ConfigWrite(addr, buf, len)` (R136). -/
def Smc.configWrite (addr : Nat) (buf : List Byte) (s : Smc) : Smc :=
  let n := clamp addr buf.length Params.cfgSize
  { s with cfg := Mem.writeBytes s.cfg addr (buf.take n) }

/-! ### Meanings -/

/-- Read (R133). -/
def execRead (addr len : Nat) (s : State) : Host.Outcome State Fault Refusal :=
  .next (s.readSmc (Smc.busRead addr len))

/-- Write (R132). -/
def execWrite (addr : Nat) (buf : List Byte) (s : State) : Host.Outcome State Fault Refusal :=
  .next (s.onSmc (Smc.busWrite addr buf))

/-- MemSet (R134). -/
def execMemSet (addr value len : Nat) (s : State) : Host.Outcome State Fault Refusal :=
  .next (s.onSmc (Smc.busMemSet addr value len))

/-- ConfigRead (R135). -/
def execConfigRead (addr len : Nat) (s : State) : Host.Outcome State Fault Refusal :=
  .next (s.readSmc (Smc.configRead addr len))

/-- ConfigWrite (R136). -/
def execConfigWrite (addr : Nat) (buf : List Byte) (s : State) : Host.Outcome State Fault Refusal :=
  .next (s.onSmc (Smc.configWrite addr buf))

end Sys2Proof.Machine
end

