-- ==== Sys2Proof/Machine/Dispatch.lean ====
section
/-! DEFINITION. One arm per constructor of Instr: the call of its meaning. -/

namespace Sys2Proof.Machine

def exec (i : Instr) (s : State) : Host.Outcome State Fault Refusal :=
  match i with
  | .read addr len => Sys2Proof.Machine.execRead addr len s
  | .write addr buf => Sys2Proof.Machine.execWrite addr buf s
  | .memSet addr value len => Sys2Proof.Machine.execMemSet addr value len s
  | .configRead addr len => Sys2Proof.Machine.execConfigRead addr len s
  | .configWrite addr buf => Sys2Proof.Machine.execConfigWrite addr buf s
  | .readInterrupt addr len => Sys2Proof.Machine.execReadInterrupt addr len s
  | .writeInterrupt addr data => Sys2Proof.Machine.execWriteInterrupt addr data s
  | .genInterrupt type coreMask => Sys2Proof.Machine.execGenInterrupt type coreMask s
  | .cancelInterrupt type coreMask => Sys2Proof.Machine.execCancelInterrupt type coreMask s
  | .checkExtInterrupt coreID => Sys2Proof.Machine.execCheckExtInterrupt coreID s
  | .busControlRead lane count => Sys2Proof.Machine.execBusControlRead lane count s
  | .busControlWrite lane data => Sys2Proof.Machine.execBusControlWrite lane data s
  | .uartInRead lane count => Sys2Proof.Machine.execUartInRead lane count s
  | .uartInWrite lane data => Sys2Proof.Machine.execUartInWrite lane data s
  | .uartOutRead lane count => Sys2Proof.Machine.execUartOutRead lane count s
  | .uartOutWrite lane data => Sys2Proof.Machine.execUartOutWrite lane data s
  | .uartStatusRead lane count => Sys2Proof.Machine.execUartStatusRead lane count s
  | .uartStatusWrite lane data => Sys2Proof.Machine.execUartStatusWrite lane data s
  | .uartConfigRead lane count => Sys2Proof.Machine.execUartConfigRead lane count s
  | .uartConfigWrite lane data => Sys2Proof.Machine.execUartConfigWrite lane data s
  | .smiIntPendingRead lane count => Sys2Proof.Machine.execSmiIntPendingRead lane count s
  | .smiIntPendingWrite lane data => Sys2Proof.Machine.execSmiIntPendingWrite lane data s
  | .smiIntAckRead lane count => Sys2Proof.Machine.execSmiIntAckRead lane count s
  | .smiIntAckWrite lane data => Sys2Proof.Machine.execSmiIntAckWrite lane data s
  | .smiIntEnableRead lane count => Sys2Proof.Machine.execSmiIntEnableRead lane count s
  | .smiIntEnableWrite lane data => Sys2Proof.Machine.execSmiIntEnableWrite lane data s
  | .clockIntEnableRead lane count => Sys2Proof.Machine.execClockIntEnableRead lane count s
  | .clockIntEnableWrite lane data => Sys2Proof.Machine.execClockIntEnableWrite lane data s
  | .clockIntStatusRead lane count => Sys2Proof.Machine.execClockIntStatusRead lane count s
  | .clockIntStatusWrite lane data => Sys2Proof.Machine.execClockIntStatusWrite lane data s
  | .fifoInMsgRead lane count => Sys2Proof.Machine.execFifoInMsgRead lane count s
  | .fifoInMsgWrite lane data => Sys2Proof.Machine.execFifoInMsgWrite lane data s
  | .fifoInStatusRead lane count => Sys2Proof.Machine.execFifoInStatusRead lane count s
  | .fifoInStatusWrite lane data => Sys2Proof.Machine.execFifoInStatusWrite lane data s
  | .fifoOutMsgRead lane count => Sys2Proof.Machine.execFifoOutMsgRead lane count s
  | .fifoOutMsgWrite lane data => Sys2Proof.Machine.execFifoOutMsgWrite lane data s
  | .fifoOutStatusRead lane count => Sys2Proof.Machine.execFifoOutStatusRead lane count s
  | .fifoOutStatusWrite lane data => Sys2Proof.Machine.execFifoOutStatusWrite lane data s
  | .smcStorageRead slot lane count => Sys2Proof.Machine.execSmcStorageRead slot lane count s
  | .smcStorageWrite slot lane data => Sys2Proof.Machine.execSmcStorageWrite slot lane data s
  | .whoamiRead block lane count => Sys2Proof.Machine.execWhoamiRead block lane count s
  | .whoamiWrite block lane data => Sys2Proof.Machine.execWhoamiWrite block lane data s
  | .currentTskPriRead block lane count => Sys2Proof.Machine.execCurrentTskPriRead block lane count s
  | .currentTskPriWrite block lane data => Sys2Proof.Machine.execCurrentTskPriWrite block lane data s
  | .ipiDispatch0Read block lane count => Sys2Proof.Machine.execIpiDispatch0Read block lane count s
  | .ipiDispatch0Write block lane data => Sys2Proof.Machine.execIpiDispatch0Write block lane data s
  | .ackRead block lane count => Sys2Proof.Machine.execAckRead block lane count s
  | .ackWrite block lane data => Sys2Proof.Machine.execAckWrite block lane data s
  | .ackSetPriRead block lane count => Sys2Proof.Machine.execAckSetPriRead block lane count s
  | .ackSetPriWrite block lane data => Sys2Proof.Machine.execAckSetPriWrite block lane data s
  | .eoiRead block lane count => Sys2Proof.Machine.execEoiRead block lane count s
  | .eoiWrite block lane data => Sys2Proof.Machine.execEoiWrite block lane data s
  | .eoiSetPriRead block lane count => Sys2Proof.Machine.execEoiSetPriRead block lane count s
  | .eoiSetPriWrite block lane data => Sys2Proof.Machine.execEoiSetPriWrite block lane data s
  | .mcackRead block lane count => Sys2Proof.Machine.execMcackRead block lane count s
  | .mcackWrite block lane data => Sys2Proof.Machine.execMcackWrite block lane data s
  | .iicUnnamedRead block slot lane count => Sys2Proof.Machine.execIicUnnamedRead block slot lane count s
  | .iicUnnamedWrite block slot lane data => Sys2Proof.Machine.execIicUnnamedWrite block slot lane data s
  | .pwronType args => Sys2Proof.Machine.execPwronType args s
  | .queryRtc args => Sys2Proof.Machine.execQueryRtc args s
  | .queryTemp args => Sys2Proof.Machine.execQueryTemp args s
  | .queryTray args => Sys2Proof.Machine.execQueryTray args s
  | .queryAvpack args => Sys2Proof.Machine.execQueryAvpack args s
  | .i2cPassthrough args => Sys2Proof.Machine.execI2cPassthrough args s
  | .queryVersion args => Sys2Proof.Machine.execQueryVersion args s
  | .fifoTest args => Sys2Proof.Machine.execFifoTest args s
  | .queryIrAddr args => Sys2Proof.Machine.execQueryIrAddr args s
  | .queryTilt args => Sys2Proof.Machine.execQueryTilt args s
  | .queryIntAck0 args => Sys2Proof.Machine.execQueryIntAck0 args s
  | .queryIntAck1 args => Sys2Proof.Machine.execQueryIntAck1 args s
  | .setStandby args => Sys2Proof.Machine.execSetStandby args s
  | .setTime args => Sys2Proof.Machine.execSetTime args s
  | .setFanAlgorithm args => Sys2Proof.Machine.execSetFanAlgorithm args s
  | .setFanSpeed0 args => Sys2Proof.Machine.execSetFanSpeed0 args s
  | .setFanSpeed1 args => Sys2Proof.Machine.execSetFanSpeed1 args s
  | .setDvdTray args => Sys2Proof.Machine.execSetDvdTray args s
  | .setPowerLed args => Sys2Proof.Machine.execSetPowerLed args s
  | .setAudioMute args => Sys2Proof.Machine.execSetAudioMute args s
  | .setIrAddr args => Sys2Proof.Machine.execSetIrAddr args s
  | .setRtcWake args => Sys2Proof.Machine.execSetRtcWake args s
  | .setAsyncOp args => Sys2Proof.Machine.execSetAsyncOp args s
  | .setIntEnable0 args => Sys2Proof.Machine.execSetIntEnable0 args s
  | .setIntEnable1 args => Sys2Proof.Machine.execSetIntEnable1 args s
  | .unknownCommand code args => Sys2Proof.Machine.execUnknownCommand code args s
  | .trayStepOpenRequest => Sys2Proof.Machine.execTrayStepOpenRequest s
  | .trayStepOpening => Sys2Proof.Machine.execTrayStepOpening s
  | .trayStepClosing => Sys2Proof.Machine.execTrayStepClosing s
  | .uartRx d st => Sys2Proof.Machine.execUartRx d st s

end Sys2Proof.Machine
end

