-- ==== Sys2Proof/Machine/Fetch.lean ====
section
/-! DEFINITION. Taking the next entry of the schedule: what `step` calls before and beside the meaning
of an operation (log entry 1). -/

namespace Sys2Proof.Machine

/-- The machine with the head of its schedule taken off. -/
def State.advance (s : State) (rest : List Input) : State := { s with inbox := rest }

/-- The SMC reset event (R350): the IIC is not touched. -/
def State.smcReset (s : State) (inp : SmcInputs) : State := s.onSmc (Smc.resetWith inp)

/-- The IIC reset event (R350): the SMC is not touched. -/
def State.iicReset (s : State) (whoami : Vector DWord 6) : State :=
  s.onIic fun _ => Iic.resetWith whoami

/-- The machine with a packet put at the head of its schedule. -/
def State.pushPacket (s : State) (bytes : List Byte) : State :=
  { s with inbox := .packet bytes :: s.inbox }

end Sys2Proof.Machine
end

