-- ==== Sys2Proof/Machine/Step.lean ====
section
/-! DEFINITION. One step of the machine: the next entry of the schedule is taken and applied whole
(spec/20_memory.md R84). With nothing scheduled nothing happens: "Nothing in the block executes
instructions" of itself (spec/INDEX.md). -/

namespace Sys2Proof.Machine

/-- One step (log entry 1). -/
def step (s : State) : Host.Outcome State Fault Refusal :=
  match s.inbox with
  | [] => .next s
  | .packet bytes :: rest =>
    match decode bytes with
    | .ok i => exec i (s.advance rest)
    | .error e => .refused (.undecodable e)
  | .smcReset inputs :: rest => .next ((s.advance rest).smcReset inputs)
  | .iicReset whoami :: rest => .next ((s.advance rest).iicReset whoami)

/-- `s` with the table word `w` as the next operation of its schedule (log entries 1, 4). -/
def State.withFetchWord (s : State) (nbits w : Nat) : State := s.pushPacket (tablePacket nbits w)

end Sys2Proof.Machine
end

