-- ==== Sys2Proof/Machine/Schedule.lean ====
section
/-! DEFINITION. Runs of the machine among its agents, and the one thing the spec asks of a run beyond what
each step does: the weak fairness of the tray worker (spec/43_smc_background_agents.md R245,
spec/70_reset_and_hazards.md R360). "The spec models no time": a run is an endless sequence of steps,
between which the agents deliver what they please. -/

namespace Sys2Proof.Machine

/-- What agents deliver goes to the schedule's tail: the order of operations "is consistent with
real-time call order" (R85). -/
def State.deliver (s : State) (entries : List Input) : State := { s with inbox := s.inbox ++ entries }

/-- The entry the next step takes, if one is scheduled. -/
def State.entry (s : State) : Option Input := s.inbox.head?

/-- The next step is the operation `i`. -/
def State.Takes (s : State) (i : Instr) : Prop :=
  ∃ bytes, s.entry = some (.packet bytes) ∧ decode bytes = .ok i

/-- The tray worker's step that is enabled in a tray state (R241, R242, R243); "no step in the states
OPEN, CLOSED, UNKNOWN and SPINUP" (R244). -/
def trayEnabled : Tray → Option Instr
  | .openRequest => some .trayStepOpenRequest
  | .opening => some .trayStepOpening
  | .closing => some .trayStepClosing
  | .opened => none
  | .closed => none
  | .unknown => none
  | .spinup => none

/-- An endless run: before its `n`-th step the agents deliver `delivered n`, any number of entries, "including
zero" (R245). -/
def IsRun (delivered : Nat → List Input) (run : Nat → State) : Prop :=
  ∀ n, step ((run n).deliver (delivered n)) = .next (run (n + 1))

/-- The weak fairness of the tray worker: "a tray step that stays enabled is eventually taken" (R245; the
spec's rendering of "bounded simulated delay", D39; log entry 21). -/
def TrayFair (delivered : Nat → List Input) (run : Nat → State) : Prop :=
  ∀ i n, (∀ m, n ≤ m → trayEnabled (run m).smc.tray = some i) →
    ∃ m, n ≤ m ∧ ((run m).deliver (delivered m)).Takes i

end Sys2Proof.Machine
end

