-- ==== Sys2Proof/Safety.lean ====
section
/-! DEFINITION. The terms claims are stated in: the well-formed states (spec/10_state.md R41, R55, R67;
R304), the best record of a queue (R15), the tray's transition relation (R244), and what a run of
bytes laid over a storage reads as. -/

namespace Sys2Proof.Machine

/-- The SMC's invariants: R41 (a), (b); (d) as "S.uartcfg equals" the stored UART_CONFIG word, which
every bus write keeps; and the canonical form of both storages. R41 (c) is in the type of a response. -/
structure Smc.Inv (s : Smc) : Prop where
  cur : s.cur ≤ 15
  ocur : s.ocur = 0 ∨ s.ocur = 4 ∨ s.ocur = 8 ∨ s.ocur = 12
  drained : s.respq = [] → s.ocur = 0
  uartcfg : s.uartcfg = s.wslot SmcReg.uartConfig.offset
  win : Mem.wf Params.smcSize s.win = true
  cfg : Mem.wf Params.cfgSize s.cfg = true

/-- A block's invariants: "B.sig = (B.q is not empty)" (R55) and "every record's prio equals PRIO of
its type" (R304). -/
structure Block.Inv (b : Block) : Prop where
  sig : b.sig = !b.q.isEmpty
  prio : ∀ r ∈ b.q, r.prio = Config.prio r.type

/-- The IIC's invariants: every block's. -/
def Iic.Inv (i : Iic) : Prop := ∀ c : Fin 6, (i.block c).Inv

/-- "A state is well formed when the invariants of rule R41, rule R55 and rule R57 hold" (R67). -/
structure State.Inv (s : State) : Prop where
  smc : s.smc.Inv
  iic : s.iic.Inv

/-- Index `i` holds the best record satisfying `p` (R15): "the one with the least q[i].prio; among
several with the same least prio, the least index". -/
def IsBest (p : IntRecord → Bool) (q : List IntRecord) (i : Nat) (r : IntRecord) : Prop :=
  q[i]? = some r ∧ p r = true ∧
    ∀ j r', q[j]? = some r' → p r' = true → r.prio < r'.prio ∨ r.prio = r'.prio ∧ i ≤ j

/-- Index `i` holds the earliest enqueued PENDING record of a type (R302). -/
def IsFirstPending (type : Byte) (q : List IntRecord) (i : Nat) : Prop :=
  (∃ r, q[i]? = some r ∧ r.type = type ∧ r.ack = false) ∧
    ∀ j < i, ∀ r, q[j]? = some r → r.type = type → r.ack = true

/-- The tray transitions a command makes (R214, R244), and staying. -/
def CommandArrow (t t' : Tray) : Prop :=
  t = t' ∨ (t = .closed ∧ t' = .openRequest) ∨ (t = .openRequest ∧ t' = .closed) ∨
    (t = .opened ∧ t' = .closing)

/-- "The complete tray transition relation" (R244), and staying. -/
def TrayArrow (t t' : Tray) : Prop :=
  CommandArrow t t' ∨ (t = .openRequest ∧ t' = .opening) ∨ (t = .opening ∧ t' = .opened) ∨
    (t = .closing ∧ t' = .closed)

/-- The byte at address `x` after bytes `d` are laid at addresses `a ..` over a storage. -/
def overlay (m : Mem) (a : Nat) (d : List Byte) (x : Nat) : Byte :=
  if a ≤ x ∧ x < a + d.length then d.getD (x - a) 0 else Mem.read m x

/-- The slot base of a window address (R104). -/
def slotBase (x : Nat) : Nat := x - x % 4

/-- Some byte of an operation at `addr` of length `len` falls in the slot with base `base` (R131). -/
def Touches (addr len base : Nat) : Prop := ∃ x, addr ≤ x ∧ x < addr + len ∧ slotBase x = base

/-- The SMC after the command of frame `f` has run: the rule of its code, or nothing for an unknown code
(R196, R198). -/
def Smc.ran (f : Frame) (d : Smc) : Smc :=
  match Cmd.ofCode f[0] with
  | some c => d.runCommand c f
  | none => d

/-- Byte `j` of a frame. -/
def frameByte (f : Frame) (j : Nat) : Byte := f.toList.getD j 0

/-- A record that stays in its queue: the same type and priority, and ACKED if it was (R278). -/
def IntRecord.Kept (before after : IntRecord) : Prop :=
  after.type = before.type ∧ after.prio = before.prio ∧ (before.ack = true → after.ack = true)

end Sys2Proof.Machine
end

