-- ==== Sys2Proof/Certificates/Slice0/Obligations.lean ====
section
/-! DEFINITION. The statements for the provers, from the spec's numbered rules. A piece's operands are
written `l` (first lane), `count` and `data`; `overlay m a d` is storage `m` with the bytes `d` laid at
addresses `a ..`. Every statement about one instruction gives its next state, so it is also the
instruction's completion statement and its frame. -/

open Sys2Proof Sys2Proof.Machine

/-! ### Packets, decoding, one step -/

/-- For every well-formed instruction, decoding its packet gives it back (the packet is the model's own,
log entry 3). -/
def Obligations.DecodeEncodeRoundTrip : Prop :=
  ∀ i : Instr, i.WellFormed → decode (encode i) = .ok i

/-- Whatever the bytes, an instruction the decoder answers is well formed (R106, R113; the packets are the
model's own, log entry 3). -/
def Obligations.DecodedInstructionsAreWellFormed : Prop :=
  ∀ (bytes : List Byte) (i : Instr), decode bytes = .ok i → i.WellFormed

/-- R104: a window offset selects slot `a & 0xFC` and lane `a mod 4`; the piece is the named register's
whose offset that is, and storage's if there is none. The offsets are R24's table, and a piece of `n` bytes
from lane `l` of a slot of `w` bytes has `1 ≤ n ≤ w - l` (R106). The cut at slots is the spec's decision D4
(log entry 24), the packet the model's own (log entry 3). -/
def Obligations.WindowOffsetSelectsSlot : Prop :=
  (∀ w l n : Nat, pieceFits w l n = true ↔ 1 ≤ n ∧ l + n ≤ w) ∧
  [SmcReg.busControl, .uartIn, .uartOut, .uartStatus, .uartConfig, .smiIntPending, .smiIntAck,
      .smiIntEnable, .clockIntEnable, .clockIntStatus, .fifoInMsg, .fifoInStatus, .fifoOutMsg,
      .fifoOutStatus].map SmcReg.offset =
    [0x00, 0x10, 0x14, 0x18, 0x1C, 0x50, 0x5C, 0x60, 0x64, 0x6C, 0x80, 0x84, 0x90, 0x94] ∧
  (∀ slot : Fin 64, smcSlotUnnamed slot = true ↔ ∀ r : SmcReg, r.offset ≠ 4 * slot.val) ∧
  ∀ (a c : Byte) (l : Fin 4) (data : List Byte), l.val = a.toNat % 4 →
    (∀ r : SmcReg, (a &&& 0xFC).toNat = r.offset →
      (pieceFits 4 l.val (c.toNat + 1) = true →
        decode [Format.smcSlotRead.tag, a, c] = .ok (Instr.smcRead r l (c.toNat + 1))) ∧
      (pieceFits 4 l.val data.length = true →
        decode (Format.smcSlotWrite.tag :: a :: data) = .ok (Instr.smcWrite r l data))) ∧
    ((∀ r : SmcReg, (a &&& 0xFC).toNat ≠ r.offset) →
      ∀ slot : Fin 64, 4 * slot.val = (a &&& 0xFC).toNat →
        (pieceFits 4 l.val (c.toNat + 1) = true →
          decode [Format.smcSlotRead.tag, a, c] = .ok (.smcStorageRead slot l (c.toNat + 1))) ∧
        (pieceFits 4 l.val data.length = true →
          decode (Format.smcSlotWrite.tag :: a :: data) = .ok (.smcStorageWrite slot l data)))

/-- R105: an in-range IIC address `a` selects block `a div 0x1000`, slot base `o - (o mod 8)` and lane
`o mod 8` of the block offset `o = a mod 0x1000`; the piece is the named register's whose offset the slot
base is, else no register's. The offsets are R45's table. The stride 0x1000, with the space of 0x6000 bytes,
is PRESUMED (the spec's D25 and G4, log entry 18), the slot of 8 bytes the spec's decision D24 (log entry 9),
the packet the model's own (log entry 3). -/
def Obligations.IicAddressSelectsBlockAndSlot : Prop :=
  [IicReg.whoami, .currentTskPri, .ipiDispatch0, .ack, .ackSetPri, .eoi, .eoiSetPri, .mcack].map
      IicReg.offset = [0x00, 0x08, 0x10, 0x50, 0x58, 0x60, 0x68, 0x70] ∧
  (∀ slot : Fin 512, iicSlotUnnamed slot = true ↔ ∀ r : IicReg, r.offset ≠ 8 * slot.val) ∧
  ∀ (lo hi c : Byte) (block : Fin 6) (l : Fin 8) (data : List Byte),
    lo.toNat + 256 * hi.toNat < 0x6000 →
    block.val = (lo.toNat + 256 * hi.toNat) / 0x1000 →
    l.val = (lo.toNat + 256 * hi.toNat) % 0x1000 % 8 →
    (∀ r : IicReg,
      (lo.toNat + 256 * hi.toNat) % 0x1000 - (lo.toNat + 256 * hi.toNat) % 0x1000 % 8 = r.offset →
      (pieceFits 8 l.val (c.toNat + 1) = true →
        decode [Format.iicSlotRead.tag, lo, hi, c] = .ok (Instr.iicRead r block l (c.toNat + 1))) ∧
      (pieceFits 8 l.val data.length = true →
        decode (Format.iicSlotWrite.tag :: lo :: hi :: data) = .ok (Instr.iicWrite r block l data))) ∧
    (∀ slot : Fin 512,
      8 * slot.val =
        (lo.toNat + 256 * hi.toNat) % 0x1000 - (lo.toNat + 256 * hi.toNat) % 0x1000 % 8 →
      (∀ r : IicReg, 8 * slot.val ≠ r.offset) →
      (pieceFits 8 l.val (c.toNat + 1) = true →
        decode [Format.iicSlotRead.tag, lo, hi, c] =
          .ok (.iicUnnamedRead block slot l (c.toNat + 1))) ∧
      (pieceFits 8 l.val data.length = true →
        decode (Format.iicSlotWrite.tag :: lo :: hi :: data) =
          .ok (.iicUnnamedWrite block slot l data)))

/-- A frame is the command whose code its first byte is, and unknown where it is no command's code (R108,
R113). The 25 codes are R112's table (PRESUMED, the spec's D15 and G1, log entry 12); the packet is the
model's own (log entry 3). -/
def Obligations.FrameDecodesByFirstByte : Prop :=
  [Cmd.pwronType, .queryRtc, .queryTemp, .queryTray, .queryAvpack, .i2cPassthrough, .queryVersion,
      .fifoTest, .queryIrAddr, .queryTilt, .queryIntAck0, .queryIntAck1].map Cmd.code =
    [0x01, 0x04, 0x07, 0x0A, 0x0F, 0x11, 0x12, 0x13, 0x16, 0x17, 0x1E, 0x20] ∧
  [Cmd.setStandby, .setTime, .setFanAlgorithm, .setFanSpeed0, .setFanSpeed1, .setDvdTray, .setPowerLed,
      .setAudioMute, .setIrAddr, .setRtcWake, .setAsyncOp, .setIntEnable0, .setIntEnable1].map Cmd.code =
    [0x82, 0x85, 0x88, 0x89, 0x94, 0x8B, 0x8C, 0x8D, 0x96, 0x9A, 0x9C, 0x9D, 0x9F] ∧
  ∀ (code : Byte) (args : Args),
    (∀ c : Cmd, c.code = code →
      decode (Format.fifoFrame.tag :: code :: args.toList) = .ok (Instr.command c args)) ∧
    ((∀ c : Cmd, c.code ≠ code) →
      decode (Format.fifoFrame.tag :: code :: args.toList) = .ok (.unknownCommand code args))

/-- Sample words and packets decode to their instructions. The match values are the spec's tables': R103's
kind numbers, R104's and R105's offsets, R112's codes (PRESUMED, the spec's G1, log entry 12), R39's tray
codes (D19, log entry 19). Which row a bare word decodes to where several share it is the model's own
preference (log entry 4), and the packets are the model's own (log entry 3). -/
def Obligations.SampleWordsDecode : Prop :=
  decodeTableWord 8 0x02 = some (.memSet 0 0 0) ∧
    decodeTableWord 8 0x5C = some (.smiIntAckRead 0 1) ∧
    decodeTableWord 16 0x050 = some (.ackRead 0 0 1) ∧
    decodeTableWord 8 0x8B = some (.setDvdTray (Vector.replicate 15 0)) ∧
    decodeTableWord 8 0x61 = some .trayStepOpenRequest ∧
    decode [0, 1, 0x20, 2, 0x11, 0x22] = .ok (.write 0x20 [0x11, 0x22]) ∧
    decode [2, 2, 0x40, 0x3F] = .ok (.genInterrupt 0x40 0x3F)

/-- When the packet at the head of the schedule decodes to an instruction, a step is that instruction's
meaning at the state with the packet taken off (the schedule is the model's own, log entry 1). -/
def Obligations.StepRunsDecodedInstruction : Prop :=
  ∀ (s : State) (bytes : List Byte) (rest : List Input) (i : Instr),
    s.inbox = .packet bytes :: rest → decode bytes = .ok i →
      step s = exec i { s with inbox := rest }

/-- What a step does otherwise: with nothing scheduled, nothing; a packet that stands for no operation is
refused with the decoder's reason; a reset event resets its device and leaves the other (R350). The schedule
and the packets are the model's own (log entries 1, 3). -/
def Obligations.StepWithoutInstruction : Prop :=
  ∀ s : State,
    (s.inbox = [] → step s = .next s) ∧
    (∀ bytes rest e, s.inbox = .packet bytes :: rest → decode bytes = .error e →
      step s = .refused (.undecodable e)) ∧
    (∀ inputs rest, s.inbox = .smcReset inputs :: rest →
      step s = .next { s with smc := Smc.resetWith inputs s.smc, inbox := rest, result := .nothing }) ∧
    (∀ whoami rest, s.inbox = .iicReset whoami :: rest →
      step s = .next { s with iic := Iic.resetWith whoami, inbox := rest, result := .nothing })

/-- R320, and R142 for the SMC bus: no operation, of all 88, faults, is refused or fails: each answers a next
state. That it takes nothing from the schedule rests on the model's own field `inbox` (log entry 1). -/
def Obligations.EveryOperationAnswersNext : Prop :=
  ∀ (i : Instr) (s : State), ∃ t, exec i s = .next t ∧ t.inbox = s.inbox

/-! ### Invariants and whole-machine rules -/

/-- "every operation of this spec maps a well-formed state to a well-formed state" (R67), for every step:
operations, agents' steps and reset events. R41 (d) is taken as log entry 28 says. -/
def Obligations.StepKeepsWellFormed : Prop :=
  ∀ s t : State, s.Inv → step s = .next t → t.Inv

/-- "The reset state is well formed" (R67). -/
def Obligations.ResetStateWellFormed : Prop := State.reset.Inv

/-- R66, R351: what an SMC reset leaves, whatever the state before: the window and configuration images,
the collaborator's two bytes, everything else zero or empty, the tray CLOSED, and `S.uartcfg` the image's
UART_CONFIG word. The source states no reset value: these are the spec's decision D35 (log entry 13). -/
def Obligations.SmcResetValues : Prop :=
  ∀ (inp : SmcInputs) (old d : Smc), d = Smc.resetWith inp old →
    (∀ x, Mem.read d.win x = if x < 0x100 then inp.win.getD x 0 else 0) ∧
    (∀ x, Mem.read d.cfg x = if x < 0x100 then inp.cfg.getD x 0 else 0) ∧
    (∀ j < 16, frameByte d.fifo j = 0) ∧ d.cur = 0 ∧ d.respq = [] ∧ d.ocur = 0 ∧ d.olast = 0 ∧
    d.tray = .closed ∧ d.pwr = inp.pwr ∧ d.avpack = inp.avpack ∧ d.trace = [] ∧
    ∀ j < 4, lane d.uartcfg j = inp.win.getD (0x1C + j) 0

/-- R66, R351: what an IIC reset leaves: every register 0 but WHOAMI, every queue empty, every signal flag
false, no event; and `checkExtInterrupt` false for every core. The source states no reset value: these are
the spec's decision D35 (log entry 13). -/
def Obligations.IicResetValues : Prop :=
  ∀ (whoami : Vector DWord 6) (c : Fin 6),
    ((Iic.resetWith whoami).block c).get .whoami = whoami[c] ∧
    (∀ r : IicReg, r ≠ .whoami → ((Iic.resetWith whoami).block c).get r = 0) ∧
    ((Iic.resetWith whoami).block c).q = [] ∧ ((Iic.resetWith whoami).block c).sig = false ∧
    (Iic.resetWith whoami).trace = [] ∧ ∀ coreID, (Iic.resetWith whoami).check coreID = false

/-- The model's reset state is a reset of both devices with zero images and the bytes the model names for
the OPEN inputs (log entries 14, 15, 16), with nothing scheduled. -/
def Obligations.ResetStateIsResetOfBoth : Prop :=
  ∀ old : Smc, old.draws = 0 →
    State.reset =
      { smc := Smc.resetWith ⟨[], [], 0x11, 0x1F⟩ old
        iic := Iic.resetWith (Vector.replicate 6 0)
        inbox := []
        result := .nothing }

/-- R244: every operation moves the tray along "the complete tray transition relation" or leaves it;
"never jumping directly to OPEN". The command's arrows and CLOSING to CLOSED are the spec's decision D18 (log
entry 19). -/
def Obligations.TrayMovesAlongTheRelation : Prop :=
  ∀ (i : Instr) (s t : State), exec i s = .next t → TrayArrow s.smc.tray t.smc.tray

/-- R40, R222: no operation changes the power-on reason or the AV-pack type. That no set command does is the
spec's decisions D20 and D17 (log entries 15, 25). -/
def Obligations.PowerReasonAndAvpackConstant : Prop :=
  ∀ (i : Instr) (s t : State), exec i s = .next t →
    t.smc.pwr = s.smc.pwr ∧ t.smc.avpack = s.smc.avpack

/-- R87, R325: an operation of one device leaves the other device's state. That no SMC operation touches the
IIC (the SMC raises no interrupt) is the spec's decision D23 (log entry 25). -/
def Obligations.DevicesDoNotTouchEachOther : Prop :=
  ∀ (i : Instr) (s t : State), exec i s = .next t →
    (i.format ∈ [Format.iicPort, Format.iicReq, Format.iicSlotRead, Format.iicSlotWrite] →
      t.smc = s.smc) ∧
    (i.format ∉ [Format.iicPort, Format.iicReq, Format.iicSlotRead, Format.iicSlotWrite] →
      t.iic = s.iic)

/-- R301: `LineAssert(c)` is emitted exactly when core `c`'s signal flag goes from false to true, once, and
by genInterrupt only; nothing else is ever emitted. -/
def Obligations.LineAssertOnFalseToTrueOnly : Prop :=
  ∀ (i : Instr) (s t : State), exec i s = .next t →
    ∃ es : List IicEvent, t.iic.trace = s.iic.trace ++ es ∧
      (∀ c : Fin 6, es.count (.lineAssert c) =
        if (s.iic.block c).sig = false ∧ (t.iic.block c).sig = true then 1 else 0) ∧
      ((∀ type mask, i ≠ .genInterrupt type mask) → es = [])

/-- R278, R304, R300: after any operation but genInterrupt a core's queue is records that were there, in the
order they had, with type and priority kept and never back from ACKED to PENDING, and no new one; a
genInterrupt keeps the whole queue and appends one PENDING record on a selected core, none on another (the
mask's bits: the spec's decision D31, log entry 20). -/
def Obligations.RecordsOnlyMoveForward : Prop :=
  ∀ (i : Instr) (s t : State) (c : Fin 6), exec i s = .next t →
    ∃ old new : List IntRecord, (t.iic.block c).q = old ++ new ∧
      List.SublistForall₂ (fun after before => IntRecord.Kept before after) old
        (s.iic.block c).q ∧
      ((∀ type mask, i ≠ .genInterrupt type mask) → new = []) ∧
      ∀ type mask, i = .genInterrupt type mask →
        old = (s.iic.block c).q ∧
        new = if mask.testBit c.val then [⟨type, Config.prio type, false⟩] else []

/-! ### The SMC bus port -/

/-- R132: a Write lays its in-range bytes over the window and discards the rest; nothing but the effects
of the side-effecting slots it touches (UART_OUT 0x14, UART_CONFIG 0x1C, FIFO_IN_MSG 0x80,
FIFO_IN_STATUS 0x84) changes anything else. The clamp is the spec's decision D5 (log entry 18), the pieces D4
(log entry 24). -/
def Obligations.WriteStoresInRangeBytes : Prop :=
  ∀ (s : State) (addr : Nat) (buf : List Byte), ∃ t, exec (.write addr buf) s = .next t ∧
    (∀ x, Mem.read t.smc.win x =
      if x < 0x100 then overlay s.smc.win addr buf x else Mem.read s.smc.win x) ∧
    t.iic = s.iic ∧ t.inbox = s.inbox ∧ t.result = .nothing ∧
    t.smc.cfg = s.smc.cfg ∧ t.smc.ocur = s.smc.ocur ∧ t.smc.olast = s.smc.olast ∧
    t.smc.pwr = s.smc.pwr ∧ t.smc.avpack = s.smc.avpack ∧
    (∃ ps, t.smc.respq = s.smc.respq ++ ps) ∧
    (¬Touches addr buf.length 0x14 → ¬Touches addr buf.length 0x1C →
      t.smc.trace = s.smc.trace ∧ t.smc.uartcfg = s.smc.uartcfg) ∧
    (¬Touches addr buf.length 0x80 → ¬Touches addr buf.length 0x84 →
      t.smc.fifo = s.smc.fifo ∧ t.smc.cur = s.smc.cur ∧ t.smc.respq = s.smc.respq ∧
      t.smc.tray = s.smc.tray ∧ t.smc.draws = s.smc.draws)

/-- R133, R83: a Read returns `len` bytes: the stored byte for every address in the window outside the
two FIFO out slots, OOR_READ_BYTE beyond the window; only a read of FIFO_OUT_MSG (0x90) changes the
SMC, and then only the response queue, its read position and the last word. The byte 0x00 beyond the window
is the spec's decision D5 (log entry 18), what a FIFO_OUT_MSG read changes D13 (log entry 26). -/
def Obligations.ReadReturnsStoredBytes : Prop :=
  ∀ (s : State) (addr len : Nat), ∃ (t : State) (bytes : List Byte),
    exec (.read addr len) s = .next t ∧
    t = { s with
      smc := { s.smc with respq := t.smc.respq, ocur := t.smc.ocur, olast := t.smc.olast }
      result := .data bytes } ∧
    bytes.length = len ∧
    (∀ j < len, addr + j < 0x100 → slotBase (addr + j) ≠ 0x90 → slotBase (addr + j) ≠ 0x94 →
      bytes.getD j 0 = Mem.read s.smc.win (addr + j)) ∧
    (∀ j < len, 0x100 ≤ addr + j → bytes.getD j 0 = 0x00) ∧
    (¬Touches addr len 0x90 → t.smc = s.smc)

/-- R141: Write, then Read of the same range, returns the buffer, wherever no byte is in a FIFO out slot
and the range is in the window; likewise ConfigWrite and ConfigRead. The configuration space as plain storage
of 0x100 bytes is the spec's decision D7 (log entry 18). -/
def Obligations.WriteThenReadReturnsBuffer : Prop :=
  ∀ (s : State) (addr : Nat) (buf : List Byte), addr + buf.length ≤ 0x100 →
    (¬Touches addr buf.length 0x90 → ¬Touches addr buf.length 0x94 →
      ∃ t u, exec (.write addr buf) s = .next t ∧ exec (.read addr buf.length) t = .next u ∧
        u.result = .data buf ∧ u.smc = t.smc) ∧
    ∃ t u, exec (.configWrite addr buf) s = .next t ∧
      exec (.configRead addr buf.length) t = .next u ∧ u.result = .data buf ∧ u.smc = t.smc

/-- R134: MemSet is the Write of `len` bytes equal to `value mod 256`, so every in-range byte of the range
then holds that byte. That a MemSet acts as a Write, side effects and all, is the spec's decision D6 (log
entry 24). -/
def Obligations.MemSetIsWriteOfEqualBytes : Prop :=
  ∀ (s : State) (addr value len : Nat), ∃ t, exec (.memSet addr value len) s = .next t ∧
    exec (.write addr (List.replicate len (BitVec.ofNat 8 (value % 256)))) s = .next t ∧
    ∀ x, addr ≤ x → x < addr + len → x < 0x100 →
      Mem.read t.smc.win x = BitVec.ofNat 8 (value % 256)

/-- R135: ConfigRead returns the configuration bytes, OOR_READ_BYTE beyond the space, and changes no
state. R136: ConfigWrite lays its in-range bytes over the configuration space: "Changes `S.cfg` only". The
size 0x100 and the byte 0x00 are the spec's decisions D7 and D5 (log entry 18). -/
def Obligations.ConfigSpaceReadsAndWrites : Prop :=
  ∀ (s : State) (addr len : Nat) (buf : List Byte),
    exec (.configRead addr len) s = .next { s with
      result := .data ((List.range len).map fun j =>
        if addr + j < 0x100 then Mem.read s.smc.cfg (addr + j) else 0x00) } ∧
    ∃ m : Mem,
      exec (.configWrite addr buf) s =
        .next { s with smc := { s.smc with cfg := m }, result := .nothing } ∧
      ∀ x, Mem.read m x =
        if x < 0x100 then overlay s.smc.cfg addr buf x else Mem.read s.smc.cfg x

/-! ### Pieces on the SMC window -/

/-- Storage pieces: a write stores the piece's bytes and "Nothing else changes" (R137); a read returns the
stored bytes and "No state changes" (R138). -/
def Obligations.StoragePiecesReadAndWrite : Prop :=
  ∀ (s : State) (slot : Fin 64) (l : Fin 4), smcSlotUnnamed slot = true →
    (∀ count, pieceFits 4 l.val count = true →
      exec (.smcStorageRead slot l count) s = .next { s with
        result := .data ((List.range count).map fun j =>
          Mem.read s.smc.win (4 * slot.val + l.val + j)) }) ∧
    ∀ data : List Byte, pieceFits 4 l.val data.length = true →
      ∃ w : Mem, exec (.smcStorageWrite slot l data) s =
          .next { s with smc := { s.smc with win := w }, result := .nothing } ∧
        ∀ x, Mem.read w x = overlay s.smc.win (4 * slot.val + l.val) data x

/-- Reads of the twelve named registers whose rule is "stored value" (R151, R152, R153, R154, R156, R157,
R158, R159, R160, R161, R163, R165: BUS_CONTROL, UART_IN, UART_OUT, UART_STATUS, UART_CONFIG,
SMI_INT_PENDING, SMI_INT_ACK, SMI_INT_ENABLE, CLOCK_INT_ENABLE, CLOCK_INT_STATUS, FIFO_IN_MSG,
FIFO_IN_STATUS) return the stored bytes and change no state (R140). That these registers read back what was
stored is the spec's decisions D12 and D22 (log entry 25) and D21 (log entry 29). -/
def Obligations.StoredRegistersReadTheirBytes : Prop :=
  ∀ (s : State) (l : Fin 4) (count : Nat), pieceFits 4 l.val count = true →
    ∀ r : SmcReg, r ≠ .fifoOutMsg → r ≠ .fifoOutStatus →
      exec (Instr.smcRead r l count) s = .next { s with
        result := .data ((List.range count).map fun j =>
          Mem.read s.smc.win (r.offset + l.val + j)) }

/-- Writes of the ten named registers with no effect beyond the store (BUS_CONTROL, UART_IN, UART_STATUS,
SMI_INT_PENDING, SMI_INT_ACK, SMI_INT_ENABLE, CLOCK_INT_ENABLE, CLOCK_INT_STATUS, FIFO_OUT_MSG,
FIFO_OUT_STATUS) store the piece's bytes and change nothing else (R139; the spec's decisions D14, D22,
log entry 25, and D21, log entry 29). -/
def Obligations.PlainRegistersStoreTheirBytes : Prop :=
  ∀ (s : State) (l : Fin 4) (data : List Byte), pieceFits 4 l.val data.length = true →
    ∀ r ∈ [SmcReg.busControl, .uartIn, .uartStatus, .smiIntPending, .smiIntAck, .smiIntEnable,
        .clockIntEnable, .clockIntStatus, .fifoOutMsg, .fifoOutStatus],
      ∃ w : Mem, exec (Instr.smcWrite r l data) s =
          .next { s with smc := { s.smc with win := w }, result := .nothing } ∧
        ∀ x, Mem.read w x = overlay s.smc.win (r.offset + l.val) data x

/-- R153: a write of UART_OUT stores and emits one `UartTx` with the merged word; a read returns the
stored value (the spec's decision D21, log entry 29; the merge D8, log entry 24). R12: `lane(w, j)` is
`(w div 256^j) mod 256`, the little-endian lanes of the spec's decision D3 (log entry 8). -/
def Obligations.UartOutWriteEmitsMergedWord : Prop :=
  (∀ (w : Word) (j : Nat), j < 4 → (lane w j).toNat = w.toNat / 256 ^ j % 256) ∧
  ∀ (s : State) (l : Fin 4) (data : List Byte), pieceFits 4 l.val data.length = true →
    (∃ (w : Mem) (v : Word), exec (.uartOutWrite l data) s =
        .next { s with
          smc := { s.smc with win := w, trace := s.smc.trace ++ [.uartTx v] }
          result := .nothing } ∧
      (∀ x, Mem.read w x = overlay s.smc.win (0x14 + l.val) data x) ∧
      ∀ j < 4, lane v j = Mem.read w (0x14 + j)) ∧
    exec (.uartOutRead 0 4) s =
      .next { s with result := .data ((List.range 4).map fun j => Mem.read s.smc.win (0x14 + j)) }

/-- R155: a write of UART_CONFIG stores, copies the merged word to `S.uartcfg` and emits one `UartReinit`
with it (the spec's decision D21, log entry 29; the merge D8, log entry 24; little-endian lanes D3, log entry
8). -/
def Obligations.UartConfigWriteReinitialises : Prop :=
  ∀ (s : State) (l : Fin 4) (data : List Byte), pieceFits 4 l.val data.length = true →
    ∃ (w : Mem) (v : Word), exec (.uartConfigWrite l data) s =
        .next { s with
          smc := { s.smc with win := w, uartcfg := v, trace := s.smc.trace ++ [.uartReinit v] }
          result := .nothing } ∧
      (∀ x, Mem.read w x = overlay s.smc.win (0x1C + l.val) data x) ∧
      ∀ j < 4, lane v j = Mem.read w (0x1C + j)

/-- R162, R190: a write of FIFO_IN_MSG that does not fill the frame stores its bytes in the window and
places them in the frame from the cursor on, in order, whatever the lane; no dispatch. That exactly the bytes
written are appended is the spec's decision D8 too (log entry 24). -/
def Obligations.FifoInMsgWriteAccumulates : Prop :=
  ∀ (s : State) (l : Fin 4) (data : List Byte), pieceFits 4 l.val data.length = true →
    s.smc.cur + data.length < 16 →
    ∃ (w : Mem) (f : Frame), exec (.fifoInMsgWrite l data) s =
        .next { s with
          smc := { s.smc with win := w, fifo := f, cur := s.smc.cur + data.length }
          result := .nothing } ∧
      (∀ x, Mem.read w x = overlay s.smc.win (0x80 + l.val) data x) ∧
      ∀ j < 16, frameByte f j =
        if s.smc.cur ≤ j ∧ j < s.smc.cur + data.length then data.getD (j - s.smc.cur) 0
        else frameByte s.smc.fifo j

/-- R162, R190, R196: a write of FIFO_IN_MSG that fills the frame dispatches it exactly once, at its 16th
byte, and the bytes after that start the next frame at cursor 0 over the bytes left there (R194, log
entry 11). -/
def Obligations.FifoInMsgWriteDispatchesFullFrame : Prop :=
  ∀ (s : State) (l : Fin 4) (data : List Byte), pieceFits 4 l.val data.length = true →
    s.smc.cur ≤ 15 → 16 ≤ s.smc.cur + data.length →
    ∃ (w : Mem) (f f' : Frame), exec (.fifoInMsgWrite l data) s =
        .next { s with
          smc := { Smc.ran f { s.smc with win := w, fifo := f, cur := 0 } with
            fifo := f', cur := s.smc.cur + data.length - 16 }
          result := .nothing } ∧
      (∀ x, Mem.read w x = overlay s.smc.win (0x80 + l.val) data x) ∧
      (∀ j < 16, frameByte f j =
        if s.smc.cur ≤ j then data.getD (j - s.smc.cur) 0 else frameByte s.smc.fifo j) ∧
      ∀ j < 16, frameByte f' j =
        if j < s.smc.cur + data.length - 16 then data.getD (16 - s.smc.cur + j) 0
        else frameByte f j

/-- R164, R192: a write of FIFO_IN_STATUS stores its bytes, and with the ready bit set in the merged word
and a frame begun it dispatches that frame as it stands and returns the cursor to 0; with the bit clear, or
with the cursor at 0, nothing happens beyond the store. The ready bit's mask is PRESUMED (the spec's D11 and
G2, log entry 10); that the frame buffer keeps its bytes after the dispatch is the spec's decision D10 (log
entry 11), as is that a flush at cursor 0 does nothing (D9); the merged word is D8 (log entry 24). -/
def Obligations.FifoInStatusWriteFlushes : Prop :=
  ∀ (s : State) (l : Fin 4) (data : List Byte), pieceFits 4 l.val data.length = true →
    ∃ (w : Mem) (v : Word), (∀ x, Mem.read w x = overlay s.smc.win (0x84 + l.val) data x) ∧
      (∀ j < 4, lane v j = Mem.read w (0x84 + j)) ∧
      exec (.fifoInStatusWrite l data) s =
        if v &&& 0x00000004 ≠ 0 ∧ s.smc.cur ≠ 0 then
          .next { s with
            smc := Smc.ran s.smc.fifo { s.smc with win := w, cur := 0 }, result := .nothing }
        else .next { s with smc := { s.smc with win := w }, result := .nothing }

/-- R166: a read of FIFO_OUT_MSG hands out the next word of the head response, whatever lanes are read,
and drops the response after its fourth word; with nothing queued it returns zero and changes nothing. For
either value of FIFO_OUT_DRAINED the drained word is zero or the last word handed out (U1). The word by word
drain and the drop after the fourth word are the spec's decision D13 (log entry 26), the drained zero D13 and
U1 (log entry 11), a whole word taken by a partial read D8 (log entry 24), the words' little-endian lanes D3
(log entry 8). -/
def Obligations.FifoOutMsgReadTakesAWord : Prop :=
  ∀ (s : State) (l : Fin 4) (count : Nat), pieceFits 4 l.val count = true →
    (s.smc.respq = [] →
      exec (.fifoOutMsgRead l count) s =
        .next { s with result := .data (List.replicate count 0) } ∧
      ∀ d : Drained, s.smc.takeWord d =
        (match d with | .zero => 0 | .stale => s.smc.olast, s.smc)) ∧
    ∀ (p : Frame) (rest : List Frame), s.smc.respq = p :: rest →
      (s.smc.ocur = 0 ∨ s.smc.ocur = 4 ∨ s.smc.ocur = 8 ∨ s.smc.ocur = 12) →
      ∃ v : Word, (∀ j < 4, lane v j = frameByte p (s.smc.ocur + j)) ∧
        exec (.fifoOutMsgRead l count) s = .next { s with
          smc := { s.smc with
            respq := if s.smc.ocur = 12 then rest else p :: rest
            ocur := if s.smc.ocur = 12 then 0 else s.smc.ocur + 4
            olast := v }
          result := .data ((List.range count).map fun j =>
            frameByte p (s.smc.ocur + l.val + j)) }

/-- R168: FIFO_OUT_STATUS reads FIFO_OUT_READY_MASK while a response is queued, else 0, and "a status read
does not drain". That it is computed from the queue and drains nothing is the spec's decision D13 (log entry
26), the mask 0x00000004 PRESUMED (D11, G2, log entry 10). -/
def Obligations.FifoOutStatusReadsReady : Prop :=
  ∀ (s : State) (l : Fin 4) (count : Nat), pieceFits 4 l.val count = true →
    exec (.fifoOutStatusRead l count) s = .next { s with
      result := .data ((List.range count).map fun j =>
        lane (if s.smc.respq = [] then 0 else 0x00000004) (l.val + j)) }

/-- R166, R355: from read position 0, four word reads of FIFO_OUT_MSG return the head response's sixteen
bytes in order and leave the responses behind it. Sixteen-byte responses read in four words are the spec's
decision D13 (log entry 26). -/
def Obligations.FourReadsReturnAResponse : Prop :=
  ∀ (s : State) (p : Frame) (rest : List Frame), s.smc.respq = p :: rest → s.smc.ocur = 0 →
    ∃ (t1 t2 t3 t4 : State) (b1 b2 b3 b4 : List Byte),
      exec (.read 0x90 4) s = .next t1 ∧ t1.result = .data b1 ∧
      exec (.read 0x90 4) t1 = .next t2 ∧ t2.result = .data b2 ∧
      exec (.read 0x90 4) t2 = .next t3 ∧ t3.result = .data b3 ∧
      exec (.read 0x90 4) t3 = .next t4 ∧ t4.result = .data b4 ∧
      b1 ++ b2 ++ b3 ++ b4 = p.toList ∧
      t4.smc = { s.smc with respq := rest, ocur := 0, olast := t4.smc.olast }

/-- R131, R132, R133, R139, R140: a piece on one slot is the bus operation on exactly its bytes, for every
named register and for storage; and an operation that spans slots is its pieces one after the other in
ascending order, "each seeing the state left by the one before": cut at any multiple of 4, a Write is the
Write of the first part and then of the second, and a Read likewise, its bytes those of the two in order.
(So a Write over FIFO_IN_MSG and FIFO_IN_STATUS "appends first and tests the ready bit second", R132.) The
cut is the spec's decision D4 (log entry 24). -/
def Obligations.SmcPieceIsBusOperation : Prop :=
  ∀ (s : State),
    (∀ (addr : Nat) (b1 b2 : List Byte), (addr + b1.length) % 4 = 0 →
      ∃ t, exec (.write addr b1) s = .next t ∧
        exec (.write addr (b1 ++ b2)) s = exec (.write (addr + b1.length) b2) t) ∧
    (∀ addr n1 n2 : Nat, (addr + n1) % 4 = 0 →
      ∃ (t u : State) (d1 d2 : List Byte),
        exec (.read addr n1) s = .next t ∧ t.result = .data d1 ∧
        exec (.read (addr + n1) n2) t = .next u ∧ u.result = .data d2 ∧
        exec (.read addr (n1 + n2)) s = .next { u with result := .data (d1 ++ d2) }) ∧
    ∀ (l : Fin 4) (count : Nat) (data : List Byte),
    (pieceFits 4 l.val count = true →
      (∀ r : SmcReg, exec (Instr.smcRead r l count) s = exec (.read (r.offset + l.val) count) s) ∧
      ∀ slot : Fin 64, smcSlotUnnamed slot = true →
        exec (.smcStorageRead slot l count) s = exec (.read (4 * slot.val + l.val) count) s) ∧
    (pieceFits 4 l.val data.length = true →
      (∀ r : SmcReg, exec (Instr.smcWrite r l data) s = exec (.write (r.offset + l.val) data) s) ∧
      ∀ slot : Fin 64, smcSlotUnnamed slot = true →
        exec (.smcStorageWrite slot l data) s = exec (.write (4 * slot.val + l.val) data) s)

/-! ### FIFO commands -/

/-- R199, R202, R203: PWRON_TYPE, QUERY_TRAY and QUERY_AVPACK enqueue one response: the code, the answer,
zeros; nothing else changes. The layout is the spec's decision D16, with the code in byte 0 from general
knowledge (G10, log entry 26). The tray's answer is its code by R39's table, 0x60 to 0x66 in the
source's order of the states (the spec's decision D19, log entry 19). -/
def Obligations.NamedQueriesAnswer : Prop :=
  [Tray.opened, .openRequest, .closed, .opening, .closing, .unknown, .spinup].map Tray.code =
    [0x60, 0x61, 0x62, 0x63, 0x64, 0x65, 0x66] ∧
  ∀ (s : State) (args : Args),
    (∀ i c a, (i = Instr.pwronType args ∧ c = Cmd.pwronType ∧ a = s.smc.pwr) ∨
        (i = .queryTray args ∧ c = .queryTray ∧ a = s.smc.tray.code) ∨
        (i = .queryAvpack args ∧ c = .queryAvpack ∧ a = s.smc.avpack) →
      ∃ p : Frame, exec i s = .next { s with
          smc := { s.smc with respq := s.smc.respq ++ [p] }, result := .nothing } ∧
        frameByte p 0 = c.code ∧ frameByte p 1 = a ∧ ∀ j, 2 ≤ j → j < 16 → frameByte p j = 0)

/-- R200, R201, R204, R205, R207, R208, R209: QUERY_RTC, QUERY_TEMP, I2C_PASSTHROUGH, QUERY_VERSION,
QUERY_IR_ADDR, QUERY_TILT, QUERY_INT_ACK[0] and QUERY_INT_ACK[1] enqueue one response whose byte 0 is the
code (PRESUMED, the spec's G10, log entry 26) and whose bytes 1..15 are RESP_PAYLOAD, a free value (log
entry 5); of the spec's state nothing else changes, and the model's draw counter advances. R206: FIFO_TEST
enqueues SELFTEST_PATTERN, a free value (log entry 7) that depends neither on the frame nor on the state. -/
def Obligations.OpenQueriesEnqueueFreeValues : Prop :=
  ∀ (s : State) (args : Args),
    exec (.fifoTest args) s = .next { s with
      smc := { s.smc with respq := s.smc.respq ++ [Config.selfTestPattern] }, result := .nothing } ∧
    ∀ c ∈ [Cmd.queryRtc, .queryTemp, .i2cPassthrough, .queryVersion, .queryIrAddr, .queryTilt,
      .queryIntAck0, .queryIntAck1],
    ∃ p : Frame, exec (Instr.command c args) s = .next { s with
        smc := { s.smc with respq := s.smc.respq ++ [p], draws := s.smc.draws + 1 }
        result := .nothing } ∧
      frameByte p 0 = c.code ∧
      ∀ j < 15, frameByte p (j + 1) =
        (Config.respPayload s.smc.draws c (frameOf c.code args) s.smc).toList.getD j 0

/-- R198: "Unknown command codes are ignored": the frame's row changes nothing and enqueues nothing, and a
dispatch of a frame whose first byte is no command's code only returns the cursor to 0. That the dispatch
leaves the frame buffer ("the optional clear", R198) is the spec's decision D10 (log entry 11); which bytes
are no command's code follows R112's table (PRESUMED, log entry 12). -/
def Obligations.UnknownCommandChangesNothing : Prop :=
  ∀ code : Byte, (∀ c : Cmd, c.code ≠ code) →
    (∀ (s : State) (args : Args),
      exec (.unknownCommand code args) s = .next { s with result := .nothing }) ∧
    ∀ d : Smc, d.fifo[0] = code → d.fifoDispatch = { d with cur := 0 }

/-- R210 to R213, R215 to R220: the twelve set commands other than SET_DVD_TRAY (SET_STANDBY, SET_TIME,
SET_FAN_ALGORITHM, SET_FAN_SPEED[0], SET_FAN_SPEED[1], SET_POWER_LED, SET_AUDIO_MUTE, SET_IR_ADDR,
SET_RTC_WAKE, SET_ASYNC_OP, SET_INT_ENABLE[0], SET_INT_ENABLE[1]) change nothing and enqueue nothing (the
spec's decision D17, log entry 25). -/
def Obligations.OtherSetCommandsChangeNothing : Prop :=
  ∀ (s : State) (args : Args),
    ∀ c ∈ [Cmd.setStandby, .setTime, .setFanAlgorithm, .setFanSpeed0, .setFanSpeed1, .setPowerLed,
      .setAudioMute, .setIrAddr, .setRtcWake, .setAsyncOp, .setIntEnable0, .setIntEnable1],
    exec (Instr.command c args) s = .next { s with result := .nothing }

/-- R214: SET_DVD_TRAY for every argument and tray state: an open request (0x60) moves CLOSED to
OPEN_REQUEST; a close request (0x62) moves OPEN to CLOSING and OPEN_REQUEST to CLOSED; every other pair
leaves the tray; no response (the spec's decision D18, log entry 19). -/
def Obligations.SetDvdTrayFollowsTheTable : Prop :=
  ∀ (s : State) (args : Args), ∃ u : Tray,
    exec (.setDvdTray args) s =
      .next { s with smc := { s.smc with tray := u }, result := .nothing } ∧
    (args[0] = 0x60 → s.smc.tray = .closed → u = .openRequest) ∧
    (args[0] = 0x62 → s.smc.tray = .opened → u = .closing) ∧
    (args[0] = 0x62 → s.smc.tray = .openRequest → u = .closed) ∧
    (¬(args[0] = 0x60 ∧ s.smc.tray = .closed) → ¬(args[0] = 0x62 ∧ s.smc.tray = .opened) →
      ¬(args[0] = 0x62 ∧ s.smc.tray = .openRequest) → u = s.smc.tray)

/-- R221, R196, R192: from cursor 0, the sixteen bytes of a frame written as four words run its command
exactly once, with the whole frame, and a flush after them dispatches nothing. That the frame buffer keeps
the frame after the dispatch is the spec's decision D10 (log entry 11), the flush word 0x04 the PRESUMED mask
(log entry 10), that a flush at cursor 0 does nothing D9 (log entry 11). What the flush stores in the window
(`w'`) is O20's to say. R196, R198: what a dispatch runs (`Smc.ran`) is "the rule of X with frame F", the very
effect of X's own row for the frame `frameOf` of its code and arguments, and nothing where the code is no
command's (the rows as operations of their own: log entry 3). -/
def Obligations.SendThenFlushDispatchesOnce : Prop :=
  (∀ (s : State) (args : Args),
    (∀ c : Cmd, exec (Instr.command c args) s =
      .next { s with smc := Smc.ran (frameOf c.code args) s.smc, result := .nothing }) ∧
    ∀ code : Byte, (∀ c : Cmd, c.code ≠ code) →
      exec (.unknownCommand code args) s =
        .next { s with smc := Smc.ran (frameOf code args) s.smc, result := .nothing }) ∧
  (∀ (code : Byte) (args : Args), frameByte (frameOf code args) 0 = code ∧
    ∀ j < 15, frameByte (frameOf code args) (j + 1) = args.toList.getD j 0) ∧
  ∀ (s : State) (f : Frame), s.smc.cur = 0 →
    ∃ (t1 t2 t3 t4 t5 : State) (w w' : Mem),
      exec (.write 0x80 ((f.toList.drop 0).take 4)) s = .next t1 ∧
      exec (.write 0x80 ((f.toList.drop 4).take 4)) t1 = .next t2 ∧
      exec (.write 0x80 ((f.toList.drop 8).take 4)) t2 = .next t3 ∧
      exec (.write 0x80 ((f.toList.drop 12).take 4)) t3 = .next t4 ∧
      t4 = { s with
        smc := Smc.ran f { s.smc with win := w, fifo := f, cur := 0 }, result := .nothing } ∧
      (∀ x, x < 0x80 ∨ 0x84 ≤ x → Mem.read w x = Mem.read s.smc.win x) ∧
      exec (.write 0x84 [0x04, 0x00, 0x00, 0x00]) t4 = .next t5 ∧
      t5 = { t4 with smc := { t4.smc with win := w' } }

/-! ### Background agents -/

/-- R241, R242: the tray worker's first two steps: OPEN_REQUEST becomes OPENING, OPENING becomes OPEN, and in
any other tray state the step is not enabled and changes nothing (R244; the step's form is log entry 19's).
R245: in a run that is fair to the worker (the spec's rendering of "bounded", D39, log entry 21), a tray in
OPEN_REQUEST comes to OPENING, or is put to CLOSED by a close request or a reset; a tray in OPENING comes to
OPEN, unless the SMC is reset. -/
def Obligations.TrayOpeningSteps : Prop :=
  (∀ s : State, ∀ x ∈ [(Instr.trayStepOpenRequest, Tray.openRequest, Tray.opening),
      (Instr.trayStepOpening, Tray.opening, Tray.opened)],
    exec x.1 s = .next { s with
      smc := { s.smc with tray := if s.smc.tray = x.2.1 then x.2.2 else s.smc.tray }
      result := .nothing }) ∧
  ∀ (delivered : Nat → List Input) (run : Nat → State), IsRun delivered run → TrayFair delivered run →
    ∀ n : Nat,
      ((run n).smc.tray = .openRequest →
        ∃ m, n ≤ m ∧ ((run m).smc.tray = .opening ∨ (run m).smc.tray = .closed)) ∧
      ((run n).smc.tray = .opening →
        (∃ m, n ≤ m ∧ (run m).smc.tray = .opened) ∨
        ∃ m inputs, n ≤ m ∧ ((run m).deliver (delivered m)).entry = some (.smcReset inputs))

/-- R243: the tray worker's third step: CLOSING becomes CLOSED; in any other tray state nothing changes (the
spec's decision D18, log entry 19). R245: in a run that is fair to the worker (D39, log entry 21), a tray in
CLOSING comes to CLOSED. -/
def Obligations.TrayClosingStep : Prop :=
  (∀ s : State, exec .trayStepClosing s = .next { s with
    smc := { s.smc with tray := if s.smc.tray = .closing then .closed else s.smc.tray }
    result := .nothing }) ∧
  ∀ (delivered : Nat → List Input) (run : Nat → State), IsRun delivered run → TrayFair delivered run →
    ∀ n : Nat, (run n).smc.tray = .closing → ∃ m, n ≤ m ∧ (run m).smc.tray = .closed

/-- R246: a receive bridge step overwrites UART_IN and UART_STATUS with the two words it brings and
changes nothing else (the spec's decision D21, log entry 29; little-endian lanes D3, log entry 8). -/
def Obligations.UartReceiveStoresTwoWords : Prop :=
  ∀ (s : State) (d st : Word), ∃ w : Mem,
    exec (.uartRx d st) s =
      .next { s with smc := { s.smc with win := w }, result := .nothing } ∧
    ∀ x, Mem.read w x =
      if 0x10 ≤ x ∧ x < 0x14 then lane d (x - 0x10)
      else if 0x18 ≤ x ∧ x < 0x1C then lane st (x - 0x18)
      else Mem.read s.smc.win x

/-! ### The IIC register port -/

/-- Shadow reads (R265): WHOAMI, CURRENT_TSK_PRI, IPI_DISPATCH_0, ACK_SET_CPU_CURRENT_TSK_PRI, EOI,
EOI_SET_CPU_CURRENT_TSK_PRI and INT_MCACK return the register's big-endian lanes and change no state. That
reads of 0x08 and 0x58 do not acknowledge and that these registers read back the last value are the spec's
decisions D26 and D44 (log entry 17) and D29 and D30 (log entry 25). R12: `blane(v, j)` is
`(v div 256^(7-j)) mod 256`, the big-endian lanes of eight bytes of the spec's decision D24 (log entry 9). -/
def Obligations.ShadowReadsReturnTheRegister : Prop :=
  (∀ (v : DWord) (j : Nat), j < 8 → (blane v j).toNat = v.toNat / 256 ^ (7 - j) % 256) ∧
  ∀ (s : State) (c : Fin 6) (l : Fin 8) (count : Nat), pieceFits 8 l.val count = true →
    ∀ r ∈ [IicReg.whoami, .currentTskPri, .ipiDispatch0, .ackSetPri, .eoi, .eoiSetPri, .mcack],
      exec (Instr.iicRead r c l count) s = .next { s with
        result := .data ((List.range count).map fun j =>
          blane ((s.iic.block c).get r) (l.val + j)) }

/-- Shadow writes (R266): WHOAMI, CURRENT_TSK_PRI, IPI_DISPATCH_0, ACK, ACK_SET_CPU_CURRENT_TSK_PRI and
INT_MCACK take the written lanes and keep the others; no other register, queue, flag or block changes. That a
write of IPI_DISPATCH_0, or of the others, only stores is the spec's decisions D29 and D30 (log entry 25) and,
for ACK, D44 (log entry 17). -/
def Obligations.ShadowWritesMergeTheLanes : Prop :=
  ∀ (s : State) (c : Fin 6) (l : Fin 8) (data : List Byte), pieceFits 8 l.val data.length = true →
    ∀ r ∈ [IicReg.whoami, .currentTskPri, .ipiDispatch0, .ack, .ackSetPri, .mcack],
      ∃ v : DWord,
        exec (Instr.iicWrite r c l data) s = .next { s with
          iic := s.iic.setBlock c ((s.iic.block c).set r v), result := .nothing } ∧
        ∀ j < 8, blane v j =
          if l.val ≤ j ∧ j < l.val + data.length then data.getD (j - l.val) 0
          else blane ((s.iic.block c).get r) j

/-- R270: an ACK read marks the best PENDING record of its block ACKED, latches the record's type
zero-extended into ACK and returns lanes of it; with none PENDING it latches and returns NONE_ID. Nothing
else changes, the signal flag among it. That the read of 0x50 acknowledges a record not yet ACKED and NONE_ID
0x7C are the spec's decisions D26 and D27 (log entry 17), the lanes D24 (log entry 9). -/
def Obligations.AckReadAcknowledgesBestPending : Prop :=
  ∀ (s : State) (c : Fin 6) (l : Fin 8) (count : Nat), pieceFits 8 l.val count = true →
    (∀ i r, IsBest IntRecord.pending (s.iic.block c).q i r →
      exec (.ackRead c l count) s = .next { s with
        iic := s.iic.setBlock c
          { (s.iic.block c) with
            q := (s.iic.block c).q.set i { r with ack := true }
            regs := { (s.iic.block c).regs with ack := r.type.setWidth 64 } }
        result := .data ((List.range count).map fun j =>
          blane (r.type.setWidth 64) (l.val + j)) }) ∧
    ((∀ r ∈ (s.iic.block c).q, r.ack = true) →
      exec (.ackRead c l count) s = .next { s with
        iic := s.iic.setBlock c
          { (s.iic.block c) with
            regs := { (s.iic.block c).regs with ack := 0x7C } }
        result := .data ((List.range count).map fun j => blane 0x7C (l.val + j)) })

/-- R273: an EOI write stores its lanes and removes the best ACKED record of its block, whatever the value
written, clearing the signal flag if the queue is then empty; with none ACKED it only stores. Which ACKED
record goes (least priority value, earliest among equals, whatever is written) is the spec's decision D28
(U14, log entries 17, 20), the lanes D24 (log entry 9). -/
def Obligations.EoiWriteRemovesBestAcked : Prop :=
  ∀ (s : State) (c : Fin 6) (l : Fin 8) (data : List Byte), pieceFits 8 l.val data.length = true →
    ∃ v : DWord,
      (∀ j < 8, blane v j =
        if l.val ≤ j ∧ j < l.val + data.length then data.getD (j - l.val) 0
        else blane (s.iic.block c).regs.eoi j) ∧
      (∀ i r, IsBest IntRecord.ack (s.iic.block c).q i r →
        exec (.eoiWrite c l data) s = .next { s with
          iic := s.iic.setBlock c
            { regs := { (s.iic.block c).regs with eoi := v }
              q := (s.iic.block c).q.eraseIdx i
              sig := if (s.iic.block c).q.eraseIdx i = [] then false else (s.iic.block c).sig }
          result := .nothing }) ∧
      ((∀ r ∈ (s.iic.block c).q, r.ack = false) →
        exec (.eoiWrite c l data) s = .next { s with
          iic := s.iic.setBlock c
            { (s.iic.block c) with regs := { (s.iic.block c).regs with eoi := v } }
          result := .nothing })

/-- R275: an EOI_SET_CPU_CURRENT_TSK_PRI write does an end of interrupt and copies the merged value to
CURRENT_TSK_PRI, "whether or not a record was removed". That a write of 0x68 does so is the spec's decision D28
(log entry 17), as is which ACKED record goes (U14, log entry 20); the lanes are D24 (log entry 9). -/
def Obligations.EoiSetWriteAlsoSetsTaskPriority : Prop :=
  ∀ (s : State) (c : Fin 6) (l : Fin 8) (data : List Byte), pieceFits 8 l.val data.length = true →
    ∃ v : DWord,
      (∀ j < 8, blane v j =
        if l.val ≤ j ∧ j < l.val + data.length then data.getD (j - l.val) 0
        else blane (s.iic.block c).regs.eoiSetPri j) ∧
      (∀ i r, IsBest IntRecord.ack (s.iic.block c).q i r →
        exec (.eoiSetPriWrite c l data) s = .next { s with
          iic := s.iic.setBlock c
            { regs := { (s.iic.block c).regs with eoiSetPri := v, currentTskPri := v }
              q := (s.iic.block c).q.eraseIdx i
              sig := if (s.iic.block c).q.eraseIdx i = [] then false else (s.iic.block c).sig }
          result := .nothing }) ∧
      ((∀ r ∈ (s.iic.block c).q, r.ack = false) →
        exec (.eoiSetPriWrite c l data) s = .next { s with
          iic := s.iic.setBlock c
            { (s.iic.block c) with
              regs := { (s.iic.block c).regs with eoiSetPri := v, currentTskPri := v } }
          result := .nothing })

/-- R264: at an unnamed block offset a read piece returns 0x00 bytes and a write piece is dropped (the spec's
decision D25, log entry 18). -/
def Obligations.UnnamedBlockOffsetsHoldNothing : Prop :=
  ∀ (s : State) (c : Fin 6) (slot : Fin 512) (l : Fin 8), iicSlotUnnamed slot = true →
    (∀ count, pieceFits 8 l.val count = true →
      exec (.iicUnnamedRead c slot l count) s =
        .next { s with result := .data (List.replicate count 0x00) }) ∧
    ∀ data : List Byte, pieceFits 8 l.val data.length = true →
      exec (.iicUnnamedWrite c slot l data) s = .next { s with result := .nothing }

/-- R261, R262, R263: a piece on one IIC slot is the port operation on exactly its bytes; and an operation
that spans slots is its pieces one after the other in ascending order: cut at any multiple of 8, a
writeInterrupt is that of the first part and then of the second, and a readInterrupt likewise, its bytes
those of the two in order. (So sixteen bytes over 0x60 and 0x68 perform two ends of interrupt, R263.) The cut
is the spec's decision D4 (log entry 24), the stride PRESUMED (log entry 18). -/
def Obligations.IicPieceIsPortOperation : Prop :=
  ∀ (s : State),
    (∀ (addr : Nat) (b1 b2 : List Byte), (addr + b1.length) % 8 = 0 →
      ∃ t, exec (.writeInterrupt addr b1) s = .next t ∧
        exec (.writeInterrupt addr (b1 ++ b2)) s = exec (.writeInterrupt (addr + b1.length) b2) t) ∧
    (∀ addr n1 n2 : Nat, (addr + n1) % 8 = 0 →
      ∃ (t u : State) (d1 d2 : List Byte),
        exec (.readInterrupt addr n1) s = .next t ∧ t.result = .data d1 ∧
        exec (.readInterrupt (addr + n1) n2) t = .next u ∧ u.result = .data d2 ∧
        exec (.readInterrupt addr (n1 + n2)) s = .next { u with result := .data (d1 ++ d2) }) ∧
    ∀ (c : Fin 6) (l : Fin 8) (count : Nat) (data : List Byte),
    (pieceFits 8 l.val count = true →
      (∀ r : IicReg, exec (Instr.iicRead r c l count) s =
        exec (.readInterrupt (0x1000 * c.val + r.offset + l.val) count) s) ∧
      ∀ slot : Fin 512, iicSlotUnnamed slot = true →
        exec (.iicUnnamedRead c slot l count) s =
          exec (.readInterrupt (0x1000 * c.val + 8 * slot.val + l.val) count) s) ∧
    (pieceFits 8 l.val data.length = true →
      (∀ r : IicReg, exec (Instr.iicWrite r c l data) s =
        exec (.writeInterrupt (0x1000 * c.val + r.offset + l.val) data) s) ∧
      ∀ slot : Fin 512, iicSlotUnnamed slot = true →
        exec (.iicUnnamedWrite c slot l data) s =
          exec (.writeInterrupt (0x1000 * c.val + 8 * slot.val + l.val) data) s)

/-- R262: a readInterrupt returns `len` bytes: the big-endian lanes of every register but ACK as they were
before, 0x00 at unnamed block offsets (R264) and beyond the space (R83); it changes only the blocks whose
ACK slot it touches, and there only ACK and the records' ack flags. The zeros and the stride 0x1000 are log
entry 18's (the spec's D5, D25; PRESUMED, G4), the big-endian lanes (`blane`, O46) log entry 9's (D24),
that only ACK acknowledges log entry 17's (D26). -/
def Obligations.ReadInterruptReturnsRegisters : Prop :=
  ∀ (s : State) (addr len : Nat), ∃ (i' : Iic) (bytes : List Byte),
    exec (.readInterrupt addr len) s = .next { s with iic := i', result := .data bytes } ∧
    bytes.length = len ∧ i'.trace = s.iic.trace ∧
    (∀ (c : Fin 6) (r : IicReg) (l : Nat), l < 8 → r ≠ .ack → ∀ j < len,
      addr + j = 0x1000 * c.val + r.offset + l →
        bytes.getD j 0 = blane ((s.iic.block c).get r) l) ∧
    (∀ j < len, 0x6000 ≤ addr + j ∨ (∀ r : IicReg,
        (addr + j) % 0x1000 < r.offset ∨ r.offset + 8 ≤ (addr + j) % 0x1000) →
      bytes.getD j 0 = 0x00) ∧
    (∀ c : Fin 6,
      (∀ x, addr ≤ x → x < addr + len → x < 0x1000 * c.val + 0x50 ∨ 0x1000 * c.val + 0x58 ≤ x) →
      i'.block c = s.iic.block c) ∧
    ∀ c : Fin 6, (i'.block c).sig = (s.iic.block c).sig ∧
      (i'.block c).q.map (fun r => (r.type, r.prio)) =
        (s.iic.block c).q.map (fun r => (r.type, r.prio)) ∧
      ∀ r : IicReg, r ≠ .ack → (i'.block c).get r = (s.iic.block c).get r

/-- R263: a writeInterrupt lays its in-range bytes over the registers, lane by lane (CURRENT_TSK_PRI
excepted where the write touches EOI_SET_CPU_CURRENT_TSK_PRI, R275), drops the rest (R264, R83), and
removes records only from blocks whose EOI or EOI_SET_CPU_CURRENT_TSK_PRI slot it touches. The stride and
the dropped bytes are log entry 18's (the spec's D25; PRESUMED, G4), the big-endian lanes log entry 9's (D24),
the end of interrupt and the copy by a write of 0x68 log entry 17's (D28). -/
def Obligations.WriteInterruptLaysBytesOverRegisters : Prop :=
  ∀ (s : State) (addr : Nat) (data : List Byte), ∃ i' : Iic,
    exec (.writeInterrupt addr data) s = .next { s with iic := i', result := .nothing } ∧
    i'.trace = s.iic.trace ∧
    (∀ (c : Fin 6) (r : IicReg) (l : Nat), l < 8 →
      (r = .currentTskPri → ∀ x, addr ≤ x → x < addr + data.length →
        x < 0x1000 * c.val + 0x68 ∨ 0x1000 * c.val + 0x70 ≤ x) →
      blane ((i'.block c).get r) l =
        if addr ≤ 0x1000 * c.val + r.offset + l ∧
            0x1000 * c.val + r.offset + l < addr + data.length then
          data.getD (0x1000 * c.val + r.offset + l - addr) 0
        else blane ((s.iic.block c).get r) l) ∧
    ∀ c : Fin 6,
      (∀ x, addr ≤ x → x < addr + data.length →
        x < 0x1000 * c.val + 0x60 ∨ 0x1000 * c.val + 0x70 ≤ x) →
      (i'.block c).q = (s.iic.block c).q ∧ (i'.block c).sig = (s.iic.block c).sig

/-- R280: a register operation on block `c` reads and writes only that block: every other block is
unchanged, and two states that agree on block `c` give the same result and the same block `c`. -/
def Obligations.RegisterOperationsStayInTheirBlock : Prop :=
  ∀ (s s' : State) (c : Fin 6) (r : IicReg) (l : Fin 8) (count : Nat) (data : List Byte),
    s.iic.block c = s'.iic.block c →
    ∀ i ∈ [Instr.iicRead r c l count, Instr.iicWrite r c l data],
      ∃ t t', exec i s = .next t ∧ exec i s' = .next t' ∧ t.result = t'.result ∧
        t.iic.block c = t'.iic.block c ∧
        ∀ c' : Fin 6, c' ≠ c → t.iic.block c' = s.iic.block c'

/-- R278, R270, R273: on a core whose records are all PENDING, an ACK read and then an EOI write remove
exactly the record acknowledged, leave the others PENDING, and clear the signal flag if none is left. Which
accesses acknowledge and end, and which record goes, are the spec's decisions D26 and D28 (log entries 17,
20). -/
def Obligations.AckThenEoiRemovesThatRecord : Prop :=
  ∀ (s : State) (c : Fin 6) (i : Nat) (r : IntRecord),
    (∀ m ∈ (s.iic.block c).q, m.ack = false) →
    IsBest IntRecord.pending (s.iic.block c).q i r →
    ∃ t u, exec (.ackRead c 0 8) s = .next t ∧
      exec (.eoiWrite c 0 (List.replicate 8 0)) t = .next u ∧
      (u.iic.block c).q = (s.iic.block c).q.eraseIdx i ∧
      (u.iic.block c).sig =
        if (s.iic.block c).q.eraseIdx i = [] then false else (s.iic.block c).sig

/-! ### The IIC request port -/

/-- R300, R301: genInterrupt appends a PENDING record to every selected core's queue, raises its signal
flag, and emits `LineAssert` for each selected core whose flag was not raised, in ascending order; cores
not selected are unchanged. The mask's bits and the ascending order are the spec's decisions D31 and D43 (log
entry 20). -/
def Obligations.GenInterruptQueuesOnSelectedCores : Prop :=
  ∀ (s : State) (type : Byte) (coreMask : Nat), ∃ i' : Iic,
    exec (.genInterrupt type coreMask) s = .next { s with iic := i', result := .nothing } ∧
    (∀ c : Fin 6, i'.block c =
      if coreMask.testBit c.val then
        { (s.iic.block c) with
          q := (s.iic.block c).q ++ [⟨type, Config.prio type, false⟩]
          sig := true }
      else s.iic.block c) ∧
    i'.trace = s.iic.trace ++
      (([0, 1, 2, 3, 4, 5] : List (Fin 6)).filter fun c =>
        coreMask.testBit c.val && !(s.iic.block c).sig).map IicEvent.lineAssert

/-- R302: cancelInterrupt removes, on every selected core, the earliest PENDING record of the type, and
clears the signal flag if the queue is then empty; where there is none it does nothing; no event. The mask's
bits and which record goes are the spec's decisions D31 and D32 (log entry 20). -/
def Obligations.CancelInterruptRemovesEarliestPending : Prop :=
  ∀ (s : State) (type : Byte) (coreMask : Nat), ∃ i' : Iic,
    exec (.cancelInterrupt type coreMask) s = .next { s with iic := i', result := .nothing } ∧
    i'.trace = s.iic.trace ∧
    ∀ c : Fin 6,
      (coreMask.testBit c.val = false → i'.block c = s.iic.block c) ∧
      (coreMask.testBit c.val = true →
        (∀ j, IsFirstPending type (s.iic.block c).q j →
          i'.block c = { (s.iic.block c) with
            q := (s.iic.block c).q.eraseIdx j
            sig := if (s.iic.block c).q.eraseIdx j = [] then false else (s.iic.block c).sig }) ∧
        ((∀ r ∈ (s.iic.block c).q, r.type = type → r.ack = true) →
          i'.block c = s.iic.block c))

/-- R303: checkExtInterrupt is true exactly for a core below 6 with an unacknowledged record; no state
changes. False for a core of 6 or more is "the spec's choice" (D31, log entry 20). -/
def Obligations.CheckExtInterruptSeesPending : Prop :=
  ∀ (s : State) (coreID : Nat), ∃ b : Bool,
    exec (.checkExtInterrupt coreID) s = .next { s with result := .flag b } ∧
    (b = true ↔ ∃ h : coreID < 6, ∃ r ∈ (s.iic.block ⟨coreID, h⟩).q, r.ack = false)

/-- R90: genInterrupt calls, in whatever order they are serialised, leave exactly one PENDING record on a
core for each call that selects it: "no lost or duplicated interrupts". Which bit of a call's mask selects a
core is the spec's decision D31 (log entry 20). -/
def Obligations.GenInterruptsLoseNothing : Prop :=
  ∀ (calls : List (Byte × Nat)) (i : Iic) (c : Fin 6),
    ((calls.foldl (fun j k => Iic.gen k.1 k.2 j) i).block c).q =
      (i.block c).q ++ (calls.filter fun k => k.2.testBit c.val).map fun k =>
        ⟨k.1, Config.prio k.1, false⟩
end

