-- ==== Sys2Proof/Laws/Bytes.lean ====
section
/-! SUPPORT. Byte order: a lane of an assembled word is the byte put there, and lane by lane what merging
a piece into a register does. -/

namespace Sys2Proof

/-- A lane as a number: "(w div 256^i) mod 256" (R12). -/
theorem lane_toNat (w : Word) (j : Nat) : (lane w j).toNat = w.toNat / 256 ^ j % 256 := by
  rw [lane, BitVec.extractLsb'_toNat, Nat.shiftRight_eq_div_pow, Nat.pow_mul]

/-- A big-endian lane as a number: "(v div 256^(7-i)) mod 256" (R12). -/
theorem blane_toNat (v : DWord) (j : Nat) : (blane v j).toNat = v.toNat / 256 ^ (7 - j) % 256 := by
  rw [blane, BitVec.extractLsb'_toNat, Nat.shiftRight_eq_div_pow, Nat.pow_mul]

/-- A lane of a word assembled from four bytes. -/
theorem lane_word (b0 b1 b2 b3 : Byte) :
    lane (word b0 b1 b2 b3) 0 = b0 ∧ lane (word b0 b1 b2 b3) 1 = b1 ∧
      lane (word b0 b1 b2 b3) 2 = b2 ∧ lane (word b0 b1 b2 b3) 3 = b3 := by
  refine ⟨?_, ?_, ?_, ?_⟩ <;>
  · apply BitVec.eq_of_getLsbD_eq
    intro i hi
    simp only [lane, word, BitVec.getLsbD_extractLsb', BitVec.getLsbD_append]
    have : i = 0 ∨ i = 1 ∨ i = 2 ∨ i = 3 ∨ i = 4 ∨ i = 5 ∨ i = 6 ∨ i = 7 := by omega
    rcases this with rfl | rfl | rfl | rfl | rfl | rfl | rfl | rfl <;> simp

@[simp] theorem wordBytes_word (b0 b1 b2 b3 : Byte) :
    wordBytes (word b0 b1 b2 b3) = [b0, b1, b2, b3] := by
  obtain ⟨h0, h1, h2, h3⟩ := lane_word b0 b1 b2 b3
  simp [wordBytes, h0, h1, h2, h3]

@[simp] theorem wordBytes_length (w : Word) : (wordBytes w).length = 4 := rfl

/-- "word(lane(w,0), lane(w,1), lane(w,2), lane(w,3)) = w" (R12). -/
theorem word_lanes (w : Word) : word (lane w 0) (lane w 1) (lane w 2) (lane w 3) = w := by
  apply BitVec.eq_of_getLsbD_eq
  intro i hi
  simp only [lane, word, BitVec.getLsbD_extractLsb', BitVec.getLsbD_append]
  by_cases h1 : i < 8
  · simp [h1]
  · by_cases h2 : i - 8 < 8
    · simp [h1, h2]; congr 1; omega
    · by_cases h3 : i - 8 - 8 < 8
      · simp [h1, h2, h3]; congr 1; omega
      · have h4 : i - 8 - 8 - 8 < 8 := by omega
        simp [h1, h2, h3, h4]; congr 1; omega

/-- Two words with the same four bytes are the same word. -/
theorem word_ext (v w : Word) (h : ∀ j < 4, lane v j = lane w j) : v = w := by
  rw [← word_lanes v, ← word_lanes w, h 0 (by omega), h 1 (by omega), h 2 (by omega),
    h 3 (by omega)]

@[simp] theorem valBytes_length (v : DWord) : (valBytes v).length = 8 := rfl

theorem valBytes_getElem? (v : DWord) (j : Nat) :
    (valBytes v)[j]? = if j < 8 then some (blane v j) else none := by
  by_cases h : j < 8
  · have : j = 0 ∨ j = 1 ∨ j = 2 ∨ j = 3 ∨ j = 4 ∨ j = 5 ∨ j = 6 ∨ j = 7 := by omega
    rcases this with rfl | rfl | rfl | rfl | rfl | rfl | rfl | rfl <;> rfl
  · simp [h]

theorem wordBytes_getElem? (w : Word) (j : Nat) :
    (wordBytes w)[j]? = if j < 4 then some (lane w j) else none := by
  by_cases h : j < 4
  · have : j = 0 ∨ j = 1 ∨ j = 2 ∨ j = 3 := by omega
    rcases this with rfl | rfl | rfl | rfl <;> rfl
  · simp [h]

/-- A lane of a register value assembled from eight bytes. -/
theorem blane_val (bs : List Byte) (j : Nat) (hj : j < 8) : blane (val bs) j = bs.getD j 0 := by
  apply BitVec.eq_of_getLsbD_eq
  intro i hi
  simp only [blane, val, BitVec.getLsbD_extractLsb', BitVec.getLsbD_append]
  have hj' : j = 0 ∨ j = 1 ∨ j = 2 ∨ j = 3 ∨ j = 4 ∨ j = 5 ∨ j = 6 ∨ j = 7 := by omega
  have hi' : i = 0 ∨ i = 1 ∨ i = 2 ∨ i = 3 ∨ i = 4 ∨ i = 5 ∨ i = 6 ∨ i = 7 := by omega
  rcases hj' with rfl | rfl | rfl | rfl | rfl | rfl | rfl | rfl <;>
    rcases hi' with rfl | rfl | rfl | rfl | rfl | rfl | rfl | rfl <;> simp

/-- Two register values with the same eight bytes are the same value. -/
theorem dword_ext (v w : DWord) (h : ∀ j < 8, blane v j = blane w j) : v = w := by
  apply BitVec.eq_of_getLsbD_eq
  intro i hi
  have hb := congrArg (fun b : Byte => b.getLsbD (i % 8)) (h (7 - i / 8) (by omega))
  have h1 : 7 - (7 - i / 8) = i / 8 := by omega
  have h2 : i % 8 < 8 := by omega
  have h3 : 8 * (i / 8) + i % 8 = i := by omega
  simpa [blane, BitVec.getLsbD_extractLsb', h1, h2, h3] using hb

/-- A spliced list, position by position. -/
theorem splice_getElem? (old : List Byte) (l : Nat) (new : List Byte) (j : Nat)
    (hl : l + new.length ≤ old.length) :
    (splice old l new)[j]? =
      if l ≤ j ∧ j < l + new.length then new[j - l]? else old[j]? := by
  unfold splice
  have ht : (old.take l).length = l := by simp; omega
  by_cases h1 : j < l
  · have : ¬(l ≤ j ∧ j < l + new.length) := by omega
    rw [if_neg this, List.append_assoc, List.getElem?_append_left (by omega)]
    simp [h1]
  · by_cases h2 : j < l + new.length
    · rw [if_pos ⟨by omega, h2⟩, List.getElem?_append_left (by simp; omega),
        List.getElem?_append_right (by omega), ht]
    · have : ¬(l ≤ j ∧ j < l + new.length) := by omega
      rw [if_neg this, List.getElem?_append_right (by simp; omega), List.getElem?_drop]
      congr 1
      simp
      omega

/-- Merging a piece into a register, lane by lane (R263). -/
theorem blane_mergeLanes (v : DWord) (l : Nat) (d : List Byte) (j : Nat) (hj : j < 8)
    (hl : l + d.length ≤ 8) :
    blane (Machine.mergeLanes v l d) j =
      if l ≤ j ∧ j < l + d.length then d.getD (j - l) 0 else blane v j := by
  unfold Machine.mergeLanes
  rw [blane_val _ _ hj, List.getD, splice_getElem? _ _ _ _ (by simpa using hl)]
  by_cases h : l ≤ j ∧ j < l + d.length
  · rw [if_pos h, if_pos h, List.getD]
  · rw [if_neg h, if_neg h, valBytes_getElem?, if_pos hj]
    rfl

/-- The lanes of a word's bytes (R140). -/
theorem lanes_wordBytes (w : Word) (l k : Nat) (h : l + k ≤ 4) :
    lanes (wordBytes w) l k = (List.range k).map fun j => lane w (l + j) := by
  apply List.ext_getElem?
  intro j
  unfold lanes
  rw [List.getElem?_take, List.getElem?_drop, wordBytes_getElem?, List.getElem?_map]
  by_cases hj : j < k
  · rw [if_pos hj, if_pos (by omega), List.getElem?_range hj]
    rfl
  · have : (List.range k)[j]? = none := by simp; omega
    rw [if_neg hj, this]
    rfl

/-- The lanes of a register value's bytes (R262). -/
theorem lanes_valBytes (v : DWord) (l k : Nat) (h : l + k ≤ 8) :
    lanes (valBytes v) l k = (List.range k).map fun j => blane v (l + j) := by
  apply List.ext_getElem?
  intro j
  unfold lanes
  rw [List.getElem?_take, List.getElem?_drop, valBytes_getElem?, List.getElem?_map]
  by_cases hj : j < k
  · rw [if_pos hj, if_pos (by omega), List.getElem?_range hj]
    rfl
  · have : (List.range k)[j]? = none := by simp; omega
    rw [if_neg hj, this]
    rfl

end Sys2Proof
end

