-- ==== Sys2Proof/Laws/Decode.lean ====
section
/-! SUPPORT. Reading back what the encoder writes: naturals, the offset and code tables, the address bytes
of a piece. -/

namespace Sys2Proof

theorem byte_ofNat_toNat (n : Nat) : (BitVec.ofNat 8 n : Byte).toNat = n % 256 := BitVec.toNat_ofNat n 8

/-- A natural written and read back, whatever follows. -/
theorem decodeNat_encodeNatFuel (fuel n : Nat) (rest : List Byte) (h : n < 128 * 128 ^ fuel) :
    decodeNat (encodeNatFuel fuel n ++ rest) = some (n, rest) := by
  induction fuel generalizing n with
  | zero =>
    have : n < 128 := by simpa using h
    have h1 : n % 256 = n := Nat.mod_eq_of_lt (by omega)
    simp [encodeNatFuel, decodeNat, h1, this]
  | succ fuel ih =>
    unfold encodeNatFuel
    split
    · next hn =>
      have h1 : n % 256 = n := Nat.mod_eq_of_lt (by omega)
      simp [decodeNat, h1, hn]
    · next hn =>
      have hdiv : n / 128 < 128 * 128 ^ fuel := by
        rw [Nat.div_lt_iff_lt_mul (by omega)]
        calc n < 128 * 128 ^ (fuel + 1) := h
          _ = 128 * 128 ^ fuel * 128 := by rw [Nat.pow_succ, Nat.mul_assoc]
      have hm : n % 128 < 128 := Nat.mod_lt _ (by omega)
      have h1 : (128 + n % 128) % 256 = 128 + n % 128 := Nat.mod_eq_of_lt (by omega)
      have h2 : ¬(128 + n % 128 < 128) := by omega
      simp only [List.cons_append, decodeNat, byte_ofNat_toNat, h1, if_neg h2, ih _ hdiv]
      congr 2
      omega

@[simp] theorem decodeNat_encodeNat (n : Nat) (rest : List Byte) :
    decodeNat (encodeNat n ++ rest) = some (n, rest) := by
  apply decodeNat_encodeNatFuel
  have h : n < 128 ^ n := Nat.lt_pow_self (by omega)
  omega

@[simp] theorem takeNat_encodeNat (n : Nat) (rest : List Byte) (go : Nat → List Byte → Decoded) :
    takeNat (encodeNat n ++ rest) go = go n rest := by
  simp [takeNat]

@[simp] theorem takeNat_encodeNat_end (n : Nat) (go : Nat → List Byte → Decoded) :
    takeNat (encodeNat n) go = go n [] := by
  simpa using takeNat_encodeNat n [] go

/-! ### The tables (R24, R45, R112) -/

theorem SmcReg.ofOffset_offset (r : SmcReg) : SmcReg.ofOffset r.offset = some r := by
  cases r <;> decide

theorem IicReg.ofOffset_offset (r : IicReg) : IicReg.ofOffset r.offset = some r := by
  cases r <;> decide

theorem Cmd.ofCode_code (c : Cmd) : Cmd.ofCode c.code = some c := by
  cases c <;> decide

theorem SmcReg.offset_of_ofOffset {s : Nat} {r : SmcReg} (h : SmcReg.ofOffset s = some r) :
    r.offset = s := by
  simpa using List.find?_some h

theorem IicReg.offset_of_ofOffset {s : Nat} {r : IicReg} (h : IicReg.ofOffset s = some r) :
    r.offset = s := by
  simpa using List.find?_some h

theorem Cmd.code_of_ofCode {b : Byte} {c : Cmd} (h : Cmd.ofCode b = some c) : c.code = b := by
  simpa using List.find?_some h

/-- A slot is unnamed exactly when it is no register's offset (R104). -/
theorem SmcReg.ofOffset_eq_none (s : Nat) :
    SmcReg.ofOffset s = none ↔ ∀ r : SmcReg, s ≠ r.offset := by
  constructor
  · intro h r hr
    rw [hr, SmcReg.ofOffset_offset] at h
    exact absurd h (by simp)
  · intro h
    cases hs : SmcReg.ofOffset s with
    | none => rfl
    | some r => exact absurd (SmcReg.offset_of_ofOffset hs).symm (h r)

theorem IicReg.ofOffset_eq_none (s : Nat) :
    IicReg.ofOffset s = none ↔ ∀ r : IicReg, s ≠ r.offset := by
  constructor
  · intro h r hr
    rw [hr, IicReg.ofOffset_offset] at h
    exact absurd h (by simp)
  · intro h
    cases hs : IicReg.ofOffset s with
    | none => rfl
    | some r => exact absurd (IicReg.offset_of_ofOffset hs).symm (h r)

/-- A code is unknown exactly when it is no command's (R113). -/
theorem Cmd.ofCode_eq_none (b : Byte) : Cmd.ofCode b = none ↔ ∀ c : Cmd, c.code ≠ b := by
  constructor
  · intro h c hc
    rw [← hc, Cmd.ofCode_code] at h
    exact absurd h (by simp)
  · intro h
    cases hb : Cmd.ofCode b with
    | none => rfl
    | some c => exact absurd (Cmd.code_of_ofCode hb) (h c)

/-- A named SMC slot lies in the window and starts at a multiple of 4 (R24, R71). -/
theorem SmcReg.offset_range (r : SmcReg) : r.offset % 4 = 0 ∧ r.offset + 4 ≤ 0x100 := by
  cases r <;> decide

/-- A named IIC slot lies in its block and starts at a multiple of 8 (R45, R73). -/
theorem IicReg.offset_range (r : IicReg) : r.offset % 8 = 0 ∧ r.offset + 8 ≤ 0x1000 := by
  cases r <;> decide

end Sys2Proof
end

