-- ==== Sys2Proof/Laws/Queue.lean ====
section
/-! SUPPORT. What selecting the best record answers (spec/00_scope.md R15). -/

namespace Sys2Proof.Machine

/-- `best` answers nothing exactly where no record satisfies the predicate. -/
theorem best_eq_none (p : IntRecord → Bool) (q : List IntRecord) :
    best p q = none ↔ ∀ r ∈ q, p r = false := by
  induction q with
  | nil => simp [best]
  | cons r q ih =>
    cases hb : best p q with
    | none =>
      have hq := ih.mp hb
      by_cases hp : p r = true <;> simp_all [best]
    | some jm =>
      obtain ⟨j, m⟩ := jm
      have hq : ¬∀ r ∈ q, p r = false := fun h => by simp [ih.mpr h] at hb
      have hne : best p (r :: q) ≠ none := by
        simp only [best, hb]
        split <;> simp
      constructor
      · intro h
        exact absurd h hne
      · intro h
        exact absurd (fun r hr => h r (by simp [hr])) hq

/-- There is at most one best record. -/
theorem IsBest.unique {p : IntRecord → Bool} {q : List IntRecord} {i j : Nat} {r m : IntRecord}
    (h : IsBest p q i r) (h' : IsBest p q j m) : i = j ∧ r = m := by
  have a := h.2.2 j m h'.1 h'.2.1
  have b := h'.2.2 i r h.1 h.2.1
  have hij : i = j := by omega
  subst hij
  have := h.1.symm.trans h'.1
  exact ⟨rfl, by simpa using this⟩

/-- What `best` answers is best. -/
theorem best_isBest (p : IntRecord → Bool) (q : List IntRecord) (i : Nat) (r : IntRecord)
    (h : best p q = some (i, r)) : IsBest p q i r := by
  induction q generalizing i r with
  | nil => simp [best] at h
  | cons r0 q ih =>
    simp only [best] at h
    cases hb : best p q with
    | none =>
      rw [hb] at h
      have hq := (best_eq_none p q).mp hb
      by_cases hp : p r0 = true
      · simp only [hp, if_true, Option.some.injEq, Prod.mk.injEq] at h
        obtain ⟨rfl, rfl⟩ := h
        refine ⟨rfl, hp, fun j r' hj hr' => ?_⟩
        cases j with
        | zero => right; simp at hj; simp [hj]
        | succ j =>
          have := hq r' (List.mem_of_getElem? (by simpa using hj))
          simp [this] at hr'
      · simp [hp] at h
    | some jm =>
      obtain ⟨j0, m⟩ := jm
      rw [hb] at h
      have hm := ih j0 m hb
      by_cases hc : (p r0 && decide (r0.prio ≤ m.prio)) = true
      · simp only [hc, if_true, Option.some.injEq, Prod.mk.injEq] at h
        obtain ⟨rfl, rfl⟩ := h
        simp only [Bool.and_eq_true, decide_eq_true_eq] at hc
        refine ⟨rfl, hc.1, fun j r' hj hr' => ?_⟩
        cases j with
        | zero => right; simp at hj; simp [hj]
        | succ j =>
          have := hm.2.2 j r' (by simpa using hj) hr'
          omega
      · simp only [hc, Bool.false_eq_true, if_false, Option.some.injEq, Prod.mk.injEq] at h
        obtain ⟨rfl, rfl⟩ := h
        refine ⟨by simpa using hm.1, hm.2.1, fun j r' hj hr' => ?_⟩
        cases j with
        | zero =>
          simp only [List.getElem?_cons_zero, Option.some.injEq] at hj
          subst hj
          simp only [hr', Bool.true_and, decide_eq_true_eq] at hc
          left; omega
        | succ j =>
          have := hm.2.2 j r' (by simpa using hj) hr'
          omega

/-- `best` answers the best record wherever there is one. -/
theorem best_eq_some (p : IntRecord → Bool) (q : List IntRecord) (i : Nat) (r : IntRecord) :
    best p q = some (i, r) ↔ IsBest p q i r := by
  refine ⟨best_isBest p q i r, fun h => ?_⟩
  cases hb : best p q with
  | none =>
    have := (best_eq_none p q).mp hb r (List.mem_of_getElem? h.1)
    simp [h.2.1] at this
  | some jm =>
    obtain ⟨j, m⟩ := jm
    obtain ⟨rfl, rfl⟩ := h.unique (best_isBest p q j m hb)
    rfl

end Sys2Proof.Machine
end

