-- ==== Sys2Proof/Laws/State.lean ====
section
/-! SUPPORT. The small lemmas of the state: one per field and update, so that no later proof unfolds a
record update. -/

namespace Sys2Proof.Machine

/-! ### The machine's updates -/

@[simp] theorem State.onSmc_smc (s : State) (f : Smc → Smc) :
    (s.onSmc f).smc = f s.smc := (rfl)

@[simp] theorem State.onSmc_iic (s : State) (f : Smc → Smc) :
    (s.onSmc f).iic = s.iic := (rfl)

@[simp] theorem State.onSmc_inbox (s : State) (f : Smc → Smc) :
    (s.onSmc f).inbox = s.inbox := (rfl)

@[simp] theorem State.onSmc_result (s : State) (f : Smc → Smc) :
    (s.onSmc f).result = .nothing := (rfl)

@[simp] theorem State.readSmc_smc (s : State) (f : Smc → List Byte × Smc) :
    (s.readSmc f).smc = (f s.smc).2 := (rfl)

@[simp] theorem State.readSmc_iic (s : State) (f : Smc → List Byte × Smc) :
    (s.readSmc f).iic = s.iic := (rfl)

@[simp] theorem State.readSmc_inbox (s : State) (f : Smc → List Byte × Smc) :
    (s.readSmc f).inbox = s.inbox := (rfl)

@[simp] theorem State.readSmc_result (s : State) (f : Smc → List Byte × Smc) :
    (s.readSmc f).result = .data (f s.smc).1 := (rfl)

@[simp] theorem State.onIic_smc (s : State) (f : Iic → Iic) :
    (s.onIic f).smc = s.smc := (rfl)

@[simp] theorem State.onIic_iic (s : State) (f : Iic → Iic) :
    (s.onIic f).iic = f s.iic := (rfl)

@[simp] theorem State.onIic_inbox (s : State) (f : Iic → Iic) :
    (s.onIic f).inbox = s.inbox := (rfl)

@[simp] theorem State.onIic_result (s : State) (f : Iic → Iic) :
    (s.onIic f).result = .nothing := (rfl)

@[simp] theorem State.readIic_smc (s : State) (f : Iic → List Byte × Iic) :
    (s.readIic f).smc = s.smc := (rfl)

@[simp] theorem State.readIic_iic (s : State) (f : Iic → List Byte × Iic) :
    (s.readIic f).iic = (f s.iic).2 := (rfl)

@[simp] theorem State.readIic_inbox (s : State) (f : Iic → List Byte × Iic) :
    (s.readIic f).inbox = s.inbox := (rfl)

@[simp] theorem State.readIic_result (s : State) (f : Iic → List Byte × Iic) :
    (s.readIic f).result = .data (f s.iic).1 := (rfl)

@[simp] theorem State.advance_smc (s : State) (rest : List Input) : (s.advance rest).smc = s.smc := (rfl)

@[simp] theorem State.advance_iic (s : State) (rest : List Input) : (s.advance rest).iic = s.iic := (rfl)

@[simp] theorem State.advance_result (s : State) (rest : List Input) : (s.advance rest).result = s.result := (rfl)

@[simp] theorem State.advance_inbox (s : State) (rest : List Input) : (s.advance rest).inbox = rest := (rfl)

@[simp] theorem State.pushPacket_smc (s : State) (bs : List Byte) : (s.pushPacket bs).smc = s.smc := (rfl)

@[simp] theorem State.pushPacket_iic (s : State) (bs : List Byte) : (s.pushPacket bs).iic = s.iic := (rfl)

@[simp] theorem State.pushPacket_result (s : State) (bs : List Byte) : (s.pushPacket bs).result = s.result := (rfl)

@[simp] theorem State.pushPacket_inbox (s : State) (bs : List Byte) :
    (s.pushPacket bs).inbox = .packet bs :: s.inbox := (rfl)

/-! ### The SMC's updates -/

@[simp] theorem Smc.store_win (s : Smc) (a : Nat) (d : List Byte) : (s.store a d).win = Mem.writeBytes s.win a d := (rfl)

@[simp] theorem Smc.store_cfg (s : Smc) (a : Nat) (d : List Byte) : (s.store a d).cfg = s.cfg := (rfl)

@[simp] theorem Smc.store_fifo (s : Smc) (a : Nat) (d : List Byte) : (s.store a d).fifo = s.fifo := (rfl)

@[simp] theorem Smc.store_cur (s : Smc) (a : Nat) (d : List Byte) : (s.store a d).cur = s.cur := (rfl)

@[simp] theorem Smc.store_respq (s : Smc) (a : Nat) (d : List Byte) : (s.store a d).respq = s.respq := (rfl)

@[simp] theorem Smc.store_ocur (s : Smc) (a : Nat) (d : List Byte) : (s.store a d).ocur = s.ocur := (rfl)

@[simp] theorem Smc.store_olast (s : Smc) (a : Nat) (d : List Byte) : (s.store a d).olast = s.olast := (rfl)

@[simp] theorem Smc.store_tray (s : Smc) (a : Nat) (d : List Byte) : (s.store a d).tray = s.tray := (rfl)

@[simp] theorem Smc.store_pwr (s : Smc) (a : Nat) (d : List Byte) : (s.store a d).pwr = s.pwr := (rfl)

@[simp] theorem Smc.store_avpack (s : Smc) (a : Nat) (d : List Byte) : (s.store a d).avpack = s.avpack := (rfl)

@[simp] theorem Smc.store_uartcfg (s : Smc) (a : Nat) (d : List Byte) : (s.store a d).uartcfg = s.uartcfg := (rfl)

@[simp] theorem Smc.store_trace (s : Smc) (a : Nat) (d : List Byte) : (s.store a d).trace = s.trace := (rfl)

@[simp] theorem Smc.store_draws (s : Smc) (a : Nat) (d : List Byte) : (s.store a d).draws = s.draws := (rfl)

@[simp] theorem Smc.emit_win (s : Smc) (e : SmcEvent) : (s.emit e).win = s.win := (rfl)

@[simp] theorem Smc.emit_cfg (s : Smc) (e : SmcEvent) : (s.emit e).cfg = s.cfg := (rfl)

@[simp] theorem Smc.emit_fifo (s : Smc) (e : SmcEvent) : (s.emit e).fifo = s.fifo := (rfl)

@[simp] theorem Smc.emit_cur (s : Smc) (e : SmcEvent) : (s.emit e).cur = s.cur := (rfl)

@[simp] theorem Smc.emit_respq (s : Smc) (e : SmcEvent) : (s.emit e).respq = s.respq := (rfl)

@[simp] theorem Smc.emit_ocur (s : Smc) (e : SmcEvent) : (s.emit e).ocur = s.ocur := (rfl)

@[simp] theorem Smc.emit_olast (s : Smc) (e : SmcEvent) : (s.emit e).olast = s.olast := (rfl)

@[simp] theorem Smc.emit_tray (s : Smc) (e : SmcEvent) : (s.emit e).tray = s.tray := (rfl)

@[simp] theorem Smc.emit_pwr (s : Smc) (e : SmcEvent) : (s.emit e).pwr = s.pwr := (rfl)

@[simp] theorem Smc.emit_avpack (s : Smc) (e : SmcEvent) : (s.emit e).avpack = s.avpack := (rfl)

@[simp] theorem Smc.emit_uartcfg (s : Smc) (e : SmcEvent) : (s.emit e).uartcfg = s.uartcfg := (rfl)

@[simp] theorem Smc.emit_trace (s : Smc) (e : SmcEvent) : (s.emit e).trace = s.trace ++ [e] := (rfl)

@[simp] theorem Smc.emit_draws (s : Smc) (e : SmcEvent) : (s.emit e).draws = s.draws := (rfl)

@[simp] theorem Smc.respond_win (s : Smc) (p : Frame) : (s.respond p).win = s.win := (rfl)

@[simp] theorem Smc.respond_cfg (s : Smc) (p : Frame) : (s.respond p).cfg = s.cfg := (rfl)

@[simp] theorem Smc.respond_fifo (s : Smc) (p : Frame) : (s.respond p).fifo = s.fifo := (rfl)

@[simp] theorem Smc.respond_cur (s : Smc) (p : Frame) : (s.respond p).cur = s.cur := (rfl)

@[simp] theorem Smc.respond_respq (s : Smc) (p : Frame) : (s.respond p).respq = s.respq ++ [p] := (rfl)

@[simp] theorem Smc.respond_ocur (s : Smc) (p : Frame) : (s.respond p).ocur = s.ocur := (rfl)

@[simp] theorem Smc.respond_olast (s : Smc) (p : Frame) : (s.respond p).olast = s.olast := (rfl)

@[simp] theorem Smc.respond_tray (s : Smc) (p : Frame) : (s.respond p).tray = s.tray := (rfl)

@[simp] theorem Smc.respond_pwr (s : Smc) (p : Frame) : (s.respond p).pwr = s.pwr := (rfl)

@[simp] theorem Smc.respond_avpack (s : Smc) (p : Frame) : (s.respond p).avpack = s.avpack := (rfl)

@[simp] theorem Smc.respond_uartcfg (s : Smc) (p : Frame) : (s.respond p).uartcfg = s.uartcfg := (rfl)

@[simp] theorem Smc.respond_trace (s : Smc) (p : Frame) : (s.respond p).trace = s.trace := (rfl)

@[simp] theorem Smc.respond_draws (s : Smc) (p : Frame) : (s.respond p).draws = s.draws := (rfl)

@[simp] theorem Smc.place_win (s : Smc) (b : Byte) : (s.place b).win = s.win := (rfl)

@[simp] theorem Smc.place_cfg (s : Smc) (b : Byte) : (s.place b).cfg = s.cfg := (rfl)

@[simp] theorem Smc.place_fifo (s : Smc) (b : Byte) : (s.place b).fifo = s.fifo.setIfInBounds s.cur b := (rfl)

@[simp] theorem Smc.place_cur (s : Smc) (b : Byte) : (s.place b).cur = s.cur + 1 := (rfl)

@[simp] theorem Smc.place_respq (s : Smc) (b : Byte) : (s.place b).respq = s.respq := (rfl)

@[simp] theorem Smc.place_ocur (s : Smc) (b : Byte) : (s.place b).ocur = s.ocur := (rfl)

@[simp] theorem Smc.place_olast (s : Smc) (b : Byte) : (s.place b).olast = s.olast := (rfl)

@[simp] theorem Smc.place_tray (s : Smc) (b : Byte) : (s.place b).tray = s.tray := (rfl)

@[simp] theorem Smc.place_pwr (s : Smc) (b : Byte) : (s.place b).pwr = s.pwr := (rfl)

@[simp] theorem Smc.place_avpack (s : Smc) (b : Byte) : (s.place b).avpack = s.avpack := (rfl)

@[simp] theorem Smc.place_uartcfg (s : Smc) (b : Byte) : (s.place b).uartcfg = s.uartcfg := (rfl)

@[simp] theorem Smc.place_trace (s : Smc) (b : Byte) : (s.place b).trace = s.trace := (rfl)

@[simp] theorem Smc.place_draws (s : Smc) (b : Byte) : (s.place b).draws = s.draws := (rfl)

/-! ### The IIC's registers and blocks -/

/-- A register after a write: the new value where it is the one written. -/
@[simp] theorem Regs.get_set (g : Regs) (r r' : IicReg) (v : DWord) :
    (g.set r v).get r' = if r' = r then v else g.get r' := by
  cases r <;> cases r' <;> rfl

@[simp] theorem Block.get_set (b : Block) (r r' : IicReg) (v : DWord) :
    (b.set r v).get r' = if r' = r then v else b.get r' := Regs.get_set b.regs r r' v

@[simp] theorem Block.set_q (b : Block) (r : IicReg) (v : DWord) : (b.set r v).q = b.q := (rfl)

@[simp] theorem Block.set_sig (b : Block) (r : IicReg) (v : DWord) : (b.set r v).sig = b.sig := (rfl)

@[simp] theorem Block.withQueue_q (b : Block) (q : List IntRecord) : (b.withQueue q).q = q := (rfl)

@[simp] theorem Block.withQueue_regs (b : Block) (q : List IntRecord) : (b.withQueue q).regs = b.regs := (rfl)

@[simp] theorem Block.withQueue_get (b : Block) (q : List IntRecord) (r : IicReg) : (b.withQueue q).get r = b.get r := (rfl)

@[simp] theorem Block.withQueue_sig (b : Block) (q : List IntRecord) :
    (b.withQueue q).sig = if q.isEmpty then false else b.sig := (rfl)

@[simp] theorem Iic.setBlock_trace (i : Iic) (c : Fin 6) (b : Block) : (i.setBlock c b).trace = i.trace := (rfl)

@[simp] theorem Iic.emit_blk (i : Iic) (e : IicEvent) : (i.emit e).blk = i.blk := (rfl)

@[simp] theorem Iic.emit_block (i : Iic) (e : IicEvent) (c : Fin 6) : (i.emit e).block c = i.block c := (rfl)

@[simp] theorem Iic.emit_trace (i : Iic) (e : IicEvent) : (i.emit e).trace = i.trace ++ [e] := (rfl)

/-- A block after one block is replaced (R280). -/
theorem Iic.setBlock_blk (i : Iic) (c c' : Fin 6) (b : Block) :
    (i.setBlock c b).block c' = if c' = c then b else i.block c' := by
  show (i.blk.set c.val b c.isLt)[c'.val] = _
  rw [Vector.getElem_set]
  by_cases h : c' = c
  · simp [h]
  · have : ¬c.val = c'.val := fun e => h (Fin.ext e.symm)
    simp [h, this, Iic.block]

@[simp] theorem Iic.setBlock_same (i : Iic) (c : Fin 6) (b : Block) :
    (i.setBlock c b).block c = b := by
  simp [Iic.setBlock_blk]

/-- Two controllers with the same blocks and trace are the same. -/
theorem Iic.ext_blk (i j : Iic) (hb : ∀ c : Fin 6, i.block c = j.block c) (ht : i.trace = j.trace) :
    i = j := by
  obtain ⟨bi, ti⟩ := i
  obtain ⟨bj, tj⟩ := j
  have hbb : bi = bj := Vector.ext fun k hk => hb ⟨k, hk⟩
  simp only at ht
  rw [hbb, ht]

/-- Replacing a block by itself changes nothing. -/
@[simp] theorem Iic.setBlock_self (i : Iic) (c : Fin 6) : i.setBlock c (i.block c) = i := by
  refine Iic.ext_blk _ _ (fun c' => ?_) rfl
  rw [Iic.setBlock_blk]
  split
  · next h => rw [h]
  · rfl

end Sys2Proof.Machine
end

