-- ==== Sys2Proof/Laws/Iic.lean ====
section
/-! SUPPORT. What the operations of the IIC can change, stated once: acknowledge and end of interrupt on a
block, the register rules and effects, pieces, posting and withdrawing on one core, and the requests on
the selected cores. -/

namespace Sys2Proof.Machine

/-- What an acknowledge does (R270). -/
theorem acknowledge_cases (r : IicReg) (b : Block) :
    (∃ i m, IsBest IntRecord.pending b.q i m ∧ acknowledge r b =
      (m.type.setWidth 64, { b with
        q := b.q.set i { m with ack := true }, regs := b.regs.set r (m.type.setWidth 64) })) ∨
    ((∀ m ∈ b.q, m.ack = true) ∧ acknowledge r b =
      (Params.noneId.setWidth 64, b.set r (Params.noneId.setWidth 64))) := by
  unfold acknowledge
  cases h : best IntRecord.pending b.q with
  | none =>
    refine Or.inr ⟨fun m hm => ?_, rfl⟩
    have := (best_eq_none _ _).mp h m hm
    simpa [IntRecord.pending] using this
  | some im =>
    obtain ⟨i, m⟩ := im
    exact Or.inl ⟨i, m, (best_eq_some _ _ _ _).mp h, rfl⟩

/-- What an acknowledge does where a best PENDING record is known. -/
theorem acknowledge_of_best (r : IicReg) (b : Block) (i : Nat) (m : IntRecord)
    (h : IsBest IntRecord.pending b.q i m) :
    acknowledge r b =
      (m.type.setWidth 64, { b with
        q := b.q.set i { m with ack := true }, regs := b.regs.set r (m.type.setWidth 64) }) := by
  unfold acknowledge
  rw [(best_eq_some _ _ _ _).mpr h]

/-- What an acknowledge does where nothing is PENDING. -/
theorem acknowledge_of_none (r : IicReg) (b : Block) (h : ∀ m ∈ b.q, m.ack = true) :
    acknowledge r b = (Params.noneId.setWidth 64, b.set r (Params.noneId.setWidth 64)) := by
  unfold acknowledge
  rw [(best_eq_none _ _).mpr fun m hm => by simp [IntRecord.pending, h m hm]]

/-- What an end of interrupt does (R273). -/
theorem endOfInterrupt_cases (b : Block) :
    (∃ i m, IsBest IntRecord.ack b.q i m ∧ endOfInterrupt b = b.withQueue (b.q.eraseIdx i)) ∨
    ((∀ m ∈ b.q, m.ack = false) ∧ endOfInterrupt b = b) := by
  unfold endOfInterrupt
  cases h : best IntRecord.ack b.q with
  | none => exact Or.inr ⟨(best_eq_none _ _).mp h, rfl⟩
  | some im =>
    obtain ⟨i, m⟩ := im
    exact Or.inl ⟨i, m, (best_eq_some _ _ _ _).mp h, rfl⟩

theorem endOfInterrupt_of_best (b : Block) (i : Nat) (m : IntRecord)
    (h : IsBest IntRecord.ack b.q i m) : endOfInterrupt b = b.withQueue (b.q.eraseIdx i) := by
  unfold endOfInterrupt
  rw [(best_eq_some _ _ _ _).mpr h]

theorem endOfInterrupt_of_none (b : Block) (h : ∀ m ∈ b.q, m.ack = false) :
    endOfInterrupt b = b := by
  unfold endOfInterrupt
  rw [(best_eq_none _ _).mpr h]

@[simp] theorem endOfInterrupt_get (b : Block) (r : IicReg) : (endOfInterrupt b).get r = b.get r := by
  rcases endOfInterrupt_cases b with ⟨i, m, -, h⟩ | ⟨-, h⟩ <;> simp [h]

/-- The read rule of every register but ACK is a shadow read (R265, with the default
ACK_READ_OFFSETS). -/
theorem Block.rule_shadow (r : IicReg) (b : Block) (h : r ≠ .ack) : b.rule r = (b.get r, b) := by
  cases r <;> first
    | rfl
    | exact absurd rfl h

/-- The write effect of every register but EOI and EOI_SET_CPU_CURRENT_TSK_PRI is none (R266). -/
theorem Block.effect_shadow (r : IicReg) (v : DWord) (b : Block) (h : r ≠ .eoi)
    (h' : r ≠ .eoiSetPri) : b.effect r v = b := by
  cases r <;> first
    | rfl
    | exact absurd rfl h
    | exact absurd rfl h'

theorem Block.effect_eoi (v : DWord) (b : Block) : b.effect .eoi v = endOfInterrupt b := rfl

theorem Block.effect_eoiSetPri (v : DWord) (b : Block) :
    b.effect .eoiSetPri v = (endOfInterrupt b).set .currentTskPri v := rfl

/-! ### Pieces -/

@[simp] theorem Iic.readPiece_trace (rule : Block → DWord × Block) (c : Fin 6) (l k : Nat) (i : Iic) :
    (i.readPiece rule c l k).2.trace = i.trace := (rfl)

theorem Iic.readPiece_block (rule : Block → DWord × Block) (c c' : Fin 6) (l k : Nat) (i : Iic) :
    (i.readPiece rule c l k).2.block c' = if c' = c then (rule (i.block c)).2 else i.block c' := by
  simp [Iic.readPiece, Iic.setBlock_blk]

@[simp] theorem Iic.writePiece_trace (r : IicReg) (effect : DWord → Block → Block) (c : Fin 6)
    (l : Nat) (d : List Byte) (i : Iic) : (i.writePiece r effect c l d).trace = i.trace := (rfl)

theorem Iic.writePiece_block (r : IicReg) (effect : DWord → Block → Block) (c c' : Fin 6) (l : Nat)
    (d : List Byte) (i : Iic) :
    (i.writePiece r effect c l d).block c' =
      if c' = c then
        effect (mergeLanes ((i.block c).get r) l d)
          ((i.block c).set r (mergeLanes ((i.block c).get r) l d))
      else i.block c' := by
  simp [Iic.writePiece, Iic.setBlock_blk]

@[simp] theorem Iic.busReadPiece_trace (p : Piece) (i : Iic) :
    (i.busReadPiece p).2.trace = i.trace := by
  unfold Iic.busReadPiece
  split <;> rfl

@[simp] theorem Iic.readPieces_trace (ps : List Piece) (i : Iic) :
    (Iic.readPieces ps i).2.trace = i.trace := by
  induction ps generalizing i with
  | nil => rfl
  | cons p ps ih => simp [Iic.readPieces, ih]

@[simp] theorem Iic.busRead_trace (addr len : Nat) (i : Iic) :
    (i.busRead addr len).2.trace = i.trace := by
  simp [Iic.busRead]

@[simp] theorem Iic.busWritePiece_trace (p : Piece) (d : List Byte) (i : Iic) :
    (i.busWritePiece p d).trace = i.trace := by
  unfold Iic.busWritePiece
  split <;> rfl

@[simp] theorem Iic.writePieces_trace (ps : List Piece) (d : List Byte) (i : Iic) :
    (Iic.writePieces ps d i).trace = i.trace := by
  induction ps generalizing d i with
  | nil => rfl
  | cons p ps ih => simp [Iic.writePieces, ih]

@[simp] theorem Iic.busWrite_trace (addr : Nat) (d : List Byte) (i : Iic) :
    (i.busWrite addr d).trace = i.trace := by
  simp [Iic.busWrite]

/-! ### Requests -/

theorem Iic.post_block (type : Byte) (i : Iic) (c c' : Fin 6) :
    (i.post type c).block c' =
      if c' = c then
        { (i.block c) with
          q := (i.block c).q ++ [⟨type, Config.prio type, false⟩], sig := true }
      else i.block c' := by
  unfold Iic.post
  dsimp only
  split <;> simp [Iic.setBlock_blk]

theorem Iic.post_trace (type : Byte) (i : Iic) (c : Fin 6) :
    (i.post type c).trace = i.trace ++ if (i.block c).sig then [] else [.lineAssert c] := by
  unfold Iic.post
  dsimp only
  split <;> simp_all

@[simp] theorem Iic.withdraw_trace (type : Byte) (i : Iic) (c : Fin 6) :
    (i.withdraw type c).trace = i.trace := by
  unfold Iic.withdraw
  dsimp only
  split <;> rfl

theorem Iic.withdraw_block_other (type : Byte) (i : Iic) (c c' : Fin 6) (h : c' ≠ c) :
    (i.withdraw type c).block c' = i.block c' := by
  unfold Iic.withdraw
  dsimp only
  split <;> simp [Iic.setBlock_blk, h]

/-- Acting on the selected cores in turn, where the act on a core depends on and changes only that core's
block: each block is acted on once if selected, and left otherwise. -/
theorem Iic.forCores_block (mask : Nat) (act : Iic → Fin 6 → Iic)
    (hother : ∀ i c c', c' ≠ c → (act i c).block c' = i.block c')
    (hlocal : ∀ i j c, i.block c = j.block c → (act i c).block c = (act j c).block c)
    (i : Iic) (c : Fin 6) :
    (i.forCores mask act).block c = if coreSelected mask c then (act i c).block c else i.block c := by
  have key : ∀ (l : List (Fin 6)), l.Nodup → ∀ j : Iic, j.block c = i.block c →
      (l.foldl act j).block c = if c ∈ l then (act i c).block c else i.block c := by
    intro l
    induction l with
    | nil => intro _ j hj; simpa using hj
    | cons a l ih =>
      intro hnd j hj
      obtain ⟨ha, hnd⟩ := List.nodup_cons.mp hnd
      by_cases hac : c = a
      · subst hac
        have hrest : ∀ (m : List (Fin 6)), c ∉ m → ∀ k : Iic,
            (m.foldl act k).block c = k.block c := by
          intro m
          induction m with
          | nil => intro _ k; rfl
          | cons b m ihm =>
            intro hb k
            simp only [List.mem_cons, not_or] at hb
            rw [List.foldl_cons, ihm hb.2, hother _ _ _ hb.1]
        rw [List.foldl_cons, hrest l ha, hlocal _ _ _ hj]
        simp
      · rw [List.foldl_cons, ih hnd _ (by rw [hother _ _ _ hac, hj])]
        simp [hac]
  have hnd : (cores.filter (coreSelected mask)).Nodup := List.Nodup.filter _ (by decide)
  have hmem : ∀ d : Fin 6, d ∈ cores := by decide
  rw [Iic.forCores, key _ hnd i rfl]
  simp [hmem c]

/-- What a withdrawal does to its core's block (R302). -/
theorem Iic.withdraw_block (type : Byte) (i : Iic) (c : Fin 6) :
    (i.withdraw type c).block c =
      match (i.block c).q.findIdx? fun r => r.type == type && r.pending with
      | some j => (i.block c).withQueue ((i.block c).q.eraseIdx j)
      | none => i.block c := by
  unfold Iic.withdraw
  dsimp only
  cases (i.block c).q.findIdx? fun r => r.type == type && r.pending <;> simp

/-- genInterrupt, block by block (R300). -/
theorem Iic.gen_block (type : Byte) (mask : Nat) (i : Iic) (c : Fin 6) :
    (Iic.gen type mask i).block c =
      if mask.testBit c.val then
        { (i.block c) with
          q := (i.block c).q ++ [⟨type, Config.prio type, false⟩], sig := true }
      else i.block c := by
  unfold Iic.gen
  rw [Iic.forCores_block _ _ (fun i c c' h => by rw [Iic.post_block, if_neg h])
    (fun i j c h => by rw [Iic.post_block, Iic.post_block, h]), Iic.post_block, if_pos rfl]
  rfl

/-- cancelInterrupt, block by block (R302). -/
theorem Iic.cancel_block (type : Byte) (mask : Nat) (i : Iic) (c : Fin 6) :
    (Iic.cancel type mask i).block c =
      if mask.testBit c.val then (i.withdraw type c).block c else i.block c := by
  unfold Iic.cancel
  rw [Iic.forCores_block _ _ (Iic.withdraw_block_other type)
    (fun i j c h => by rw [Iic.withdraw_block, Iic.withdraw_block, h])]
  rfl

@[simp] theorem Iic.cancel_trace (type : Byte) (mask : Nat) (i : Iic) :
    (Iic.cancel type mask i).trace = i.trace := by
  unfold Iic.cancel Iic.forCores
  generalize cores.filter (coreSelected mask) = l
  induction l generalizing i with
  | nil => rfl
  | cons a l ih => rw [List.foldl_cons, ih, Iic.withdraw_trace]

end Sys2Proof.Machine
end

