-- ==== Sys2Proof/Laws/Fifo.lean ====
section
/-! SUPPORT. What commands, dispatches, appends and flushes can change: the frame buffer and its cursor,
the response queue, the tray, and the model's draw counter. Every other field is kept. -/

namespace Sys2Proof.Machine

/-! ### Frames (R108, R110) -/

theorem frameOf_toList (code : Byte) (args : Args) :
    (frameOf code args).toList = code :: args.toList := by
  show (#v[code] ++ args : Vector Byte (1 + 15)).toList = _
  rw [Vector.toList_append]
  rfl

@[simp] theorem frameOf_code (code : Byte) (args : Args) : (frameOf code args)[0] = code := by
  have h := congrArg (fun l => l[0]?) (frameOf_toList code args)
  simpa using h

@[simp] theorem frameOf_arg0 (code : Byte) (args : Args) : (frameOf code args)[1] = args[0] := by
  have h := congrArg (fun l => l[1]?) (frameOf_toList code args)
  simpa using h

theorem answer_toList (code a : Byte) : (answer code a).toList = code :: a :: List.replicate 14 0 := by
  rw [answer, frameOf_toList]
  congr 1

/-! ### Commands -/

@[simp] theorem Smc.runCommand_win (c : Cmd) (f : Frame) (s : Smc) :
    (s.runCommand c f).win = s.win := by
  cases c <;> rfl

@[simp] theorem Smc.runCommand_cfg (c : Cmd) (f : Frame) (s : Smc) :
    (s.runCommand c f).cfg = s.cfg := by
  cases c <;> rfl

@[simp] theorem Smc.runCommand_ocur (c : Cmd) (f : Frame) (s : Smc) :
    (s.runCommand c f).ocur = s.ocur := by
  cases c <;> rfl

@[simp] theorem Smc.runCommand_olast (c : Cmd) (f : Frame) (s : Smc) :
    (s.runCommand c f).olast = s.olast := by
  cases c <;> rfl

@[simp] theorem Smc.runCommand_pwr (c : Cmd) (f : Frame) (s : Smc) :
    (s.runCommand c f).pwr = s.pwr := by
  cases c <;> rfl

@[simp] theorem Smc.runCommand_avpack (c : Cmd) (f : Frame) (s : Smc) :
    (s.runCommand c f).avpack = s.avpack := by
  cases c <;> rfl

@[simp] theorem Smc.runCommand_uartcfg (c : Cmd) (f : Frame) (s : Smc) :
    (s.runCommand c f).uartcfg = s.uartcfg := by
  cases c <;> rfl

@[simp] theorem Smc.runCommand_trace (c : Cmd) (f : Frame) (s : Smc) :
    (s.runCommand c f).trace = s.trace := by
  cases c <;> rfl

@[simp] theorem Smc.runCommand_fifo (c : Cmd) (f : Frame) (s : Smc) :
    (s.runCommand c f).fifo = s.fifo := by
  cases c <;> rfl

@[simp] theorem Smc.runCommand_cur (c : Cmd) (f : Frame) (s : Smc) :
    (s.runCommand c f).cur = s.cur := by
  cases c <;> rfl

/-- A command enqueues at most one response, at the tail (R197). -/
theorem Smc.runCommand_respq (c : Cmd) (f : Frame) (s : Smc) :
    ∃ ps, (s.runCommand c f).respq = s.respq ++ ps ∧ ps.length ≤ 1 := by
  cases c <;> first
    | exact ⟨[], (List.append_nil _).symm, by simp⟩
    | exact ⟨[_], rfl, by simp⟩

theorem CommandArrow.refl (t : Tray) : CommandArrow t t := Or.inl rfl

theorem CommandArrow.trans {a b c : Tray} (h : CommandArrow a b) (h' : CommandArrow b c) :
    CommandArrow a c := by
  unfold CommandArrow at *
  cases a <;> cases b <;> cases c <;> simp_all

theorem trayRequest_arrow (arg : Byte) (t : Tray) : CommandArrow t (trayRequest arg t) := by
  unfold trayRequest CommandArrow
  split
  · cases t <;> simp
  · split
    · cases t <;> simp
    · simp

/-- A command moves the tray along a command's arrow or leaves it (R214, R222). -/
theorem Smc.runCommand_tray (c : Cmd) (f : Frame) (s : Smc) :
    CommandArrow s.tray (s.runCommand c f).tray := by
  cases c <;> first
    | exact trayRequest_arrow _ _
    | exact CommandArrow.refl _

/-- A dispatch is the cursor reset, the optional clear and then the command, or nothing more (R196). -/
theorem Smc.dispatchWith_cases (clear : Bool) (s : Smc) :
    (∃ c, Cmd.ofCode s.fifo[0] = some c ∧
      s.dispatchWith clear =
        Smc.runCommand c s.fifo { s with cur := 0, fifo := afterDispatch clear s.fifo }) ∨
    (Cmd.ofCode s.fifo[0] = none ∧
      s.dispatchWith clear = { s with cur := 0, fifo := afterDispatch clear s.fifo }) := by
  unfold Smc.dispatchWith
  cases h : Cmd.ofCode s.fifo[0] with
  | none => exact Or.inr ⟨rfl, by simp only [h]; rfl⟩
  | some c => exact Or.inl ⟨c, rfl, by simp only [h]⟩

@[simp] theorem Smc.fifoDispatch_win (s : Smc) : s.fifoDispatch.win = s.win := by
  rcases s.dispatchWith_cases Params.fifoClearOnDispatch with ⟨c, -, h⟩ | ⟨-, h⟩ <;>
    simp [Smc.fifoDispatch, h]

@[simp] theorem Smc.fifoDispatch_cfg (s : Smc) : s.fifoDispatch.cfg = s.cfg := by
  rcases s.dispatchWith_cases Params.fifoClearOnDispatch with ⟨c, -, h⟩ | ⟨-, h⟩ <;>
    simp [Smc.fifoDispatch, h]

@[simp] theorem Smc.fifoDispatch_ocur (s : Smc) : s.fifoDispatch.ocur = s.ocur := by
  rcases s.dispatchWith_cases Params.fifoClearOnDispatch with ⟨c, -, h⟩ | ⟨-, h⟩ <;>
    simp [Smc.fifoDispatch, h]

@[simp] theorem Smc.fifoDispatch_olast (s : Smc) : s.fifoDispatch.olast = s.olast := by
  rcases s.dispatchWith_cases Params.fifoClearOnDispatch with ⟨c, -, h⟩ | ⟨-, h⟩ <;>
    simp [Smc.fifoDispatch, h]

@[simp] theorem Smc.fifoDispatch_pwr (s : Smc) : s.fifoDispatch.pwr = s.pwr := by
  rcases s.dispatchWith_cases Params.fifoClearOnDispatch with ⟨c, -, h⟩ | ⟨-, h⟩ <;>
    simp [Smc.fifoDispatch, h]

@[simp] theorem Smc.fifoDispatch_avpack (s : Smc) : s.fifoDispatch.avpack = s.avpack := by
  rcases s.dispatchWith_cases Params.fifoClearOnDispatch with ⟨c, -, h⟩ | ⟨-, h⟩ <;>
    simp [Smc.fifoDispatch, h]

@[simp] theorem Smc.fifoDispatch_uartcfg (s : Smc) : s.fifoDispatch.uartcfg = s.uartcfg := by
  rcases s.dispatchWith_cases Params.fifoClearOnDispatch with ⟨c, -, h⟩ | ⟨-, h⟩ <;>
    simp [Smc.fifoDispatch, h]

@[simp] theorem Smc.fifoDispatch_trace (s : Smc) : s.fifoDispatch.trace = s.trace := by
  rcases s.dispatchWith_cases Params.fifoClearOnDispatch with ⟨c, -, h⟩ | ⟨-, h⟩ <;>
    simp [Smc.fifoDispatch, h]

@[simp] theorem Smc.fifoDispatch_cur (s : Smc) : s.fifoDispatch.cur = 0 := by
  rcases s.dispatchWith_cases Params.fifoClearOnDispatch with ⟨c, -, h⟩ | ⟨-, h⟩ <;>
    simp [Smc.fifoDispatch, h]

@[simp] theorem Smc.fifoDispatch_fifo (s : Smc) : s.fifoDispatch.fifo = s.fifo := by
  rcases s.dispatchWith_cases Params.fifoClearOnDispatch with ⟨c, -, h⟩ | ⟨-, h⟩ <;>
    simp only [Smc.fifoDispatch, h, Smc.runCommand_fifo] <;> rfl

theorem Smc.fifoDispatch_respq (s : Smc) : ∃ ps, s.fifoDispatch.respq = s.respq ++ ps := by
  rcases s.dispatchWith_cases Params.fifoClearOnDispatch with ⟨c, -, h⟩ | ⟨-, h⟩
  · obtain ⟨ps, hp, -⟩ := Smc.runCommand_respq c s.fifo
      { s with cur := 0, fifo := afterDispatch Params.fifoClearOnDispatch s.fifo }
    exact ⟨ps, by rw [Smc.fifoDispatch, h, hp]⟩
  · exact ⟨[], by simp [Smc.fifoDispatch, h]⟩

theorem Smc.fifoDispatch_tray (s : Smc) : CommandArrow s.tray s.fifoDispatch.tray := by
  rcases s.dispatchWith_cases Params.fifoClearOnDispatch with ⟨c, -, h⟩ | ⟨-, h⟩
  · rw [Smc.fifoDispatch, h]
    exact Smc.runCommand_tray c s.fifo
      { s with cur := 0, fifo := afterDispatch Params.fifoClearOnDispatch s.fifo }
  · rw [Smc.fifoDispatch, h]
    exact CommandArrow.refl _

@[simp] theorem Smc.fifoAppend_win (s : Smc) (b : Byte) : (s.fifoAppend b).win = s.win := by
  unfold Smc.fifoAppend
  split <;> simp

@[simp] theorem Smc.fifoAppend_cfg (s : Smc) (b : Byte) : (s.fifoAppend b).cfg = s.cfg := by
  unfold Smc.fifoAppend
  split <;> simp

@[simp] theorem Smc.fifoAppend_ocur (s : Smc) (b : Byte) : (s.fifoAppend b).ocur = s.ocur := by
  unfold Smc.fifoAppend
  split <;> simp

@[simp] theorem Smc.fifoAppend_olast (s : Smc) (b : Byte) : (s.fifoAppend b).olast = s.olast := by
  unfold Smc.fifoAppend
  split <;> simp

@[simp] theorem Smc.fifoAppend_pwr (s : Smc) (b : Byte) : (s.fifoAppend b).pwr = s.pwr := by
  unfold Smc.fifoAppend
  split <;> simp

@[simp] theorem Smc.fifoAppend_avpack (s : Smc) (b : Byte) : (s.fifoAppend b).avpack = s.avpack := by
  unfold Smc.fifoAppend
  split <;> simp

@[simp] theorem Smc.fifoAppend_uartcfg (s : Smc) (b : Byte) : (s.fifoAppend b).uartcfg = s.uartcfg := by
  unfold Smc.fifoAppend
  split <;> simp

@[simp] theorem Smc.fifoAppend_trace (s : Smc) (b : Byte) : (s.fifoAppend b).trace = s.trace := by
  unfold Smc.fifoAppend
  split <;> simp

@[simp] theorem Smc.appendAll_win (s : Smc) (d : List Byte) : (s.appendAll d).win = s.win := by
  induction d generalizing s with
  | nil => rfl
  | cons b d ih => rw [Smc.appendAll, ih, Smc.fifoAppend_win]

@[simp] theorem Smc.appendAll_cfg (s : Smc) (d : List Byte) : (s.appendAll d).cfg = s.cfg := by
  induction d generalizing s with
  | nil => rfl
  | cons b d ih => rw [Smc.appendAll, ih, Smc.fifoAppend_cfg]

@[simp] theorem Smc.appendAll_ocur (s : Smc) (d : List Byte) : (s.appendAll d).ocur = s.ocur := by
  induction d generalizing s with
  | nil => rfl
  | cons b d ih => rw [Smc.appendAll, ih, Smc.fifoAppend_ocur]

@[simp] theorem Smc.appendAll_olast (s : Smc) (d : List Byte) : (s.appendAll d).olast = s.olast := by
  induction d generalizing s with
  | nil => rfl
  | cons b d ih => rw [Smc.appendAll, ih, Smc.fifoAppend_olast]

@[simp] theorem Smc.appendAll_pwr (s : Smc) (d : List Byte) : (s.appendAll d).pwr = s.pwr := by
  induction d generalizing s with
  | nil => rfl
  | cons b d ih => rw [Smc.appendAll, ih, Smc.fifoAppend_pwr]

@[simp] theorem Smc.appendAll_avpack (s : Smc) (d : List Byte) : (s.appendAll d).avpack = s.avpack := by
  induction d generalizing s with
  | nil => rfl
  | cons b d ih => rw [Smc.appendAll, ih, Smc.fifoAppend_avpack]

@[simp] theorem Smc.appendAll_uartcfg (s : Smc) (d : List Byte) : (s.appendAll d).uartcfg = s.uartcfg := by
  induction d generalizing s with
  | nil => rfl
  | cons b d ih => rw [Smc.appendAll, ih, Smc.fifoAppend_uartcfg]

@[simp] theorem Smc.appendAll_trace (s : Smc) (d : List Byte) : (s.appendAll d).trace = s.trace := by
  induction d generalizing s with
  | nil => rfl
  | cons b d ih => rw [Smc.appendAll, ih, Smc.fifoAppend_trace]

@[simp] theorem Smc.fifoFlush_win (s : Smc) : s.fifoFlush.win = s.win := by
  unfold Smc.fifoFlush
  split <;> simp

@[simp] theorem Smc.fifoFlush_cfg (s : Smc) : s.fifoFlush.cfg = s.cfg := by
  unfold Smc.fifoFlush
  split <;> simp

@[simp] theorem Smc.fifoFlush_ocur (s : Smc) : s.fifoFlush.ocur = s.ocur := by
  unfold Smc.fifoFlush
  split <;> simp

@[simp] theorem Smc.fifoFlush_olast (s : Smc) : s.fifoFlush.olast = s.olast := by
  unfold Smc.fifoFlush
  split <;> simp

@[simp] theorem Smc.fifoFlush_pwr (s : Smc) : s.fifoFlush.pwr = s.pwr := by
  unfold Smc.fifoFlush
  split <;> simp

@[simp] theorem Smc.fifoFlush_avpack (s : Smc) : s.fifoFlush.avpack = s.avpack := by
  unfold Smc.fifoFlush
  split <;> simp

@[simp] theorem Smc.fifoFlush_uartcfg (s : Smc) : s.fifoFlush.uartcfg = s.uartcfg := by
  unfold Smc.fifoFlush
  split <;> simp

@[simp] theorem Smc.fifoFlush_trace (s : Smc) : s.fifoFlush.trace = s.trace := by
  unfold Smc.fifoFlush
  split <;> simp

/-- An append keeps the cursor below 16: "cursor never exceeds 16" (R36, R41). -/
theorem Smc.fifoAppend_cur_le (s : Smc) (b : Byte) (h : s.cur ≤ 15) : (s.fifoAppend b).cur ≤ 15 := by
  unfold Smc.fifoAppend
  split
  · simp
  · next hne => simp at hne ⊢; omega

theorem Smc.appendAll_cur_le (s : Smc) (d : List Byte) (h : s.cur ≤ 15) :
    (s.appendAll d).cur ≤ 15 := by
  induction d generalizing s with
  | nil => exact h
  | cons b d ih => exact ih _ (s.fifoAppend_cur_le b h)

theorem Smc.fifoFlush_cur_le (s : Smc) (h : s.cur ≤ 15) : s.fifoFlush.cur ≤ 15 := by
  unfold Smc.fifoFlush
  split <;> simp [h]

theorem Smc.fifoAppend_respq (s : Smc) (b : Byte) :
    ∃ ps, (s.fifoAppend b).respq = s.respq ++ ps := by
  unfold Smc.fifoAppend
  split
  · exact (s.place b).fifoDispatch_respq
  · exact ⟨[], by simp⟩

theorem Smc.appendAll_respq (s : Smc) (d : List Byte) :
    ∃ ps, (s.appendAll d).respq = s.respq ++ ps := by
  induction d generalizing s with
  | nil => exact ⟨[], by simp [Smc.appendAll]⟩
  | cons b d ih =>
    obtain ⟨ps, h⟩ := ih (s.fifoAppend b)
    obtain ⟨ps', h'⟩ := s.fifoAppend_respq b
    exact ⟨ps' ++ ps, by rw [Smc.appendAll, h, h', List.append_assoc]⟩

theorem Smc.fifoFlush_respq (s : Smc) : ∃ ps, s.fifoFlush.respq = s.respq ++ ps := by
  unfold Smc.fifoFlush
  split
  · exact ⟨[], by simp⟩
  · exact s.fifoDispatch_respq

theorem Smc.fifoAppend_tray (s : Smc) (b : Byte) : CommandArrow s.tray (s.fifoAppend b).tray := by
  unfold Smc.fifoAppend
  split
  · exact (s.place b).fifoDispatch_tray
  · exact CommandArrow.refl _

theorem Smc.appendAll_tray (s : Smc) (d : List Byte) : CommandArrow s.tray (s.appendAll d).tray := by
  induction d generalizing s with
  | nil => exact CommandArrow.refl _
  | cons b d ih => exact (s.fifoAppend_tray b).trans (ih _)

theorem Smc.fifoFlush_tray (s : Smc) : CommandArrow s.tray s.fifoFlush.tray := by
  unfold Smc.fifoFlush
  split
  · exact CommandArrow.refl _
  · exact s.fifoDispatch_tray

/-- Appends that do not fill the frame only place their bytes: the frame, byte by byte (R190). -/
theorem Smc.appendAll_short (s : Smc) (d : List Byte) (h : s.cur + d.length < 16) :
    ∃ f : Frame, s.appendAll d = { s with fifo := f, cur := s.cur + d.length } ∧
      ∀ j < 16, f.toList.getD j 0 =
        if s.cur ≤ j ∧ j < s.cur + d.length then d.getD (j - s.cur) 0 else s.fifo.toList.getD j 0 := by
  induction d generalizing s with
  | nil =>
    refine ⟨s.fifo, by simp [Smc.appendAll], fun j _ => ?_⟩
    have : ¬(s.cur ≤ j ∧ j < s.cur + ([] : List Byte).length) := by simp
    rw [if_neg this]
  | cons b d ih =>
    simp only [List.length_cons] at h
    have hne : ¬(s.place b).cur = 16 := by simp; omega
    have hap : s.fifoAppend b = s.place b := by rw [Smc.fifoAppend, if_neg hne]
    obtain ⟨f, hf, hb⟩ := ih (s.place b) (by simp; omega)
    refine ⟨f, ?_, fun j hj => ?_⟩
    · rw [Smc.appendAll, hap, hf]
      simp only [Smc.place, List.length_cons, Smc.mk.injEq, true_and, and_true]
      omega
    · rw [hb j hj]
      simp only [Smc.place_cur, Smc.place_fifo, List.length_cons]
      have hset : (s.fifo.setIfInBounds s.cur b).toList.getD j 0 =
          if j = s.cur then b else s.fifo.toList.getD j 0 := by
        by_cases hjc : j = s.cur
        · subst hjc
          simp [List.getD, hj]
        · have : ¬s.cur = j := fun e => hjc e.symm
          simp [List.getD, this, hjc]
      by_cases h1 : s.cur + 1 ≤ j ∧ j < s.cur + 1 + d.length
      · have h2 : s.cur ≤ j ∧ j < s.cur + (d.length + 1) := by omega
        obtain ⟨k, hk⟩ : ∃ k, j - s.cur = k + 1 := ⟨j - s.cur - 1, by omega⟩
        have hk' : j - (s.cur + 1) = k := by omega
        rw [if_pos h1, if_pos h2, hk, hk']
        simp
      · rw [if_neg h1, hset]
        by_cases hjc : j = s.cur
        · have h2 : s.cur ≤ j ∧ j < s.cur + (d.length + 1) := by omega
          rw [if_pos hjc, if_pos h2, hjc]
          simp
        · have h2 : ¬(s.cur ≤ j ∧ j < s.cur + (d.length + 1)) := by omega
          rw [if_neg hjc, if_neg h2]

/-- Appending two runs of bytes one after the other. -/
theorem Smc.appendAll_append (s : Smc) (d e : List Byte) :
    s.appendAll (d ++ e) = (s.appendAll d).appendAll e := by
  induction d generalizing s with
  | nil => rfl
  | cons b d ih => exact ih _

/-! ### A frame run whole -/

@[simp] theorem Smc.ran_cur (f : Frame) (s : Smc) : (Smc.ran f s).cur = s.cur := by
  unfold Smc.ran
  split <;> simp

@[simp] theorem Smc.ran_fifo (f : Frame) (s : Smc) : (Smc.ran f s).fifo = s.fifo := by
  unfold Smc.ran
  split <;> simp

/-- A dispatch runs the command of the whole frame with the cursor at 0 and the frame buffer as it was
(R194, R196). -/
theorem Smc.fifoDispatch_eq_ran (s : Smc) : s.fifoDispatch = Smc.ran s.fifo { s with cur := 0 } := rfl

/-- Appends that exactly fill the frame dispatch it once, at its last byte (R190). -/
theorem Smc.appendAll_fill (s : Smc) (d : List Byte) (hc : s.cur ≤ 15) (h : d.length = 16 - s.cur) :
    ∃ f : Frame, s.appendAll d = Smc.ran f { s with fifo := f, cur := 0 } ∧
      ∀ j < 16, frameByte f j =
        if s.cur ≤ j then d.getD (j - s.cur) 0 else frameByte s.fifo j := by
  obtain ⟨e, b, rfl⟩ : ∃ e b, d = e ++ [b] :=
    ⟨d.dropLast, d.getLast (by intro h0; subst h0; simp at h; omega),
      (List.dropLast_append_getLast _).symm⟩
  simp only [List.length_append, List.length_cons, List.length_nil] at h
  obtain ⟨f, hf, hb⟩ := Smc.appendAll_short s e (by omega)
  refine ⟨f.setIfInBounds 15 b, ?_, ?_⟩
  · rw [Smc.appendAll_append, hf]
    show Smc.fifoAppend _ b = _
    have h15 : s.cur + e.length = 15 := by omega
    rw [Smc.fifoAppend, if_pos (by simp [Smc.place]; omega)]
    simp only [Smc.place, h15]
    rfl
  · intro j hj
    have hset : frameByte (f.setIfInBounds 15 b) j = if j = 15 then b else frameByte f j := by
      unfold frameByte
      by_cases hjc : j = 15
      · subst hjc
        simp [List.getD]
      · have : ¬15 = j := fun e => hjc e.symm
        simp [List.getD, this, hjc]
    rw [hset]
    by_cases hj15 : j = 15
    · subst hj15
      have : 15 - s.cur = e.length := by omega
      rw [if_pos rfl, if_pos (by omega), this]
      simp [List.getD]
    · rw [if_neg hj15]
      refine (hb j hj).trans ?_
      by_cases hcj : s.cur ≤ j
      · have : j - s.cur < e.length := by omega
        rw [if_pos (by omega), if_pos hcj]
        simp [List.getD, this, List.getElem?_append]
      · rw [if_neg (by omega), if_neg hcj]
        rfl

end Sys2Proof.Machine
end

