-- ==== Sys2Proof/Laws/Memory.lean ====
section
/-! SUPPORT. What the byte-storage operations do: a byte read after a write, after a run of writes, and
that every operation keeps the canonical form. The reading laws hold of any list, canonical or not. -/

namespace Sys2Proof.Machine

@[simp] theorem Mem.read_nil (a : Nat) : Mem.read [] a = 0 := rfl

theorem Mem.read_cons (k : Nat) (v : Byte) (m : Mem) (a : Nat) :
    Mem.read ((k, v) :: m) a = if k = a then v else Mem.read m a := rfl

/-- Leaving out the entries of one address makes it read 0x00 and changes no other byte. -/
theorem Mem.read_filter (m : Mem) (a x : Nat) :
    Mem.read (m.filter fun c => c.1 != a) x = if x = a then 0 else Mem.read m x := by
  induction m with
  | nil => simp
  | cons c m ih =>
    obtain ⟨k, v⟩ := c
    by_cases hk : k = a
    · subst hk
      by_cases hx : x = k
      · rw [if_pos hx] at ih ⊢
        simpa using ih
      · have : ¬k = x := fun h => hx h.symm
        simp [ih, hx, Mem.read_cons, this]
    · by_cases hx : x = a
      · subst hx
        simpa [hk, Mem.read_cons] using ih
      · simp [hk, Mem.read_cons, ih, hx]

/-- Inserting at an address no entry lists makes it read the new byte and changes no other byte. -/
theorem Mem.read_insert (m : Mem) (a x : Nat) (b : Byte) (h : ∀ c ∈ m, c.1 ≠ a) :
    Mem.read (Mem.insert m a b) x = if x = a then b else Mem.read m x := by
  induction m with
  | nil =>
    by_cases hx : x = a
    · simp [Mem.insert, Mem.read, hx]
    · have : ¬a = x := fun e => hx e.symm
      simp [Mem.insert, Mem.read, hx, this]
  | cons c m ih =>
    obtain ⟨k, v⟩ := c
    have hk : k ≠ a := h (k, v) (by simp)
    have ih := ih fun c hc => h c (by simp [hc])
    by_cases hx : x = a
    · subst hx
      by_cases hlt : x < k <;> simp [Mem.insert, hlt, Mem.read_cons, ih, hk]
    · have hax : ¬a = x := fun e => hx e.symm
      by_cases hlt : a < k <;> simp [Mem.insert, hlt, Mem.read_cons, ih, hx, hax]

/-- A byte read after a write: the byte written at its address, the old byte anywhere else. -/
theorem Mem.read_write (m : Mem) (a x : Nat) (b : Byte) :
    Mem.read (Mem.write m a b) x = if x = a then b else Mem.read m x := by
  unfold Mem.write
  by_cases hb : b = 0
  · simp [hb, Mem.read_filter]
  · rw [if_neg hb, Mem.read_insert _ _ _ _ (by simp), Mem.read_filter]
    by_cases hx : x = a <;> simp [hx]

/-- A byte read after a run of writes. -/
theorem Mem.read_writeBytes (m : Mem) (a x : Nat) (bs : List Byte) :
    Mem.read (Mem.writeBytes m a bs) x =
      if a ≤ x ∧ x < a + bs.length then bs.getD (x - a) 0 else Mem.read m x := by
  induction bs generalizing m a with
  | nil =>
    have : ¬(a ≤ x ∧ x < a) := by omega
    simp [Mem.writeBytes, this]
  | cons b bs ih =>
    rw [Mem.writeBytes, ih, Mem.read_write]
    by_cases h1 : x = a
    · subst h1
      have : ¬(x + 1 ≤ x ∧ x < x + 1 + bs.length) := by omega
      rw [if_neg this]
      simp
    · by_cases h2 : a ≤ x ∧ x < a + (b :: bs).length
      · have h3 : a + 1 ≤ x ∧ x < a + 1 + bs.length := by simp at h2; omega
        obtain ⟨k, hk⟩ : ∃ k, x - a = k + 1 := ⟨x - a - 1, by omega⟩
        have hk' : x - (a + 1) = k := by omega
        rw [if_pos h3, if_pos h2, hk, hk']
        simp
      · have h3 : ¬(a + 1 ≤ x ∧ x < a + 1 + bs.length) := by simp at h2; omega
        rw [if_neg h3, if_neg h2, if_neg h1]

@[simp] theorem Mem.readBytes_length (m : Mem) (a n : Nat) : (Mem.readBytes m a n).length = n := by
  induction n generalizing a with
  | zero => rfl
  | succ n ih => simp [Mem.readBytes, ih]

/-- The `j`-th byte of a run of reads. -/
theorem Mem.readBytes_getElem? (m : Mem) (a n j : Nat) :
    (Mem.readBytes m a n)[j]? = if j < n then some (Mem.read m (a + j)) else none := by
  induction n generalizing a j with
  | zero => simp [Mem.readBytes]
  | succ n ih =>
    cases j with
    | zero => simp [Mem.readBytes]
    | succ j =>
      rw [Mem.readBytes, List.getElem?_cons_succ, ih]
      have : a + 1 + j = a + (j + 1) := by omega
      simp [this]

/-- A run of reads depends only on the bytes read. -/
theorem Mem.readBytes_congr (m m' : Mem) (a n : Nat)
    (h : ∀ x, a ≤ x → x < a + n → Mem.read m x = Mem.read m' x) :
    Mem.readBytes m a n = Mem.readBytes m' a n := by
  induction n generalizing a with
  | zero => rfl
  | succ n ih =>
    rw [Mem.readBytes, Mem.readBytes, h a (by omega) (by omega),
      ih (a + 1) fun x h1 h2 => h x (by omega) (by omega)]

/-- What the canonical form says, entry by entry. -/
theorem Mem.wf_iff (size : Nat) (m : Mem) :
    Mem.wf size m = true ↔
      (m.Pairwise fun c d => c.1 < d.1) ∧ ∀ c ∈ m, c.1 < size ∧ c.2 ≠ 0 := by
  simp [Mem.wf]

theorem Mem.mem_insert (m : Mem) (a : Nat) (b : Byte) (c : Host.Cell) :
    c ∈ Mem.insert m a b ↔ c = (a, b) ∨ c ∈ m := by
  induction m with
  | nil => simp [Mem.insert]
  | cons d m ih =>
    obtain ⟨k, v⟩ := d
    by_cases hlt : a < k
    · simp [Mem.insert, hlt]
    · simp [Mem.insert, hlt, ih]
      tauto

theorem Mem.insert_sorted (m : Mem) (a : Nat) (b : Byte)
    (hs : m.Pairwise fun c d => c.1 < d.1) (h : ∀ c ∈ m, c.1 ≠ a) :
    (Mem.insert m a b).Pairwise fun c d => c.1 < d.1 := by
  induction m with
  | nil => simp [Mem.insert]
  | cons d m ih =>
    obtain ⟨k, v⟩ := d
    have hk : k ≠ a := h (k, v) (by simp)
    obtain ⟨hd, hm⟩ := List.pairwise_cons.mp hs
    by_cases hlt : a < k
    · simp only [Mem.insert, hlt, if_true]
      refine List.pairwise_cons.mpr ⟨?_, hs⟩
      intro c hc
      rcases List.mem_cons.mp hc with rfl | hc
      · exact hlt
      · exact lt_trans hlt (hd c hc)
    · simp only [Mem.insert, hlt, if_false]
      refine List.pairwise_cons.mpr ⟨?_, ih hm fun c hc => h c (by simp [hc])⟩
      intro c hc
      rcases (Mem.mem_insert m a b c).mp hc with rfl | hc
      · show k < a
        omega
      · exact hd c hc

/-- A write inside the space keeps the canonical form. -/
theorem Mem.wf_write (size : Nat) (m : Mem) (a : Nat) (b : Byte) (h : Mem.wf size m = true)
    (ha : a < size) : Mem.wf size (Mem.write m a b) = true := by
  rw [Mem.wf_iff] at h ⊢
  have hs : (m.filter fun c => c.1 != a).Pairwise fun c d => c.1 < d.1 := h.1.filter _
  unfold Mem.write
  by_cases hb : b = 0
  · rw [if_pos hb]
    exact ⟨hs, fun c hc => h.2 c (List.mem_filter.mp hc).1⟩
  · rw [if_neg hb]
    refine ⟨Mem.insert_sorted _ _ _ hs (by simp), fun c hc => ?_⟩
    rcases (Mem.mem_insert _ _ _ _).mp hc with rfl | hc
    · exact ⟨ha, hb⟩
    · exact h.2 c (List.mem_filter.mp hc).1

/-- A run of writes inside the space keeps the canonical form. -/
theorem Mem.wf_writeBytes (size : Nat) (m : Mem) (a : Nat) (bs : List Byte)
    (h : Mem.wf size m = true) (ha : a + bs.length ≤ size) :
    Mem.wf size (Mem.writeBytes m a bs) = true := by
  induction bs generalizing m a with
  | nil => exact h
  | cons b bs ih =>
    simp only [List.length_cons] at ha
    exact ih _ _ (Mem.wf_write size m a b h (by omega)) (by omega)

/-- An image gives a canonical memory. -/
theorem Mem.wf_ofImage (size : Nat) (image : List Byte) :
    Mem.wf size (Mem.ofImage size image) = true :=
  Mem.wf_writeBytes size [] 0 _ (by simp [Mem.wf]) (by simp)

/-- A byte of an image: the byte listed, 0x00 past the list's end or the space's. -/
theorem Mem.read_ofImage (size : Nat) (image : List Byte) (x : Nat) :
    Mem.read (Mem.ofImage size image) x = if x < size then image.getD x 0 else 0 := by
  rw [Mem.ofImage, Mem.read_writeBytes]
  by_cases h : x < size
  · by_cases hi : x < image.length
    · simp [h, hi, List.getD]
    · have : image[x]? = none := by simp; omega
      simp [h, hi, List.getD]
  · simp [h]

end Sys2Proof.Machine
end

