-- ==== Sys2Proof/Laws/Smc.lean ====
section
/-! SUPPORT. What the pieces and operations of the SMC bus port can change, stated once: the window byte by
byte, and the fields no operation of a kind touches. -/

namespace Sys2Proof.Machine

/-! ### Clamping and pieces -/

/-- The clamp never exceeds the length, nor runs past the space (R83, R130). -/
theorem clamp_le (addr len size : Nat) : clamp addr len size ≤ len := by
  unfold clamp
  split <;> omega

theorem clamp_fits (addr len size : Nat) (h : 0 < clamp addr len size) :
    addr + clamp addr len size ≤ size := by
  unfold clamp at *
  split at h
  · omega
  · next hs => rw [if_neg hs]; omega

/-- A byte of an operation acts on the device exactly when its address is in the space (R83). -/
theorem lt_clamp_iff (addr len size j : Nat) :
    j < clamp addr len size ↔ j < len ∧ addr + j < size := by
  unfold clamp
  split
  · omega
  · omega

theorem pieces_zero (w addr : Nat) : pieces w addr 0 = [] := rfl

/-- The first piece of a run and the rest (R131). -/
theorem piecesFuel_succ (w fuel addr n : Nat) (h : n ≠ 0) :
    piecesFuel w (fuel + 1) addr n =
      ⟨addr - addr % w, addr % w, min (w - addr % w) n⟩ ::
        piecesFuel w fuel (addr + min (w - addr % w) n) (n - min (w - addr % w) n) := by
  rw [piecesFuel, if_neg h]

/-- Fuel beyond the run's length changes nothing. -/
theorem piecesFuel_enough (w : Nat) (hw : 0 < w) (fuel addr n : Nat) (h : n ≤ fuel) :
    piecesFuel w fuel addr n = pieces w addr n := by
  unfold pieces
  induction fuel using Nat.strong_induction_on generalizing addr n with
  | _ fuel ih =>
    cases n with
    | zero => cases fuel <;> rfl
    | succ n =>
      cases fuel with
      | zero => omega
      | succ fuel =>
        have hm : addr % w < w := Nat.mod_lt _ hw
        rw [piecesFuel_succ _ _ _ _ (by omega), piecesFuel_succ _ _ _ _ (by omega)]
        congr 1
        rw [ih fuel (by omega) _ _ (by omega), ih n (by omega) _ _ (by omega)]

/-- The pieces of a run that is not empty: the first and the pieces of what is left. -/
theorem pieces_cons (w addr n : Nat) (hw : 0 < w) (h : n ≠ 0) :
    pieces w addr n =
      ⟨addr - addr % w, addr % w, min (w - addr % w) n⟩ ::
        pieces w (addr + min (w - addr % w) n) (n - min (w - addr % w) n) := by
  obtain ⟨m, rfl⟩ : ∃ m, n = m + 1 := ⟨n - 1, by omega⟩
  have hm : addr % w < w := Nat.mod_lt _ hw
  rw [pieces, piecesFuel_succ _ _ _ _ h, piecesFuel_enough w hw _ _ _ (by omega)]

/-! ### Write pieces -/

@[simp] theorem Smc.effect_win (r : SmcReg) (w : Word) (d : List Byte) (s : Smc) :
    (s.effect r w d).win = s.win := by
  cases r <;> simp [Smc.effect, Smc.noEffect, Smc.emit, Smc.busControlEffect, Smc.uartInEffect,
    Smc.uartOutEffect, Smc.uartStatusEffect, Smc.uartConfigEffect, Smc.smiIntPendingEffect,
    Smc.smiIntAckEffect, Smc.smiIntEnableEffect, Smc.clockIntEnableEffect, Smc.clockIntStatusEffect,
    Smc.fifoInMsgEffect, Smc.fifoInStatusEffect, Smc.fifoOutMsgEffect, Smc.fifoOutStatusEffect,
    apply_ite Smc.win]

@[simp] theorem Smc.effect_cfg (r : SmcReg) (w : Word) (d : List Byte) (s : Smc) :
    (s.effect r w d).cfg = s.cfg := by
  cases r <;> simp [Smc.effect, Smc.noEffect, Smc.emit, Smc.busControlEffect, Smc.uartInEffect,
    Smc.uartOutEffect, Smc.uartStatusEffect, Smc.uartConfigEffect, Smc.smiIntPendingEffect,
    Smc.smiIntAckEffect, Smc.smiIntEnableEffect, Smc.clockIntEnableEffect, Smc.clockIntStatusEffect,
    Smc.fifoInMsgEffect, Smc.fifoInStatusEffect, Smc.fifoOutMsgEffect, Smc.fifoOutStatusEffect,
    apply_ite Smc.cfg]

@[simp] theorem Smc.effect_ocur (r : SmcReg) (w : Word) (d : List Byte) (s : Smc) :
    (s.effect r w d).ocur = s.ocur := by
  cases r <;> simp [Smc.effect, Smc.noEffect, Smc.emit, Smc.busControlEffect, Smc.uartInEffect,
    Smc.uartOutEffect, Smc.uartStatusEffect, Smc.uartConfigEffect, Smc.smiIntPendingEffect,
    Smc.smiIntAckEffect, Smc.smiIntEnableEffect, Smc.clockIntEnableEffect, Smc.clockIntStatusEffect,
    Smc.fifoInMsgEffect, Smc.fifoInStatusEffect, Smc.fifoOutMsgEffect, Smc.fifoOutStatusEffect,
    apply_ite Smc.ocur]

@[simp] theorem Smc.effect_olast (r : SmcReg) (w : Word) (d : List Byte) (s : Smc) :
    (s.effect r w d).olast = s.olast := by
  cases r <;> simp [Smc.effect, Smc.noEffect, Smc.emit, Smc.busControlEffect, Smc.uartInEffect,
    Smc.uartOutEffect, Smc.uartStatusEffect, Smc.uartConfigEffect, Smc.smiIntPendingEffect,
    Smc.smiIntAckEffect, Smc.smiIntEnableEffect, Smc.clockIntEnableEffect, Smc.clockIntStatusEffect,
    Smc.fifoInMsgEffect, Smc.fifoInStatusEffect, Smc.fifoOutMsgEffect, Smc.fifoOutStatusEffect,
    apply_ite Smc.olast]

@[simp] theorem Smc.effect_pwr (r : SmcReg) (w : Word) (d : List Byte) (s : Smc) :
    (s.effect r w d).pwr = s.pwr := by
  cases r <;> simp [Smc.effect, Smc.noEffect, Smc.emit, Smc.busControlEffect, Smc.uartInEffect,
    Smc.uartOutEffect, Smc.uartStatusEffect, Smc.uartConfigEffect, Smc.smiIntPendingEffect,
    Smc.smiIntAckEffect, Smc.smiIntEnableEffect, Smc.clockIntEnableEffect, Smc.clockIntStatusEffect,
    Smc.fifoInMsgEffect, Smc.fifoInStatusEffect, Smc.fifoOutMsgEffect, Smc.fifoOutStatusEffect,
    apply_ite Smc.pwr]

@[simp] theorem Smc.effect_avpack (r : SmcReg) (w : Word) (d : List Byte) (s : Smc) :
    (s.effect r w d).avpack = s.avpack := by
  cases r <;> simp [Smc.effect, Smc.noEffect, Smc.emit, Smc.busControlEffect, Smc.uartInEffect,
    Smc.uartOutEffect, Smc.uartStatusEffect, Smc.uartConfigEffect, Smc.smiIntPendingEffect,
    Smc.smiIntAckEffect, Smc.smiIntEnableEffect, Smc.clockIntEnableEffect, Smc.clockIntStatusEffect,
    Smc.fifoInMsgEffect, Smc.fifoInStatusEffect, Smc.fifoOutMsgEffect, Smc.fifoOutStatusEffect,
    apply_ite Smc.avpack]

/-- A write effect keeps the cursor below 16 (R41 (a)). -/
theorem Smc.effect_cur_le (r : SmcReg) (w : Word) (d : List Byte) (s : Smc) (h : s.cur ≤ 15) :
    (s.effect r w d).cur ≤ 15 := by
  cases r <;> first
    | exact s.appendAll_cur_le d h
    | (show (if inReady w then s.fifoFlush else s).cur ≤ 15
       split
       · exact s.fifoFlush_cur_le h
       · exact h)
    | exact h

/-- A write effect only appends to the response queue (R197). -/
theorem Smc.effect_respq (r : SmcReg) (w : Word) (d : List Byte) (s : Smc) :
    ∃ ps, (s.effect r w d).respq = s.respq ++ ps := by
  cases r <;> first
    | exact s.appendAll_respq d
    | (show ∃ ps, (if inReady w then s.fifoFlush else s).respq = s.respq ++ ps
       split
       · exact s.fifoFlush_respq
       · exact ⟨[], by simp⟩)
    | exact ⟨[], (List.append_nil _).symm⟩

/-- A write effect moves the tray along commands' arrows or leaves it. -/
theorem Smc.effect_tray (r : SmcReg) (w : Word) (d : List Byte) (s : Smc) :
    CommandArrow s.tray (s.effect r w d).tray := by
  cases r <;> first
    | exact s.appendAll_tray d
    | (show CommandArrow s.tray (if inReady w then s.fifoFlush else s).tray
       split
       · exact s.fifoFlush_tray
       · exact CommandArrow.refl _)
    | exact CommandArrow.refl _

/-- Only a write of UART_CONFIG changes `S.uartcfg` (R155). -/
theorem Smc.effect_uartcfg (r : SmcReg) (w : Word) (d : List Byte) (s : Smc) :
    (s.effect r w d).uartcfg = if r = .uartConfig then w else s.uartcfg := by
  cases r <;> first
    | (show (s.appendAll d).uartcfg = _; simp)
    | (show (if inReady w then s.fifoFlush else s).uartcfg = _; split <;> simp)
    | rfl

/-- The window after a bus write piece: the bytes laid over it, whatever the slot (R137, R139). -/
theorem Smc.busWritePiece_win (p : Piece) (d : List Byte) (s : Smc) (x : Nat) :
    Mem.read (s.busWritePiece p d).win x = overlay s.win (p.base + p.lane) d x := by
  unfold Smc.busWritePiece
  split
  · next r h =>
    have hb : r.offset = p.base := by
      have := List.find?_some h
      simpa using this
    simp [Smc.writePiece, Mem.read_writeBytes, overlay, hb]
  · simp [Smc.storageWrite, Mem.read_writeBytes, overlay]

@[simp] theorem Smc.busWritePiece_cfg (p : Piece) (d : List Byte) (s : Smc) :
    (s.busWritePiece p d).cfg = s.cfg := by
  unfold Smc.busWritePiece
  split <;> simp [Smc.writePiece, Smc.storageWrite]

@[simp] theorem Smc.writePieces_cfg (ps : List Piece) (buf : List Byte) (s : Smc) :
    (Smc.writePieces ps buf s).cfg = s.cfg := by
  induction ps generalizing buf s with
  | nil => rfl
  | cons p ps ih => simp [Smc.writePieces, ih]

@[simp] theorem Smc.busWrite_cfg (addr : Nat) (buf : List Byte) (s : Smc) :
    (s.busWrite addr buf).cfg = s.cfg := by
  simp [Smc.busWrite]

@[simp] theorem Smc.busWritePiece_ocur (p : Piece) (d : List Byte) (s : Smc) :
    (s.busWritePiece p d).ocur = s.ocur := by
  unfold Smc.busWritePiece
  split <;> simp [Smc.writePiece, Smc.storageWrite]

@[simp] theorem Smc.writePieces_ocur (ps : List Piece) (buf : List Byte) (s : Smc) :
    (Smc.writePieces ps buf s).ocur = s.ocur := by
  induction ps generalizing buf s with
  | nil => rfl
  | cons p ps ih => simp [Smc.writePieces, ih]

@[simp] theorem Smc.busWrite_ocur (addr : Nat) (buf : List Byte) (s : Smc) :
    (s.busWrite addr buf).ocur = s.ocur := by
  simp [Smc.busWrite]

@[simp] theorem Smc.busWritePiece_olast (p : Piece) (d : List Byte) (s : Smc) :
    (s.busWritePiece p d).olast = s.olast := by
  unfold Smc.busWritePiece
  split <;> simp [Smc.writePiece, Smc.storageWrite]

@[simp] theorem Smc.writePieces_olast (ps : List Piece) (buf : List Byte) (s : Smc) :
    (Smc.writePieces ps buf s).olast = s.olast := by
  induction ps generalizing buf s with
  | nil => rfl
  | cons p ps ih => simp [Smc.writePieces, ih]

@[simp] theorem Smc.busWrite_olast (addr : Nat) (buf : List Byte) (s : Smc) :
    (s.busWrite addr buf).olast = s.olast := by
  simp [Smc.busWrite]

@[simp] theorem Smc.busWritePiece_pwr (p : Piece) (d : List Byte) (s : Smc) :
    (s.busWritePiece p d).pwr = s.pwr := by
  unfold Smc.busWritePiece
  split <;> simp [Smc.writePiece, Smc.storageWrite]

@[simp] theorem Smc.writePieces_pwr (ps : List Piece) (buf : List Byte) (s : Smc) :
    (Smc.writePieces ps buf s).pwr = s.pwr := by
  induction ps generalizing buf s with
  | nil => rfl
  | cons p ps ih => simp [Smc.writePieces, ih]

@[simp] theorem Smc.busWrite_pwr (addr : Nat) (buf : List Byte) (s : Smc) :
    (s.busWrite addr buf).pwr = s.pwr := by
  simp [Smc.busWrite]

@[simp] theorem Smc.busWritePiece_avpack (p : Piece) (d : List Byte) (s : Smc) :
    (s.busWritePiece p d).avpack = s.avpack := by
  unfold Smc.busWritePiece
  split <;> simp [Smc.writePiece, Smc.storageWrite]

@[simp] theorem Smc.writePieces_avpack (ps : List Piece) (buf : List Byte) (s : Smc) :
    (Smc.writePieces ps buf s).avpack = s.avpack := by
  induction ps generalizing buf s with
  | nil => rfl
  | cons p ps ih => simp [Smc.writePieces, ih]

@[simp] theorem Smc.busWrite_avpack (addr : Nat) (buf : List Byte) (s : Smc) :
    (s.busWrite addr buf).avpack = s.avpack := by
  simp [Smc.busWrite]

/-- The window after the pieces of a run are written: the buffer laid over it. -/
theorem Smc.writePieces_win (addr : Nat) (buf : List Byte) (s : Smc) (x : Nat) :
    Mem.read (Smc.writePieces (pieces 4 addr buf.length) buf s).win x = overlay s.win addr buf x := by
  generalize hn : buf.length = n
  induction n using Nat.strong_induction_on generalizing addr buf s with
  | _ n ih =>
    by_cases h0 : n = 0
    · subst h0
      have : ¬(addr ≤ x ∧ x < addr + buf.length) := by omega
      rw [pieces_zero, Smc.writePieces, overlay, if_neg this]
    · have hm : addr % 4 < 4 := Nat.mod_lt _ (by omega)
      generalize hk : min (4 - addr % 4) n = k
      have hk1 : 1 ≤ k ∧ k ≤ n := by omega
      have hlen : (buf.drop k).length = n - k := by simp; omega
      have hmod : addr % 4 ≤ addr := Nat.mod_le _ _
      rw [pieces_cons 4 addr n (by omega) h0, hk, Smc.writePieces, ih (n - k) (by omega) _ _ _ hlen]
      have hsum : addr - addr % 4 + addr % 4 = addr := by omega
      have htake : (buf.take k).length = k := by simp; omega
      simp only [overlay, Smc.busWritePiece_win, hsum, hlen, htake, hn]
      by_cases h1 : addr + k ≤ x ∧ x < addr + k + (n - k)
      · have h2 : addr ≤ x ∧ x < addr + n := by omega
        have h3 : k + (x - (addr + k)) = x - addr := by omega
        simp [h1, h2, List.getD, h3]
      · by_cases h2 : addr ≤ x ∧ x < addr + k
        · have h3 : addr ≤ x ∧ x < addr + n := by omega
          have h4 : x - addr < k := by omega
          rw [if_neg h1, if_pos h2, if_pos h3]
          simp [List.getD, h4]
        · have h3 : ¬(addr ≤ x ∧ x < addr + n) := by omega
          rw [if_neg h1, if_neg h2, if_neg h3]

/-- The window after a Write: the in-range bytes of the buffer laid over it (R83, R132). -/
theorem Smc.busWrite_win (addr : Nat) (buf : List Byte) (s : Smc) (x : Nat) :
    Mem.read (s.busWrite addr buf).win x =
      if x < Params.smcSize then overlay s.win addr buf x else Mem.read s.win x := by
  have hle := clamp_le addr buf.length Params.smcSize
  have hlen : (buf.take (clamp addr buf.length Params.smcSize)).length =
      clamp addr buf.length Params.smcSize := by simp; omega
  have h := Smc.writePieces_win addr (buf.take (clamp addr buf.length Params.smcSize)) s x
  rw [hlen] at h
  have hc := lt_clamp_iff addr buf.length Params.smcSize (x - addr)
  simp only [Smc.busWrite, h, overlay, hlen]
  by_cases hx : addr ≤ x ∧ x < addr + clamp addr buf.length Params.smcSize
  · obtain ⟨h1, h2⟩ := hc.mp (by omega)
    have h3 : addr ≤ x ∧ x < addr + buf.length := by omega
    have h4 : x < Params.smcSize := by omega
    rw [if_pos hx, if_pos h4, if_pos h3]
    have h5 : x - addr < clamp addr buf.length Params.smcSize := by omega
    simp [List.getD, h5]
  · rw [if_neg hx]
    by_cases h4 : x < Params.smcSize
    · have h3 : ¬(addr ≤ x ∧ x < addr + buf.length) := fun h3 => by
        have := hc.mpr ⟨by omega, by omega⟩
        omega
      rw [if_pos h4, if_neg h3]
    · rw [if_neg h4]

/-! ### Read pieces -/

/-- What taking a word changes: the queue's head, its read position and the last word (R166). -/
theorem Smc.takeWord_cases (d : Drained) (s : Smc) :
    (s.respq = [] ∧ s.takeWord d = (s.drained d, s)) ∨
    (∃ p rest, s.respq = p :: rest ∧ s.ocur + 4 = 16 ∧ s.takeWord d =
      (frameWord p s.ocur, { s with respq := rest, ocur := 0, olast := frameWord p s.ocur })) ∨
    (∃ p rest, s.respq = p :: rest ∧ s.ocur + 4 ≠ 16 ∧ s.takeWord d =
      (frameWord p s.ocur, { s with ocur := s.ocur + 4, olast := frameWord p s.ocur })) := by
  unfold Smc.takeWord
  cases hq : s.respq with
  | nil => exact Or.inl ⟨rfl, by simp only⟩
  | cons p rest =>
    by_cases h : s.ocur + 4 = 16
    · exact Or.inr (Or.inl ⟨p, rest, rfl, h, by simp only [if_pos h]⟩)
    · exact Or.inr (Or.inr ⟨p, rest, rfl, h, by simp only [if_neg h]⟩)

/-- Only FIFO_OUT_MSG's read rule changes the SMC (R80). -/
theorem Smc.rule_state (r : SmcReg) (s : Smc) (h : r ≠ .fifoOutMsg) : (s.rule r).2 = s := by
  cases r <;> first
    | rfl
    | exact absurd rfl h

/-- Every register but the two FIFO out registers reads its stored word (R150). -/
theorem Smc.rule_word (r : SmcReg) (s : Smc) (h : r ≠ .fifoOutMsg) (h' : r ≠ .fifoOutStatus) :
    (s.rule r).1 = s.wslot r.offset := by
  cases r <;> first
    | rfl
    | exact absurd rfl h
    | exact absurd rfl h'

@[simp] theorem Smc.rule_win (r : SmcReg) (s : Smc) : (s.rule r).2.win = s.win := by
  by_cases h : r = .fifoOutMsg
  · subst h
    show (s.takeWord Params.fifoOutDrained).2.win = s.win
    rcases s.takeWord_cases Params.fifoOutDrained with ⟨-, h⟩ | ⟨p, rest, -, -, h⟩ | ⟨p, rest, -, -, h⟩ <;>
      rw [h]
  · rw [Smc.rule_state r s h]

@[simp] theorem Smc.busReadPiece_win (p : Piece) (s : Smc) : (s.busReadPiece p).2.win = s.win := by
  unfold Smc.busReadPiece
  split <;> simp [Smc.readPiece, Smc.storageRead]

@[simp] theorem Smc.readPieces_win (ps : List Piece) (s : Smc) :
    (Smc.readPieces ps s).2.win = s.win := by
  induction ps generalizing s with
  | nil => rfl
  | cons p ps ih => simp [Smc.readPieces, ih]

@[simp] theorem Smc.busRead_win (addr len : Nat) (s : Smc) : (s.busRead addr len).2.win = s.win := by
  simp [Smc.busRead]

@[simp] theorem Smc.rule_cfg (r : SmcReg) (s : Smc) : (s.rule r).2.cfg = s.cfg := by
  by_cases h : r = .fifoOutMsg
  · subst h
    show (s.takeWord Params.fifoOutDrained).2.cfg = s.cfg
    rcases s.takeWord_cases Params.fifoOutDrained with ⟨-, h⟩ | ⟨p, rest, -, -, h⟩ | ⟨p, rest, -, -, h⟩ <;>
      rw [h]
  · rw [Smc.rule_state r s h]

@[simp] theorem Smc.busReadPiece_cfg (p : Piece) (s : Smc) : (s.busReadPiece p).2.cfg = s.cfg := by
  unfold Smc.busReadPiece
  split <;> simp [Smc.readPiece, Smc.storageRead]

@[simp] theorem Smc.readPieces_cfg (ps : List Piece) (s : Smc) :
    (Smc.readPieces ps s).2.cfg = s.cfg := by
  induction ps generalizing s with
  | nil => rfl
  | cons p ps ih => simp [Smc.readPieces, ih]

@[simp] theorem Smc.busRead_cfg (addr len : Nat) (s : Smc) : (s.busRead addr len).2.cfg = s.cfg := by
  simp [Smc.busRead]

@[simp] theorem Smc.rule_fifo (r : SmcReg) (s : Smc) : (s.rule r).2.fifo = s.fifo := by
  by_cases h : r = .fifoOutMsg
  · subst h
    show (s.takeWord Params.fifoOutDrained).2.fifo = s.fifo
    rcases s.takeWord_cases Params.fifoOutDrained with ⟨-, h⟩ | ⟨p, rest, -, -, h⟩ | ⟨p, rest, -, -, h⟩ <;>
      rw [h]
  · rw [Smc.rule_state r s h]

@[simp] theorem Smc.busReadPiece_fifo (p : Piece) (s : Smc) : (s.busReadPiece p).2.fifo = s.fifo := by
  unfold Smc.busReadPiece
  split <;> simp [Smc.readPiece, Smc.storageRead]

@[simp] theorem Smc.readPieces_fifo (ps : List Piece) (s : Smc) :
    (Smc.readPieces ps s).2.fifo = s.fifo := by
  induction ps generalizing s with
  | nil => rfl
  | cons p ps ih => simp [Smc.readPieces, ih]

@[simp] theorem Smc.busRead_fifo (addr len : Nat) (s : Smc) : (s.busRead addr len).2.fifo = s.fifo := by
  simp [Smc.busRead]

@[simp] theorem Smc.rule_cur (r : SmcReg) (s : Smc) : (s.rule r).2.cur = s.cur := by
  by_cases h : r = .fifoOutMsg
  · subst h
    show (s.takeWord Params.fifoOutDrained).2.cur = s.cur
    rcases s.takeWord_cases Params.fifoOutDrained with ⟨-, h⟩ | ⟨p, rest, -, -, h⟩ | ⟨p, rest, -, -, h⟩ <;>
      rw [h]
  · rw [Smc.rule_state r s h]

@[simp] theorem Smc.busReadPiece_cur (p : Piece) (s : Smc) : (s.busReadPiece p).2.cur = s.cur := by
  unfold Smc.busReadPiece
  split <;> simp [Smc.readPiece, Smc.storageRead]

@[simp] theorem Smc.readPieces_cur (ps : List Piece) (s : Smc) :
    (Smc.readPieces ps s).2.cur = s.cur := by
  induction ps generalizing s with
  | nil => rfl
  | cons p ps ih => simp [Smc.readPieces, ih]

@[simp] theorem Smc.busRead_cur (addr len : Nat) (s : Smc) : (s.busRead addr len).2.cur = s.cur := by
  simp [Smc.busRead]

@[simp] theorem Smc.rule_tray (r : SmcReg) (s : Smc) : (s.rule r).2.tray = s.tray := by
  by_cases h : r = .fifoOutMsg
  · subst h
    show (s.takeWord Params.fifoOutDrained).2.tray = s.tray
    rcases s.takeWord_cases Params.fifoOutDrained with ⟨-, h⟩ | ⟨p, rest, -, -, h⟩ | ⟨p, rest, -, -, h⟩ <;>
      rw [h]
  · rw [Smc.rule_state r s h]

@[simp] theorem Smc.busReadPiece_tray (p : Piece) (s : Smc) : (s.busReadPiece p).2.tray = s.tray := by
  unfold Smc.busReadPiece
  split <;> simp [Smc.readPiece, Smc.storageRead]

@[simp] theorem Smc.readPieces_tray (ps : List Piece) (s : Smc) :
    (Smc.readPieces ps s).2.tray = s.tray := by
  induction ps generalizing s with
  | nil => rfl
  | cons p ps ih => simp [Smc.readPieces, ih]

@[simp] theorem Smc.busRead_tray (addr len : Nat) (s : Smc) : (s.busRead addr len).2.tray = s.tray := by
  simp [Smc.busRead]

@[simp] theorem Smc.rule_pwr (r : SmcReg) (s : Smc) : (s.rule r).2.pwr = s.pwr := by
  by_cases h : r = .fifoOutMsg
  · subst h
    show (s.takeWord Params.fifoOutDrained).2.pwr = s.pwr
    rcases s.takeWord_cases Params.fifoOutDrained with ⟨-, h⟩ | ⟨p, rest, -, -, h⟩ | ⟨p, rest, -, -, h⟩ <;>
      rw [h]
  · rw [Smc.rule_state r s h]

@[simp] theorem Smc.busReadPiece_pwr (p : Piece) (s : Smc) : (s.busReadPiece p).2.pwr = s.pwr := by
  unfold Smc.busReadPiece
  split <;> simp [Smc.readPiece, Smc.storageRead]

@[simp] theorem Smc.readPieces_pwr (ps : List Piece) (s : Smc) :
    (Smc.readPieces ps s).2.pwr = s.pwr := by
  induction ps generalizing s with
  | nil => rfl
  | cons p ps ih => simp [Smc.readPieces, ih]

@[simp] theorem Smc.busRead_pwr (addr len : Nat) (s : Smc) : (s.busRead addr len).2.pwr = s.pwr := by
  simp [Smc.busRead]

@[simp] theorem Smc.rule_avpack (r : SmcReg) (s : Smc) : (s.rule r).2.avpack = s.avpack := by
  by_cases h : r = .fifoOutMsg
  · subst h
    show (s.takeWord Params.fifoOutDrained).2.avpack = s.avpack
    rcases s.takeWord_cases Params.fifoOutDrained with ⟨-, h⟩ | ⟨p, rest, -, -, h⟩ | ⟨p, rest, -, -, h⟩ <;>
      rw [h]
  · rw [Smc.rule_state r s h]

@[simp] theorem Smc.busReadPiece_avpack (p : Piece) (s : Smc) : (s.busReadPiece p).2.avpack = s.avpack := by
  unfold Smc.busReadPiece
  split <;> simp [Smc.readPiece, Smc.storageRead]

@[simp] theorem Smc.readPieces_avpack (ps : List Piece) (s : Smc) :
    (Smc.readPieces ps s).2.avpack = s.avpack := by
  induction ps generalizing s with
  | nil => rfl
  | cons p ps ih => simp [Smc.readPieces, ih]

@[simp] theorem Smc.busRead_avpack (addr len : Nat) (s : Smc) : (s.busRead addr len).2.avpack = s.avpack := by
  simp [Smc.busRead]

@[simp] theorem Smc.rule_uartcfg (r : SmcReg) (s : Smc) : (s.rule r).2.uartcfg = s.uartcfg := by
  by_cases h : r = .fifoOutMsg
  · subst h
    show (s.takeWord Params.fifoOutDrained).2.uartcfg = s.uartcfg
    rcases s.takeWord_cases Params.fifoOutDrained with ⟨-, h⟩ | ⟨p, rest, -, -, h⟩ | ⟨p, rest, -, -, h⟩ <;>
      rw [h]
  · rw [Smc.rule_state r s h]

@[simp] theorem Smc.busReadPiece_uartcfg (p : Piece) (s : Smc) : (s.busReadPiece p).2.uartcfg = s.uartcfg := by
  unfold Smc.busReadPiece
  split <;> simp [Smc.readPiece, Smc.storageRead]

@[simp] theorem Smc.readPieces_uartcfg (ps : List Piece) (s : Smc) :
    (Smc.readPieces ps s).2.uartcfg = s.uartcfg := by
  induction ps generalizing s with
  | nil => rfl
  | cons p ps ih => simp [Smc.readPieces, ih]

@[simp] theorem Smc.busRead_uartcfg (addr len : Nat) (s : Smc) : (s.busRead addr len).2.uartcfg = s.uartcfg := by
  simp [Smc.busRead]

@[simp] theorem Smc.rule_trace (r : SmcReg) (s : Smc) : (s.rule r).2.trace = s.trace := by
  by_cases h : r = .fifoOutMsg
  · subst h
    show (s.takeWord Params.fifoOutDrained).2.trace = s.trace
    rcases s.takeWord_cases Params.fifoOutDrained with ⟨-, h⟩ | ⟨p, rest, -, -, h⟩ | ⟨p, rest, -, -, h⟩ <;>
      rw [h]
  · rw [Smc.rule_state r s h]

@[simp] theorem Smc.busReadPiece_trace (p : Piece) (s : Smc) : (s.busReadPiece p).2.trace = s.trace := by
  unfold Smc.busReadPiece
  split <;> simp [Smc.readPiece, Smc.storageRead]

@[simp] theorem Smc.readPieces_trace (ps : List Piece) (s : Smc) :
    (Smc.readPieces ps s).2.trace = s.trace := by
  induction ps generalizing s with
  | nil => rfl
  | cons p ps ih => simp [Smc.readPieces, ih]

@[simp] theorem Smc.busRead_trace (addr len : Nat) (s : Smc) : (s.busRead addr len).2.trace = s.trace := by
  simp [Smc.busRead]

@[simp] theorem Smc.rule_draws (r : SmcReg) (s : Smc) : (s.rule r).2.draws = s.draws := by
  by_cases h : r = .fifoOutMsg
  · subst h
    show (s.takeWord Params.fifoOutDrained).2.draws = s.draws
    rcases s.takeWord_cases Params.fifoOutDrained with ⟨-, h⟩ | ⟨p, rest, -, -, h⟩ | ⟨p, rest, -, -, h⟩ <;>
      rw [h]
  · rw [Smc.rule_state r s h]

@[simp] theorem Smc.busReadPiece_draws (p : Piece) (s : Smc) : (s.busReadPiece p).2.draws = s.draws := by
  unfold Smc.busReadPiece
  split <;> simp [Smc.readPiece, Smc.storageRead]

@[simp] theorem Smc.readPieces_draws (ps : List Piece) (s : Smc) :
    (Smc.readPieces ps s).2.draws = s.draws := by
  induction ps generalizing s with
  | nil => rfl
  | cons p ps ih => simp [Smc.readPieces, ih]

@[simp] theorem Smc.busRead_draws (addr len : Nat) (s : Smc) : (s.busRead addr len).2.draws = s.draws := by
  simp [Smc.busRead]

/-- The lanes of a stored word are the window's bytes (R140: "this equals rule R138"). -/
theorem Smc.lane_wslot (s : Smc) (base j : Nat) (h : j < 4) :
    lane (s.wslot base) j = Mem.read s.win (base + j) := by
  obtain ⟨h0, h1, h2, h3⟩ := lane_word (Mem.read s.win base) (Mem.read s.win (base + 1))
    (Mem.read s.win (base + 2)) (Mem.read s.win (base + 3))
  have : j = 0 ∨ j = 1 ∨ j = 2 ∨ j = 3 := by omega
  rcases this with rfl | rfl | rfl | rfl
  · exact h0
  · exact h1
  · exact h2
  · exact h3

end Sys2Proof.Machine
end

