-- ==== Sys2Proof/Laws/Pieces.lean ====
section
/-! SUPPORT. The pieces of one operation (R131, R261), and one induction principle for each port: what
every piece of an operation keeps, the operation keeps. -/

namespace Sys2Proof.Machine

/-- The pieces' byte counts add up to the run's length. -/
theorem pieces_sum (w addr n : Nat) (hw : 0 < w) :
    ((pieces w addr n).map Piece.count).sum = n := by
  induction n using Nat.strong_induction_on generalizing addr with
  | _ n ih =>
    by_cases h0 : n = 0
    · subst h0; rfl
    · have hm : addr % w < w := Nat.mod_lt _ hw
      rw [pieces_cons w addr n hw h0, List.map_cons, List.sum_cons, ih _ (by omega)]
      show min (w - addr % w) n + _ = n
      omega

/-- Each piece lies in one slot and in the run (R131, R261). -/
theorem pieces_mem (w addr n : Nat) (hw : 0 < w) (p : Piece) (h : p ∈ pieces w addr n) :
    p.base % w = 0 ∧ 1 ≤ p.count ∧ p.lane + p.count ≤ w ∧ addr ≤ p.base + p.lane ∧
      p.base + p.lane + p.count ≤ addr + n := by
  induction n using Nat.strong_induction_on generalizing addr with
  | _ n ih =>
    by_cases h0 : n = 0
    · subst h0; simp [pieces_zero] at h
    · have hm : addr % w < w := Nat.mod_lt _ hw
      have hle : addr % w ≤ addr := Nat.mod_le _ _
      rw [pieces_cons w addr n hw h0, List.mem_cons] at h
      rcases h with rfl | h
      · refine ⟨?_, ?_, ?_, ?_, ?_⟩
        · show (addr - addr % w) % w = 0
          exact Nat.mod_eq_zero_of_dvd (Nat.dvd_sub_mod addr)
        all_goals simp only; omega
      · obtain ⟨h1, h2, h3, h4, h5⟩ := ih _ (by omega) _ h
        exact ⟨h1, h2, h3, by omega, by omega⟩

/-- A run cut at a slot boundary is the pieces of its two parts (R131, R261). -/
theorem pieces_append (w addr a b : Nat) (hw : 0 < w) (h : (addr + a) % w = 0) :
    pieces w addr (a + b) = pieces w addr a ++ pieces w (addr + a) b := by
  induction a using Nat.strong_induction_on generalizing addr with
  | _ a ih =>
    by_cases h0 : a = 0
    · subst h0; simp [pieces_zero]
    · have hm : addr % w < w := Nat.mod_lt _ hw
      have hle : w - addr % w ≤ a := by
        by_contra hlt
        have hd := Nat.div_add_mod addr w
        have : (addr + a) % w = addr % w + a := by
          rw [Nat.add_mod, Nat.mod_eq_of_lt (show a < w by omega)]
          exact Nat.mod_eq_of_lt (by omega)
        omega
      rw [pieces_cons w addr (a + b) hw (by omega), pieces_cons w addr a hw h0]
      have e1 : min (w - addr % w) (a + b) = w - addr % w := by omega
      have e2 : min (w - addr % w) a = w - addr % w := by omega
      rw [e1, e2, List.cons_append]
      congr 1
      have e3 : addr + (w - addr % w) + (a - (w - addr % w)) = addr + a := by omega
      have e4 : a + b - (w - addr % w) = a - (w - addr % w) + b := by omega
      rw [e4, ih _ (by omega) _ (by rw [e3]; exact h), e3]

/-- What holds of a piece of an operation clamped to a space of `size` bytes. -/
structure Piece.Within (p : Piece) (w size : Nat) : Prop where
  base : p.base % w = 0
  count : 1 ≤ p.count
  slot : p.lane + p.count ≤ w
  size : p.base + p.lane + p.count ≤ size

theorem pieces_within (w addr len size : Nat) (hw : 0 < w) (p : Piece)
    (h : p ∈ pieces w addr (clamp addr len size)) : p.Within w size := by
  obtain ⟨h1, h2, h3, h4, h5⟩ := pieces_mem w _ _ hw p h
  have := clamp_fits addr len size (by omega)
  exact ⟨h1, h2, h3, by omega⟩

/-- Clamping an operation cut in two clamps each part (R83). -/
theorem clamp_add (addr a b size : Nat) :
    clamp addr (a + b) size = clamp addr a size + clamp (addr + a) b size := by
  unfold clamp
  split <;> split <;> omega

/-- What a clamped first part leaves out, the second part leaves out whole (R83). -/
theorem clamp_full_or (addr a b size : Nat) :
    clamp addr a size = a ∨ clamp (addr + a) b size = 0 := by
  unfold clamp
  split <;> split <;> omega

/-- Pieces written one after the other, cut anywhere between two. -/
theorem Smc.writePieces_append (ps qs : List Piece) (d e : List Byte) (s : Smc)
    (h : (ps.map Piece.count).sum = d.length) :
    Smc.writePieces (ps ++ qs) (d ++ e) s = Smc.writePieces qs e (Smc.writePieces ps d s) := by
  induction ps generalizing d s with
  | nil => obtain rfl := List.eq_nil_of_length_eq_zero (h.symm : d.length = 0); rfl
  | cons p ps ih =>
    simp only [List.map_cons, List.sum_cons] at h
    simp only [List.cons_append, Smc.writePieces]
    rw [List.drop_append_of_le_length (by omega), List.take_append_of_le_length (by omega)]
    exact ih _ _ (by simp; omega)

/-- Pieces read one after the other, cut anywhere between two. -/
theorem Smc.readPieces_append (ps qs : List Piece) (s : Smc) :
    Smc.readPieces (ps ++ qs) s =
      ((Smc.readPieces ps s).1 ++ (Smc.readPieces qs (Smc.readPieces ps s).2).1,
        (Smc.readPieces qs (Smc.readPieces ps s).2).2) := by
  induction ps generalizing s with
  | nil => rfl
  | cons p ps ih => simp only [List.cons_append, Smc.readPieces, ih, List.append_assoc]

/-- Pieces written to the IIC one after the other, cut anywhere between two. -/
theorem Iic.writePieces_append (ps qs : List Piece) (d e : List Byte) (i : Iic)
    (h : (ps.map Piece.count).sum = d.length) :
    Iic.writePieces (ps ++ qs) (d ++ e) i = Iic.writePieces qs e (Iic.writePieces ps d i) := by
  induction ps generalizing d i with
  | nil => obtain rfl := List.eq_nil_of_length_eq_zero (h.symm : d.length = 0); rfl
  | cons p ps ih =>
    simp only [List.map_cons, List.sum_cons] at h
    simp only [List.cons_append, Iic.writePieces]
    rw [List.drop_append_of_le_length (by omega), List.take_append_of_le_length (by omega)]
    exact ih _ _ (by simp; omega)

/-- Pieces read from the IIC one after the other, cut anywhere between two. -/
theorem Iic.readPieces_append (ps qs : List Piece) (i : Iic) :
    Iic.readPieces (ps ++ qs) i =
      ((Iic.readPieces ps i).1 ++ (Iic.readPieces qs (Iic.readPieces ps i).2).1,
        (Iic.readPieces qs (Iic.readPieces ps i).2).2) := by
  induction ps generalizing i with
  | nil => rfl
  | cons p ps ih => simp only [List.cons_append, Iic.readPieces, ih, List.append_assoc]

/-- A list of pieces written one after the other: induction over the writes. -/
theorem Smc.writePieces_induct (P : Smc → Prop) (ps : List Piece) (buf : List Byte) (s : Smc)
    (hlen : (ps.map Piece.count).sum = buf.length)
    (hstep : ∀ p ∈ ps, ∀ (d : List Byte) (s : Smc), d.length = p.count → P s → P (s.busWritePiece p d))
    (h : P s) : P (Smc.writePieces ps buf s) := by
  induction ps generalizing buf s with
  | nil => exact h
  | cons p ps ih =>
    simp only [List.map_cons, List.sum_cons] at hlen
    refine ih _ _ (by simp; omega) (fun q hq => hstep q (List.mem_cons_of_mem _ hq)) ?_
    exact hstep p (List.mem_cons_self ..) _ _ (by simp; omega) h

/-- What every piece write keeps, a Write keeps (R131, R132). -/
theorem Smc.busWrite_induct (P : Smc → Prop) (addr : Nat) (buf : List Byte) (s : Smc)
    (hstep : ∀ (p : Piece) (d : List Byte) (s : Smc), p.Within 4 Params.smcSize →
      addr ≤ p.base + p.lane → p.base + p.lane + p.count ≤ addr + buf.length →
      d.length = p.count → P s → P (s.busWritePiece p d))
    (h : P s) : P (s.busWrite addr buf) := by
  have hle := clamp_le addr buf.length Params.smcSize
  refine Smc.writePieces_induct P _ _ s ?_ (fun p hp d s hd => ?_) h
  · rw [pieces_sum 4 _ _ (by omega)]; simp; omega
  · obtain ⟨-, -, -, h4, h5⟩ := pieces_mem 4 _ _ (by omega) p hp
    exact hstep p d s (pieces_within 4 _ _ _ (by omega) p hp) h4 (by omega) hd

/-- What every piece read keeps, a Read keeps (R131, R133). -/
theorem Smc.busRead_induct (P : Smc → Prop) (addr len : Nat) (s : Smc)
    (hstep : ∀ (p : Piece) (s : Smc), p.Within 4 Params.smcSize →
      addr ≤ p.base + p.lane → p.base + p.lane + p.count ≤ addr + len →
      P s → P (s.busReadPiece p).2)
    (h : P s) : P (s.busRead addr len).2 := by
  have hle := clamp_le addr len Params.smcSize
  have key : ∀ ps : List Piece, (∀ p ∈ ps, p ∈ pieces 4 addr (clamp addr len Params.smcSize)) →
      ∀ s : Smc, P s → P (Smc.readPieces ps s).2 := by
    intro ps
    induction ps with
    | nil => exact fun _ _ h => h
    | cons p ps ih =>
      intro hps s h
      refine ih (fun q hq => hps q (List.mem_cons_of_mem _ hq)) _ ?_
      have hp := hps p (List.mem_cons_self ..)
      obtain ⟨-, -, -, h4, h5⟩ := pieces_mem 4 _ _ (by omega) p hp
      exact hstep p s (pieces_within 4 _ _ _ (by omega) p hp) h4 (by omega) h
  exact key _ (fun _ hp => hp) s h

/-- A list of pieces written to the IIC: induction over the writes. -/
theorem Iic.writePieces_induct (P : Iic → Prop) (ps : List Piece) (data : List Byte) (i : Iic)
    (hlen : (ps.map Piece.count).sum = data.length)
    (hstep : ∀ p ∈ ps, ∀ (d : List Byte) (i : Iic), d.length = p.count → P i → P (i.busWritePiece p d))
    (h : P i) : P (Iic.writePieces ps data i) := by
  induction ps generalizing data i with
  | nil => exact h
  | cons p ps ih =>
    simp only [List.map_cons, List.sum_cons] at hlen
    refine ih _ _ (by simp; omega) (fun q hq => hstep q (List.mem_cons_of_mem _ hq)) ?_
    exact hstep p (List.mem_cons_self ..) _ _ (by simp; omega) h

/-- What every piece write keeps, a writeInterrupt keeps (R261, R263). -/
theorem Iic.busWrite_induct (P : Iic → Prop) (addr : Nat) (data : List Byte) (i : Iic)
    (hstep : ∀ (p : Piece) (d : List Byte) (i : Iic), p.Within 8 Params.iicSize →
      addr ≤ p.base + p.lane → p.base + p.lane + p.count ≤ addr + data.length →
      d.length = p.count → P i → P (i.busWritePiece p d))
    (h : P i) : P (i.busWrite addr data) := by
  have hle := clamp_le addr data.length Params.iicSize
  refine Iic.writePieces_induct P _ _ i ?_ (fun p hp d i hd => ?_) h
  · rw [pieces_sum 8 _ _ (by omega)]; simp; omega
  · obtain ⟨-, -, -, h4, h5⟩ := pieces_mem 8 _ _ (by omega) p hp
    exact hstep p d i (pieces_within 8 _ _ _ (by omega) p hp) h4 (by omega) hd

/-- What every piece read keeps, a readInterrupt keeps (R261, R262). -/
theorem Iic.busRead_induct (P : Iic → Prop) (addr len : Nat) (i : Iic)
    (hstep : ∀ (p : Piece) (i : Iic), p.Within 8 Params.iicSize →
      addr ≤ p.base + p.lane → p.base + p.lane + p.count ≤ addr + len →
      P i → P (i.busReadPiece p).2)
    (h : P i) : P (i.busRead addr len).2 := by
  have hle := clamp_le addr len Params.iicSize
  have key : ∀ ps : List Piece, (∀ p ∈ ps, p ∈ pieces 8 addr (clamp addr len Params.iicSize)) →
      ∀ i : Iic, P i → P (Iic.readPieces ps i).2 := by
    intro ps
    induction ps with
    | nil => exact fun _ _ h => h
    | cons p ps ih =>
      intro hps i h
      refine ih (fun q hq => hps q (List.mem_cons_of_mem _ hq)) _ ?_
      have hp := hps p (List.mem_cons_self ..)
      obtain ⟨-, -, -, h4, h5⟩ := pieces_mem 8 _ _ (by omega) p hp
      exact hstep p i (pieces_within 8 _ _ _ (by omega) p hp) h4 (by omega) h
  exact key _ (fun _ hp => hp) i h

/-- An operation inside its space is not clamped (R83). -/
theorem clamp_of_fits (addr n size : Nat) (h : addr + n ≤ size) (h0 : 0 < n) : clamp addr n size = n := by
  unfold clamp
  rw [if_neg (by omega)]
  omega

/-- A run inside one slot is one piece (R131, R261). -/
theorem pieces_one (w b l n : Nat) (hb : b % w = 0) (h1 : 1 ≤ n) (h : l + n ≤ w) :
    pieces w (b + l) n = [⟨b, l, n⟩] := by
  have hm : (b + l) % w = l := by
    rw [Nat.add_mod, hb, Nat.zero_add, Nat.mod_mod]
    exact Nat.mod_eq_of_lt (by omega)
  have hmin : min (w - l) n = n := by omega
  rw [pieces_cons w _ n (by omega) (by omega), hm, hmin, Nat.sub_self, pieces_zero]
  congr 2
  omega

/-- A Read inside one slot is one piece read (R131). -/
theorem Smc.busRead_one (b l n : Nat) (hb : b % 4 = 0) (hb' : b + 4 ≤ 0x100) (h1 : 1 ≤ n)
    (h : l + n ≤ 4) (s : Smc) : s.busRead (b + l) n = s.busReadPiece ⟨b, l, n⟩ := by
  have hc : clamp (b + l) n Params.smcSize = n := clamp_of_fits _ _ _ (by show _ ≤ 0x100; omega) h1
  simp only [Smc.busRead]
  rw [hc, pieces_one 4 b l n hb h1 h]
  simp [Smc.readPieces]

/-- A Write inside one slot is one piece write (R131). -/
theorem Smc.busWrite_one (b l : Nat) (d : List Byte) (hb : b % 4 = 0) (hb' : b + 4 ≤ 0x100)
    (h1 : 1 ≤ d.length) (h : l + d.length ≤ 4) (s : Smc) :
    s.busWrite (b + l) d = s.busWritePiece ⟨b, l, d.length⟩ d := by
  have hc : clamp (b + l) d.length Params.smcSize = d.length :=
    clamp_of_fits _ _ _ (by show _ ≤ 0x100; omega) h1
  simp only [Smc.busWrite]
  rw [hc, pieces_one 4 b l _ hb h1 h]
  simp [Smc.writePieces]

/-- A readInterrupt inside one slot is one piece read (R261). -/
theorem Iic.busRead_one (b l n : Nat) (hb : b % 8 = 0) (hb' : b + 8 ≤ 0x6000) (h1 : 1 ≤ n)
    (h : l + n ≤ 8) (i : Iic) : i.busRead (b + l) n = i.busReadPiece ⟨b, l, n⟩ := by
  have hc : clamp (b + l) n Params.iicSize = n := clamp_of_fits _ _ _ (by show _ ≤ 0x6000; omega) h1
  simp only [Iic.busRead]
  rw [hc, pieces_one 8 b l n hb h1 h]
  simp [Iic.readPieces]

/-- A writeInterrupt inside one slot is one piece write (R261). -/
theorem Iic.busWrite_one (b l : Nat) (d : List Byte) (hb : b % 8 = 0) (hb' : b + 8 ≤ 0x6000)
    (h1 : 1 ≤ d.length) (h : l + d.length ≤ 8) (i : Iic) :
    i.busWrite (b + l) d = i.busWritePiece ⟨b, l, d.length⟩ d := by
  have hc : clamp (b + l) d.length Params.iicSize = d.length :=
    clamp_of_fits _ _ _ (by show _ ≤ 0x6000; omega) h1
  simp only [Iic.busWrite]
  rw [hc, pieces_one 8 b l _ hb h1 h]
  simp [Iic.writePieces]

end Sys2Proof.Machine
end

