-- ==== Sys2Proof/Laws/Exec.lean ====
section
/-! SUPPORT. What an operation can do, said once: each changes one device, by one of the functions listed
here; a step takes an operation or a reset event. Later proofs go through these instead of unfolding the
88 meanings. -/

namespace Sys2Proof.Machine

/-- What operation `i` does to the SMC, and what it hands back. -/
inductive SmcDoes : Instr → (Smc → Smc) → (Smc → Result) → Prop
  | read (addr len : Nat) : SmcDoes (.read addr len) (fun d => (d.busRead addr len).2)
      (fun d => .data (d.busRead addr len).1)
  | write (addr : Nat) (buf : List Byte) : SmcDoes (.write addr buf) (Smc.busWrite addr buf)
      (fun _ => .nothing)
  | memSet (addr value len : Nat) : SmcDoes (.memSet addr value len) (Smc.busMemSet addr value len)
      (fun _ => .nothing)
  | configRead (addr len : Nat) : SmcDoes (.configRead addr len) (fun d => d)
      (fun d => .data (d.configRead addr len).1)
  | configWrite (addr : Nat) (buf : List Byte) : SmcDoes (.configWrite addr buf)
      (Smc.configWrite addr buf) (fun _ => .nothing)
  | pieceRead (r : SmcReg) (l : Fin 4) (count : Nat) : SmcDoes (Instr.smcRead r l count)
      (fun d => (d.readPiece (Smc.rule r) l.val count).2)
      (fun d => .data (d.readPiece (Smc.rule r) l.val count).1)
  | pieceWrite (r : SmcReg) (l : Fin 4) (data : List Byte) : SmcDoes (Instr.smcWrite r l data)
      (Smc.writePiece r.offset (Smc.effect r) l.val data) (fun _ => .nothing)
  | storageRead (slot : Fin 64) (l : Fin 4) (count : Nat) : SmcDoes (.smcStorageRead slot l count)
      (fun d => d) (fun d => .data (Mem.readBytes d.win (4 * slot.val + l.val) count))
  | storageWrite (slot : Fin 64) (l : Fin 4) (data : List Byte) :
      SmcDoes (.smcStorageWrite slot l data) (fun d => d.store (4 * slot.val + l.val) data)
        (fun _ => .nothing)
  | command (c : Cmd) (args : Args) : SmcDoes (Instr.command c args)
      (Smc.runCommand c (frameOf c.code args)) (fun _ => .nothing)
  | unknown (code : Byte) (args : Args) : SmcDoes (.unknownCommand code args) (fun d => d)
      (fun _ => .nothing)
  | trayOpenRequest : SmcDoes .trayStepOpenRequest (Smc.trayStep .openRequest .opening)
      (fun _ => .nothing)
  | trayOpening : SmcDoes .trayStepOpening (Smc.trayStep .opening .opened) (fun _ => .nothing)
  | trayClosing : SmcDoes .trayStepClosing (Smc.trayStep .closing .closed) (fun _ => .nothing)
  | uartRx (d st : Word) : SmcDoes (.uartRx d st) (Smc.uartReceive d st) (fun _ => .nothing)

/-- What operation `i` does to the IIC, and what it hands back. -/
inductive IicDoes : Instr → (Iic → Iic) → (Iic → Result) → Prop
  | read (addr len : Nat) : IicDoes (.readInterrupt addr len) (fun i => (i.busRead addr len).2)
      (fun i => .data (i.busRead addr len).1)
  | write (addr : Nat) (data : List Byte) : IicDoes (.writeInterrupt addr data)
      (Iic.busWrite addr data) (fun _ => .nothing)
  | gen (type : Byte) (mask : Nat) : IicDoes (.genInterrupt type mask) (Iic.gen type mask)
      (fun _ => .nothing)
  | cancel (type : Byte) (mask : Nat) : IicDoes (.cancelInterrupt type mask) (Iic.cancel type mask)
      (fun _ => .nothing)
  | check (coreID : Nat) : IicDoes (.checkExtInterrupt coreID) (fun i => i)
      (fun i => .flag (i.check coreID))
  | pieceRead (r : IicReg) (c : Fin 6) (l : Fin 8) (count : Nat) :
      IicDoes (Instr.iicRead r c l count) (fun i => (i.readPiece (Block.rule r) c l.val count).2)
        (fun i => .data (i.readPiece (Block.rule r) c l.val count).1)
  | pieceWrite (r : IicReg) (c : Fin 6) (l : Fin 8) (data : List Byte) :
      IicDoes (Instr.iicWrite r c l data) (Iic.writePiece r (Block.effect r) c l.val data)
        (fun _ => .nothing)
  | unnamedRead (c : Fin 6) (slot : Fin 512) (l : Fin 8) (count : Nat) :
      IicDoes (.iicUnnamedRead c slot l count) (fun i => i)
        (fun _ => .data (List.replicate count 0))
  | unnamedWrite (c : Fin 6) (slot : Fin 512) (l : Fin 8) (data : List Byte) :
      IicDoes (.iicUnnamedWrite c slot l data) (fun i => i) (fun _ => .nothing)

/-- An operation of the SMC, run. -/
theorem exec_of_smcDoes {i : Instr} {f : Smc → Smc} {g : Smc → Result} (h : SmcDoes i f g) (s : State) :
    exec i s = .next { s with smc := f s.smc, result := g s.smc } := by
  cases h with
  | pieceRead r l count => cases r <;> rfl
  | pieceWrite r l data => cases r <;> rfl
  | command c args => cases c <;> rfl
  | _ => rfl

/-- An operation of the IIC, run. -/
theorem exec_of_iicDoes {i : Instr} {f : Iic → Iic} {g : Iic → Result} (h : IicDoes i f g) (s : State) :
    exec i s = .next { s with iic := f s.iic, result := g s.iic } := by
  cases h with
  | pieceRead r c l count => cases r <;> rfl
  | pieceWrite r c l data => cases r <;> rfl
  | _ => rfl

/-- Every operation is one of these. -/
theorem instr_does (i : Instr) : (∃ f g, SmcDoes i f g) ∨ (∃ f g, IicDoes i f g) :=
  match i with
  | .read addr len => .inl ⟨_, _, .read addr len⟩
  | .write addr buf => .inl ⟨_, _, .write addr buf⟩
  | .memSet addr value len => .inl ⟨_, _, .memSet addr value len⟩
  | .configRead addr len => .inl ⟨_, _, .configRead addr len⟩
  | .configWrite addr buf => .inl ⟨_, _, .configWrite addr buf⟩
  | .readInterrupt addr len => .inr ⟨_, _, .read addr len⟩
  | .writeInterrupt addr data => .inr ⟨_, _, .write addr data⟩
  | .genInterrupt type mask => .inr ⟨_, _, .gen type mask⟩
  | .cancelInterrupt type mask => .inr ⟨_, _, .cancel type mask⟩
  | .checkExtInterrupt core => .inr ⟨_, _, .check core⟩
  | .busControlRead l k => .inl ⟨_, _, .pieceRead .busControl l k⟩
  | .busControlWrite l d => .inl ⟨_, _, .pieceWrite .busControl l d⟩
  | .uartInRead l k => .inl ⟨_, _, .pieceRead .uartIn l k⟩
  | .uartInWrite l d => .inl ⟨_, _, .pieceWrite .uartIn l d⟩
  | .uartOutRead l k => .inl ⟨_, _, .pieceRead .uartOut l k⟩
  | .uartOutWrite l d => .inl ⟨_, _, .pieceWrite .uartOut l d⟩
  | .uartStatusRead l k => .inl ⟨_, _, .pieceRead .uartStatus l k⟩
  | .uartStatusWrite l d => .inl ⟨_, _, .pieceWrite .uartStatus l d⟩
  | .uartConfigRead l k => .inl ⟨_, _, .pieceRead .uartConfig l k⟩
  | .uartConfigWrite l d => .inl ⟨_, _, .pieceWrite .uartConfig l d⟩
  | .smiIntPendingRead l k => .inl ⟨_, _, .pieceRead .smiIntPending l k⟩
  | .smiIntPendingWrite l d => .inl ⟨_, _, .pieceWrite .smiIntPending l d⟩
  | .smiIntAckRead l k => .inl ⟨_, _, .pieceRead .smiIntAck l k⟩
  | .smiIntAckWrite l d => .inl ⟨_, _, .pieceWrite .smiIntAck l d⟩
  | .smiIntEnableRead l k => .inl ⟨_, _, .pieceRead .smiIntEnable l k⟩
  | .smiIntEnableWrite l d => .inl ⟨_, _, .pieceWrite .smiIntEnable l d⟩
  | .clockIntEnableRead l k => .inl ⟨_, _, .pieceRead .clockIntEnable l k⟩
  | .clockIntEnableWrite l d => .inl ⟨_, _, .pieceWrite .clockIntEnable l d⟩
  | .clockIntStatusRead l k => .inl ⟨_, _, .pieceRead .clockIntStatus l k⟩
  | .clockIntStatusWrite l d => .inl ⟨_, _, .pieceWrite .clockIntStatus l d⟩
  | .fifoInMsgRead l k => .inl ⟨_, _, .pieceRead .fifoInMsg l k⟩
  | .fifoInMsgWrite l d => .inl ⟨_, _, .pieceWrite .fifoInMsg l d⟩
  | .fifoInStatusRead l k => .inl ⟨_, _, .pieceRead .fifoInStatus l k⟩
  | .fifoInStatusWrite l d => .inl ⟨_, _, .pieceWrite .fifoInStatus l d⟩
  | .fifoOutMsgRead l k => .inl ⟨_, _, .pieceRead .fifoOutMsg l k⟩
  | .fifoOutMsgWrite l d => .inl ⟨_, _, .pieceWrite .fifoOutMsg l d⟩
  | .fifoOutStatusRead l k => .inl ⟨_, _, .pieceRead .fifoOutStatus l k⟩
  | .fifoOutStatusWrite l d => .inl ⟨_, _, .pieceWrite .fifoOutStatus l d⟩
  | .smcStorageRead b l k => .inl ⟨_, _, .storageRead b l k⟩
  | .smcStorageWrite b l d => .inl ⟨_, _, .storageWrite b l d⟩
  | .whoamiRead c l k => .inr ⟨_, _, .pieceRead .whoami c l k⟩
  | .whoamiWrite c l d => .inr ⟨_, _, .pieceWrite .whoami c l d⟩
  | .currentTskPriRead c l k => .inr ⟨_, _, .pieceRead .currentTskPri c l k⟩
  | .currentTskPriWrite c l d => .inr ⟨_, _, .pieceWrite .currentTskPri c l d⟩
  | .ipiDispatch0Read c l k => .inr ⟨_, _, .pieceRead .ipiDispatch0 c l k⟩
  | .ipiDispatch0Write c l d => .inr ⟨_, _, .pieceWrite .ipiDispatch0 c l d⟩
  | .ackRead c l k => .inr ⟨_, _, .pieceRead .ack c l k⟩
  | .ackWrite c l d => .inr ⟨_, _, .pieceWrite .ack c l d⟩
  | .ackSetPriRead c l k => .inr ⟨_, _, .pieceRead .ackSetPri c l k⟩
  | .ackSetPriWrite c l d => .inr ⟨_, _, .pieceWrite .ackSetPri c l d⟩
  | .eoiRead c l k => .inr ⟨_, _, .pieceRead .eoi c l k⟩
  | .eoiWrite c l d => .inr ⟨_, _, .pieceWrite .eoi c l d⟩
  | .eoiSetPriRead c l k => .inr ⟨_, _, .pieceRead .eoiSetPri c l k⟩
  | .eoiSetPriWrite c l d => .inr ⟨_, _, .pieceWrite .eoiSetPri c l d⟩
  | .mcackRead c l k => .inr ⟨_, _, .pieceRead .mcack c l k⟩
  | .mcackWrite c l d => .inr ⟨_, _, .pieceWrite .mcack c l d⟩
  | .iicUnnamedRead c b l k => .inr ⟨_, _, .unnamedRead c b l k⟩
  | .iicUnnamedWrite c b l d => .inr ⟨_, _, .unnamedWrite c b l d⟩
  | .pwronType args => .inl ⟨_, _, .command .pwronType args⟩
  | .queryRtc args => .inl ⟨_, _, .command .queryRtc args⟩
  | .queryTemp args => .inl ⟨_, _, .command .queryTemp args⟩
  | .queryTray args => .inl ⟨_, _, .command .queryTray args⟩
  | .queryAvpack args => .inl ⟨_, _, .command .queryAvpack args⟩
  | .i2cPassthrough args => .inl ⟨_, _, .command .i2cPassthrough args⟩
  | .queryVersion args => .inl ⟨_, _, .command .queryVersion args⟩
  | .fifoTest args => .inl ⟨_, _, .command .fifoTest args⟩
  | .queryIrAddr args => .inl ⟨_, _, .command .queryIrAddr args⟩
  | .queryTilt args => .inl ⟨_, _, .command .queryTilt args⟩
  | .queryIntAck0 args => .inl ⟨_, _, .command .queryIntAck0 args⟩
  | .queryIntAck1 args => .inl ⟨_, _, .command .queryIntAck1 args⟩
  | .setStandby args => .inl ⟨_, _, .command .setStandby args⟩
  | .setTime args => .inl ⟨_, _, .command .setTime args⟩
  | .setFanAlgorithm args => .inl ⟨_, _, .command .setFanAlgorithm args⟩
  | .setFanSpeed0 args => .inl ⟨_, _, .command .setFanSpeed0 args⟩
  | .setFanSpeed1 args => .inl ⟨_, _, .command .setFanSpeed1 args⟩
  | .setDvdTray args => .inl ⟨_, _, .command .setDvdTray args⟩
  | .setPowerLed args => .inl ⟨_, _, .command .setPowerLed args⟩
  | .setAudioMute args => .inl ⟨_, _, .command .setAudioMute args⟩
  | .setIrAddr args => .inl ⟨_, _, .command .setIrAddr args⟩
  | .setRtcWake args => .inl ⟨_, _, .command .setRtcWake args⟩
  | .setAsyncOp args => .inl ⟨_, _, .command .setAsyncOp args⟩
  | .setIntEnable0 args => .inl ⟨_, _, .command .setIntEnable0 args⟩
  | .setIntEnable1 args => .inl ⟨_, _, .command .setIntEnable1 args⟩
  | .unknownCommand code args => .inl ⟨_, _, .unknown code args⟩
  | .trayStepOpenRequest => .inl ⟨_, _, .trayOpenRequest⟩
  | .trayStepOpening => .inl ⟨_, _, .trayOpening⟩
  | .trayStepClosing => .inl ⟨_, _, .trayClosing⟩
  | .uartRx d st => .inl ⟨_, _, .uartRx d st⟩

/-- A next state of an operation, by what the operation does to the one device it acts on. -/
theorem exec_cases {i : Instr} {s t : State} (h : exec i s = .next t) :
    (∃ f g, SmcDoes i f g ∧ t = { s with smc := f s.smc, result := g s.smc }) ∨
    (∃ f g, IicDoes i f g ∧ t = { s with iic := f s.iic, result := g s.iic }) := by
  rcases instr_does i with ⟨f, g, hd⟩ | ⟨f, g, hd⟩
  · rw [exec_of_smcDoes hd] at h
    exact Or.inl ⟨f, g, hd, (Host.Outcome.next.inj h).symm⟩
  · rw [exec_of_iicDoes hd] at h
    exact Or.inr ⟨f, g, hd, (Host.Outcome.next.inj h).symm⟩

/-- A next state of a step: nothing scheduled, an operation, or a reset event. -/
theorem step_cases {s t : State} (h : step s = .next t) :
    (s.inbox = [] ∧ t = s) ∨
    (∃ bytes rest i, s.inbox = .packet bytes :: rest ∧ decode bytes = .ok i ∧
      exec i (s.advance rest) = .next t) ∨
    (∃ inputs rest, s.inbox = .smcReset inputs :: rest ∧ t = (s.advance rest).smcReset inputs) ∨
    (∃ whoami rest, s.inbox = .iicReset whoami :: rest ∧ t = (s.advance rest).iicReset whoami) := by
  unfold step at h
  split at h
  · next hin => exact Or.inl ⟨hin, (Host.Outcome.next.inj h).symm⟩
  · next bytes rest hin =>
    split at h
    · next i hi => exact Or.inr (Or.inl ⟨bytes, rest, i, hin, hi, h⟩)
    · cases h
  · next inputs rest hin =>
    exact Or.inr (Or.inr (Or.inl ⟨inputs, rest, hin, (Host.Outcome.next.inj h).symm⟩))
  · next whoami rest hin =>
    exact Or.inr (Or.inr (Or.inr ⟨whoami, rest, hin, (Host.Outcome.next.inj h).symm⟩))

/-- A named piece read is the bus's piece read on its slot (R140). -/
theorem Smc.busReadPiece_named (r : SmcReg) (l count : Nat) (s : Smc) :
    s.busReadPiece ⟨r.offset, l, count⟩ = s.readPiece (Smc.rule r) l count := by
  simp [Smc.busReadPiece, SmcReg.ofOffset_offset]

/-- A named piece write is the bus's piece write on its slot (R139). -/
theorem Smc.busWritePiece_named (r : SmcReg) (l : Nat) (d : List Byte) (n : Nat) (s : Smc) :
    s.busWritePiece ⟨r.offset, l, n⟩ d = s.writePiece r.offset (Smc.effect r) l d := by
  simp [Smc.busWritePiece, SmcReg.ofOffset_offset]

/-- A storage piece write is the bus's piece write on an unnamed slot (R137). -/
theorem Smc.busWritePiece_unnamed (slot : Fin 64) (h : smcSlotUnnamed slot = true) (l : Nat)
    (d : List Byte) (n : Nat) (s : Smc) :
    s.busWritePiece ⟨4 * slot.val, l, n⟩ d = s.store (4 * slot.val + l) d := by
  rw [smcSlotUnnamed, Option.isNone_iff_eq_none] at h
  simp [Smc.busWritePiece, h, Smc.storageWrite]

/-- A storage piece read is the bus's piece read on an unnamed slot (R138). -/
theorem Smc.busReadPiece_unnamed (slot : Fin 64) (h : smcSlotUnnamed slot = true) (l n : Nat) (s : Smc) :
    s.busReadPiece ⟨4 * slot.val, l, n⟩ = (Mem.readBytes s.win (4 * slot.val + l) n, s) := by
  rw [smcSlotUnnamed, Option.isNone_iff_eq_none] at h
  simp [Smc.busReadPiece, h, Smc.storageRead]

/-! ### IIC pieces by block and register -/

/-- An address as a block and an offset in it (R260). -/
theorem iicBlock_of_offset (c : Fin 6) (o : Nat) (ho : o < 0x1000) :
    blockOffset (0x1000 * c.val + o) = o ∧ iicBlock (0x1000 * c.val + o) = c := by
  refine ⟨?_, ?_⟩
  · unfold blockOffset Params.iicStride
    omega
  · apply Fin.ext
    simp [iicBlock, Params.iicStride]
    omega

theorem Iic.busReadPiece_named (c : Fin 6) (r : IicReg) (l n : Nat) (i : Iic) :
    i.busReadPiece ⟨0x1000 * c.val + r.offset, l, n⟩ = i.readPiece (Block.rule r) c l n := by
  have hr := r.offset_range
  obtain ⟨h1, h2⟩ := iicBlock_of_offset c r.offset (by omega)
  simp only [Iic.busReadPiece, h1, h2, IicReg.ofOffset_offset]

theorem Iic.busWritePiece_named (c : Fin 6) (r : IicReg) (l n : Nat) (d : List Byte) (i : Iic) :
    i.busWritePiece ⟨0x1000 * c.val + r.offset, l, n⟩ d = i.writePiece r (Block.effect r) c l d := by
  have hr := r.offset_range
  obtain ⟨h1, h2⟩ := iicBlock_of_offset c r.offset (by omega)
  simp only [Iic.busWritePiece, h1, h2, IicReg.ofOffset_offset]

theorem Iic.busReadPiece_unnamed (c : Fin 6) (slot : Fin 512) (h : iicSlotUnnamed slot = true)
    (l n : Nat) (i : Iic) :
    i.busReadPiece ⟨0x1000 * c.val + 8 * slot.val, l, n⟩ = (List.replicate n 0, i) := by
  rw [iicSlotUnnamed, Option.isNone_iff_eq_none] at h
  obtain ⟨h1, -⟩ := iicBlock_of_offset c (8 * slot.val) (by omega)
  simp only [Iic.busReadPiece, h1, h, Iic.unnamedRead]

theorem Iic.busWritePiece_unnamed (c : Fin 6) (slot : Fin 512) (h : iicSlotUnnamed slot = true)
    (l n : Nat) (d : List Byte) (i : Iic) :
    i.busWritePiece ⟨0x1000 * c.val + 8 * slot.val, l, n⟩ d = i := by
  rw [iicSlotUnnamed, Option.isNone_iff_eq_none] at h
  obtain ⟨h1, -⟩ := iicBlock_of_offset c (8 * slot.val) (by omega)
  simp only [Iic.busWritePiece, h1, h, Iic.unnamedWrite]

/-- Every piece of an operation on the IIC is on a named register or on an unnamed slot of one block
(R105, R260). -/
theorem Piece.iic_cases (p : Piece) (hp : p.Within 8 Params.iicSize) :
    (∃ (c : Fin 6) (r : IicReg), p = ⟨0x1000 * c.val + r.offset, p.lane, p.count⟩) ∨
    (∃ (c : Fin 6) (slot : Fin 512), iicSlotUnnamed slot = true ∧
      p = ⟨0x1000 * c.val + 8 * slot.val, p.lane, p.count⟩) := by
  have h1 := hp.size
  have h2 := hp.base
  have h3 := hp.count
  have hsz : Params.iicSize = 0x6000 := rfl
  have hc : p.base / 0x1000 < 6 := by omega
  cases h : IicReg.ofOffset (p.base % 0x1000) with
  | some r =>
    have ho := IicReg.offset_of_ofOffset h
    have hb : p.base = 0x1000 * (p.base / 0x1000) + r.offset := by omega
    exact Or.inl ⟨⟨p.base / 0x1000, hc⟩, r, by rw [← hb]⟩
  | none =>
    have e : 8 * (p.base % 0x1000 / 8) = p.base % 0x1000 := by omega
    have hb : p.base = 0x1000 * (p.base / 0x1000) + 8 * (p.base % 0x1000 / 8) := by omega
    refine Or.inr ⟨⟨p.base / 0x1000, hc⟩, ⟨p.base % 0x1000 / 8, by omega⟩, ?_, by rw [← hb]⟩
    simp only [iicSlotUnnamed, e, h]
    rfl

/-- A piece read changes no register but ACK (R265, R270). -/
theorem Iic.busReadPiece_get (i : Iic) (p : Piece) (hp : p.Within 8 Params.iicSize) (c : Fin 6)
    (r : IicReg) (hr : r ≠ .ack) : ((i.busReadPiece p).2.block c).get r = (i.block c).get r := by
  rcases p.iic_cases hp with ⟨d, r', hb⟩ | ⟨d, slot, hs, hb⟩
  · rw [hb, Iic.busReadPiece_named, Iic.readPiece_block]
    split
    · next h =>
      subst h
      by_cases hr' : r' = .ack
      · subst hr'
        show (acknowledge .ack _).2.get r = _
        rcases acknowledge_cases .ack (i.block c) with ⟨i, m, -, e⟩ | ⟨-, e⟩ <;> rw [e]
        · show Regs.get (Regs.set _ _ _) _ = _
          rw [Regs.get_set, if_neg hr]
          rfl
        · rw [Block.get_set, if_neg hr]
      · rw [Block.rule_shadow _ _ hr']
    · rfl
  · rw [hb, Iic.busReadPiece_unnamed _ _ hs]

end Sys2Proof.Machine
end

