-- ==== Sys2Proof/Laws/PerInstr.lean ====
section
/-! SUPPORT. A statement about every instruction as syntax, one lemma per constructor: how its packet
begins. -/

namespace Sys2Proof.Laws

/-- The packet of an instruction begins with the tag of its row's format, which names that format, and at
least one more byte follows. -/
def PacketHead.Statement (i : Instr) : Prop :=
  ∃ (b : Byte) (rest : List Byte),
    encode i = i.format.tag :: b :: rest ∧ Format.ofTag i.format.tag = some i.format

theorem PacketHead.read (addr len : Nat) : PacketHead.Statement (.read addr len) := ⟨_, _, rfl, rfl⟩

theorem PacketHead.write (addr : Nat) (buf : List Byte) :
    PacketHead.Statement (.write addr buf) := ⟨_, _, rfl, rfl⟩

theorem PacketHead.memSet (addr value len : Nat) :
    PacketHead.Statement (.memSet addr value len) := ⟨_, _, rfl, rfl⟩

theorem PacketHead.configRead (addr len : Nat) :
    PacketHead.Statement (.configRead addr len) := ⟨_, _, rfl, rfl⟩

theorem PacketHead.configWrite (addr : Nat) (buf : List Byte) :
    PacketHead.Statement (.configWrite addr buf) := ⟨_, _, rfl, rfl⟩

theorem PacketHead.readInterrupt (addr len : Nat) :
    PacketHead.Statement (.readInterrupt addr len) := ⟨_, _, rfl, rfl⟩

theorem PacketHead.writeInterrupt (addr : Nat) (data : List Byte) :
    PacketHead.Statement (.writeInterrupt addr data) := ⟨_, _, rfl, rfl⟩

theorem PacketHead.genInterrupt (type : Byte) (coreMask : Nat) :
    PacketHead.Statement (.genInterrupt type coreMask) := ⟨_, _, rfl, rfl⟩

theorem PacketHead.cancelInterrupt (type : Byte) (coreMask : Nat) :
    PacketHead.Statement (.cancelInterrupt type coreMask) := ⟨_, _, rfl, rfl⟩

theorem PacketHead.checkExtInterrupt (coreID : Nat) :
    PacketHead.Statement (.checkExtInterrupt coreID) := ⟨_, _, rfl, rfl⟩

theorem PacketHead.busControlRead (lane : Fin 4) (count : Nat) :
    PacketHead.Statement (.busControlRead lane count) := ⟨_, _, rfl, rfl⟩

theorem PacketHead.busControlWrite (lane : Fin 4) (data : List Byte) :
    PacketHead.Statement (.busControlWrite lane data) := ⟨_, _, rfl, rfl⟩

theorem PacketHead.uartInRead (lane : Fin 4) (count : Nat) :
    PacketHead.Statement (.uartInRead lane count) := ⟨_, _, rfl, rfl⟩

theorem PacketHead.uartInWrite (lane : Fin 4) (data : List Byte) :
    PacketHead.Statement (.uartInWrite lane data) := ⟨_, _, rfl, rfl⟩

theorem PacketHead.uartOutRead (lane : Fin 4) (count : Nat) :
    PacketHead.Statement (.uartOutRead lane count) := ⟨_, _, rfl, rfl⟩

theorem PacketHead.uartOutWrite (lane : Fin 4) (data : List Byte) :
    PacketHead.Statement (.uartOutWrite lane data) := ⟨_, _, rfl, rfl⟩

theorem PacketHead.uartStatusRead (lane : Fin 4) (count : Nat) :
    PacketHead.Statement (.uartStatusRead lane count) := ⟨_, _, rfl, rfl⟩

theorem PacketHead.uartStatusWrite (lane : Fin 4) (data : List Byte) :
    PacketHead.Statement (.uartStatusWrite lane data) := ⟨_, _, rfl, rfl⟩

theorem PacketHead.uartConfigRead (lane : Fin 4) (count : Nat) :
    PacketHead.Statement (.uartConfigRead lane count) := ⟨_, _, rfl, rfl⟩

theorem PacketHead.uartConfigWrite (lane : Fin 4) (data : List Byte) :
    PacketHead.Statement (.uartConfigWrite lane data) := ⟨_, _, rfl, rfl⟩

theorem PacketHead.smiIntPendingRead (lane : Fin 4) (count : Nat) :
    PacketHead.Statement (.smiIntPendingRead lane count) := ⟨_, _, rfl, rfl⟩

theorem PacketHead.smiIntPendingWrite (lane : Fin 4) (data : List Byte) :
    PacketHead.Statement (.smiIntPendingWrite lane data) := ⟨_, _, rfl, rfl⟩

theorem PacketHead.smiIntAckRead (lane : Fin 4) (count : Nat) :
    PacketHead.Statement (.smiIntAckRead lane count) := ⟨_, _, rfl, rfl⟩

theorem PacketHead.smiIntAckWrite (lane : Fin 4) (data : List Byte) :
    PacketHead.Statement (.smiIntAckWrite lane data) := ⟨_, _, rfl, rfl⟩

theorem PacketHead.smiIntEnableRead (lane : Fin 4) (count : Nat) :
    PacketHead.Statement (.smiIntEnableRead lane count) := ⟨_, _, rfl, rfl⟩

theorem PacketHead.smiIntEnableWrite (lane : Fin 4) (data : List Byte) :
    PacketHead.Statement (.smiIntEnableWrite lane data) := ⟨_, _, rfl, rfl⟩

theorem PacketHead.clockIntEnableRead (lane : Fin 4) (count : Nat) :
    PacketHead.Statement (.clockIntEnableRead lane count) := ⟨_, _, rfl, rfl⟩

theorem PacketHead.clockIntEnableWrite (lane : Fin 4) (data : List Byte) :
    PacketHead.Statement (.clockIntEnableWrite lane data) := ⟨_, _, rfl, rfl⟩

theorem PacketHead.clockIntStatusRead (lane : Fin 4) (count : Nat) :
    PacketHead.Statement (.clockIntStatusRead lane count) := ⟨_, _, rfl, rfl⟩

theorem PacketHead.clockIntStatusWrite (lane : Fin 4) (data : List Byte) :
    PacketHead.Statement (.clockIntStatusWrite lane data) := ⟨_, _, rfl, rfl⟩

theorem PacketHead.fifoInMsgRead (lane : Fin 4) (count : Nat) :
    PacketHead.Statement (.fifoInMsgRead lane count) := ⟨_, _, rfl, rfl⟩

theorem PacketHead.fifoInMsgWrite (lane : Fin 4) (data : List Byte) :
    PacketHead.Statement (.fifoInMsgWrite lane data) := ⟨_, _, rfl, rfl⟩

theorem PacketHead.fifoInStatusRead (lane : Fin 4) (count : Nat) :
    PacketHead.Statement (.fifoInStatusRead lane count) := ⟨_, _, rfl, rfl⟩

theorem PacketHead.fifoInStatusWrite (lane : Fin 4) (data : List Byte) :
    PacketHead.Statement (.fifoInStatusWrite lane data) := ⟨_, _, rfl, rfl⟩

theorem PacketHead.fifoOutMsgRead (lane : Fin 4) (count : Nat) :
    PacketHead.Statement (.fifoOutMsgRead lane count) := ⟨_, _, rfl, rfl⟩

theorem PacketHead.fifoOutMsgWrite (lane : Fin 4) (data : List Byte) :
    PacketHead.Statement (.fifoOutMsgWrite lane data) := ⟨_, _, rfl, rfl⟩

theorem PacketHead.fifoOutStatusRead (lane : Fin 4) (count : Nat) :
    PacketHead.Statement (.fifoOutStatusRead lane count) := ⟨_, _, rfl, rfl⟩

theorem PacketHead.fifoOutStatusWrite (lane : Fin 4) (data : List Byte) :
    PacketHead.Statement (.fifoOutStatusWrite lane data) := ⟨_, _, rfl, rfl⟩

theorem PacketHead.smcStorageRead (slot : Fin 64) (lane : Fin 4) (count : Nat) :
    PacketHead.Statement (.smcStorageRead slot lane count) := ⟨_, _, rfl, rfl⟩

theorem PacketHead.smcStorageWrite (slot : Fin 64) (lane : Fin 4) (data : List Byte) :
    PacketHead.Statement (.smcStorageWrite slot lane data) := ⟨_, _, rfl, rfl⟩

theorem PacketHead.whoamiRead (block : Fin 6) (lane : Fin 8) (count : Nat) :
    PacketHead.Statement (.whoamiRead block lane count) := ⟨_, _, rfl, rfl⟩

theorem PacketHead.whoamiWrite (block : Fin 6) (lane : Fin 8) (data : List Byte) :
    PacketHead.Statement (.whoamiWrite block lane data) := ⟨_, _, rfl, rfl⟩

theorem PacketHead.currentTskPriRead (block : Fin 6) (lane : Fin 8) (count : Nat) :
    PacketHead.Statement (.currentTskPriRead block lane count) := ⟨_, _, rfl, rfl⟩

theorem PacketHead.currentTskPriWrite (block : Fin 6) (lane : Fin 8) (data : List Byte) :
    PacketHead.Statement (.currentTskPriWrite block lane data) := ⟨_, _, rfl, rfl⟩

theorem PacketHead.ipiDispatch0Read (block : Fin 6) (lane : Fin 8) (count : Nat) :
    PacketHead.Statement (.ipiDispatch0Read block lane count) := ⟨_, _, rfl, rfl⟩

theorem PacketHead.ipiDispatch0Write (block : Fin 6) (lane : Fin 8) (data : List Byte) :
    PacketHead.Statement (.ipiDispatch0Write block lane data) := ⟨_, _, rfl, rfl⟩

theorem PacketHead.ackRead (block : Fin 6) (lane : Fin 8) (count : Nat) :
    PacketHead.Statement (.ackRead block lane count) := ⟨_, _, rfl, rfl⟩

theorem PacketHead.ackWrite (block : Fin 6) (lane : Fin 8) (data : List Byte) :
    PacketHead.Statement (.ackWrite block lane data) := ⟨_, _, rfl, rfl⟩

theorem PacketHead.ackSetPriRead (block : Fin 6) (lane : Fin 8) (count : Nat) :
    PacketHead.Statement (.ackSetPriRead block lane count) := ⟨_, _, rfl, rfl⟩

theorem PacketHead.ackSetPriWrite (block : Fin 6) (lane : Fin 8) (data : List Byte) :
    PacketHead.Statement (.ackSetPriWrite block lane data) := ⟨_, _, rfl, rfl⟩

theorem PacketHead.eoiRead (block : Fin 6) (lane : Fin 8) (count : Nat) :
    PacketHead.Statement (.eoiRead block lane count) := ⟨_, _, rfl, rfl⟩

theorem PacketHead.eoiWrite (block : Fin 6) (lane : Fin 8) (data : List Byte) :
    PacketHead.Statement (.eoiWrite block lane data) := ⟨_, _, rfl, rfl⟩

theorem PacketHead.eoiSetPriRead (block : Fin 6) (lane : Fin 8) (count : Nat) :
    PacketHead.Statement (.eoiSetPriRead block lane count) := ⟨_, _, rfl, rfl⟩

theorem PacketHead.eoiSetPriWrite (block : Fin 6) (lane : Fin 8) (data : List Byte) :
    PacketHead.Statement (.eoiSetPriWrite block lane data) := ⟨_, _, rfl, rfl⟩

theorem PacketHead.mcackRead (block : Fin 6) (lane : Fin 8) (count : Nat) :
    PacketHead.Statement (.mcackRead block lane count) := ⟨_, _, rfl, rfl⟩

theorem PacketHead.mcackWrite (block : Fin 6) (lane : Fin 8) (data : List Byte) :
    PacketHead.Statement (.mcackWrite block lane data) := ⟨_, _, rfl, rfl⟩

theorem PacketHead.iicUnnamedRead (block : Fin 6) (slot : Fin 512) (lane : Fin 8) (count : Nat) :
    PacketHead.Statement (.iicUnnamedRead block slot lane count) := ⟨_, _, rfl, rfl⟩

theorem PacketHead.iicUnnamedWrite (block : Fin 6) (slot : Fin 512) (lane : Fin 8) (data : List Byte) :
    PacketHead.Statement (.iicUnnamedWrite block slot lane data) := ⟨_, _, rfl, rfl⟩

theorem PacketHead.pwronType (args : Args) :
    PacketHead.Statement (.pwronType args) := ⟨_, _, rfl, rfl⟩

theorem PacketHead.queryRtc (args : Args) :
    PacketHead.Statement (.queryRtc args) := ⟨_, _, rfl, rfl⟩

theorem PacketHead.queryTemp (args : Args) :
    PacketHead.Statement (.queryTemp args) := ⟨_, _, rfl, rfl⟩

theorem PacketHead.queryTray (args : Args) :
    PacketHead.Statement (.queryTray args) := ⟨_, _, rfl, rfl⟩

theorem PacketHead.queryAvpack (args : Args) :
    PacketHead.Statement (.queryAvpack args) := ⟨_, _, rfl, rfl⟩

theorem PacketHead.i2cPassthrough (args : Args) :
    PacketHead.Statement (.i2cPassthrough args) := ⟨_, _, rfl, rfl⟩

theorem PacketHead.queryVersion (args : Args) :
    PacketHead.Statement (.queryVersion args) := ⟨_, _, rfl, rfl⟩

theorem PacketHead.fifoTest (args : Args) :
    PacketHead.Statement (.fifoTest args) := ⟨_, _, rfl, rfl⟩

theorem PacketHead.queryIrAddr (args : Args) :
    PacketHead.Statement (.queryIrAddr args) := ⟨_, _, rfl, rfl⟩

theorem PacketHead.queryTilt (args : Args) :
    PacketHead.Statement (.queryTilt args) := ⟨_, _, rfl, rfl⟩

theorem PacketHead.queryIntAck0 (args : Args) :
    PacketHead.Statement (.queryIntAck0 args) := ⟨_, _, rfl, rfl⟩

theorem PacketHead.queryIntAck1 (args : Args) :
    PacketHead.Statement (.queryIntAck1 args) := ⟨_, _, rfl, rfl⟩

theorem PacketHead.setStandby (args : Args) :
    PacketHead.Statement (.setStandby args) := ⟨_, _, rfl, rfl⟩

theorem PacketHead.setTime (args : Args) : PacketHead.Statement (.setTime args) := ⟨_, _, rfl, rfl⟩

theorem PacketHead.setFanAlgorithm (args : Args) :
    PacketHead.Statement (.setFanAlgorithm args) := ⟨_, _, rfl, rfl⟩

theorem PacketHead.setFanSpeed0 (args : Args) :
    PacketHead.Statement (.setFanSpeed0 args) := ⟨_, _, rfl, rfl⟩

theorem PacketHead.setFanSpeed1 (args : Args) :
    PacketHead.Statement (.setFanSpeed1 args) := ⟨_, _, rfl, rfl⟩

theorem PacketHead.setDvdTray (args : Args) :
    PacketHead.Statement (.setDvdTray args) := ⟨_, _, rfl, rfl⟩

theorem PacketHead.setPowerLed (args : Args) :
    PacketHead.Statement (.setPowerLed args) := ⟨_, _, rfl, rfl⟩

theorem PacketHead.setAudioMute (args : Args) :
    PacketHead.Statement (.setAudioMute args) := ⟨_, _, rfl, rfl⟩

theorem PacketHead.setIrAddr (args : Args) :
    PacketHead.Statement (.setIrAddr args) := ⟨_, _, rfl, rfl⟩

theorem PacketHead.setRtcWake (args : Args) :
    PacketHead.Statement (.setRtcWake args) := ⟨_, _, rfl, rfl⟩

theorem PacketHead.setAsyncOp (args : Args) :
    PacketHead.Statement (.setAsyncOp args) := ⟨_, _, rfl, rfl⟩

theorem PacketHead.setIntEnable0 (args : Args) :
    PacketHead.Statement (.setIntEnable0 args) := ⟨_, _, rfl, rfl⟩

theorem PacketHead.setIntEnable1 (args : Args) :
    PacketHead.Statement (.setIntEnable1 args) := ⟨_, _, rfl, rfl⟩

theorem PacketHead.unknownCommand (code : Byte) (args : Args) :
    PacketHead.Statement (.unknownCommand code args) := ⟨_, _, rfl, rfl⟩

theorem PacketHead.trayStepOpenRequest :
    PacketHead.Statement .trayStepOpenRequest := ⟨_, _, rfl, rfl⟩

theorem PacketHead.trayStepOpening : PacketHead.Statement .trayStepOpening := ⟨_, _, rfl, rfl⟩

theorem PacketHead.trayStepClosing : PacketHead.Statement .trayStepClosing := ⟨_, _, rfl, rfl⟩

theorem PacketHead.uartRx (d st : Word) : PacketHead.Statement (.uartRx d st) := ⟨_, _, rfl, rfl⟩

end Sys2Proof.Laws
end

