-- ==== Sys2Proof/Laws/Schedule.lean ====
section
/-! SUPPORT. What agents' deliveries leave, what a step that takes an operation is, and the rule of weak
fairness: what a state of the tray worker leads to. -/

namespace Sys2Proof.Machine

@[simp] theorem State.deliver_smc (s : State) (es : List Input) : (s.deliver es).smc = s.smc := rfl
@[simp] theorem State.deliver_iic (s : State) (es : List Input) : (s.deliver es).iic = s.iic := rfl
@[simp] theorem State.deliver_result (s : State) (es : List Input) : (s.deliver es).result = s.result := rfl
@[simp] theorem State.deliver_inbox (s : State) (es : List Input) :
    (s.deliver es).inbox = s.inbox ++ es := rfl
@[simp] theorem State.deliver_nil (s : State) : s.deliver [] = s := by simp [State.deliver]

/-- A step that takes an operation is that operation's meaning. -/
theorem step_of_takes {s : State} {i : Instr} (hi : s.Takes i) : step s = exec i (s.advance s.inbox.tail) := by
  obtain ⟨bytes, hb, hd⟩ := hi
  obtain ⟨rest, hin⟩ : ∃ rest, s.inbox = .packet bytes :: rest := by
    unfold State.entry at hb
    cases h : s.inbox with
    | nil => simp [h] at hb
    | cons e rest => exact ⟨rest, by simp_all⟩
  simp [step, hin, hd]

/-- In a fair run, a tray state `a` in which the worker's step `i` is enabled leads to `P`, where every step
from `a` leaves the tray there or reaches `P`, and `i` leaves `a`. -/
theorem leads_of_fair {delivered : Nat → List Input} {run : Nat → State} (hr : IsRun delivered run)
    (hf : TrayFair delivered run) {a : Tray} {i : Instr} (hi : trayEnabled a = some i) {P : Nat → Prop}
    (keeps : ∀ m, (run m).smc.tray = a → P m ∨ (run (m + 1)).smc.tray = a ∨ P (m + 1))
    (leaves : ∀ s t, s.smc.tray = a → exec i s = .next t → t.smc.tray ≠ a)
    {n : Nat} (hn : (run n).smc.tray = a) : ∃ m, n ≤ m ∧ P m := by
  by_contra hno
  push Not at hno
  have all : ∀ m, n ≤ m → (run m).smc.tray = a := by
    intro m hm
    induction m, hm using Nat.le_induction with
    | base => exact hn
    | succ m hm ih =>
      exact ((keeps m ih).resolve_left (hno m hm)).resolve_right (hno _ (Nat.le_succ_of_le hm))
  obtain ⟨m, hm, ht⟩ := hf i n fun m hm => by rw [all m hm, hi]
  refine leaves _ _ ?_ ((step_of_takes ht).symm.trans (hr m)) (all (m + 1) (Nat.le_succ_of_le hm))
  exact all m hm

end Sys2Proof.Machine
end

