-- ==== Sys2Proof/Tests/Slice0.lean ====
section
/-! SUPPORT. The model's own tests: ill-formed terms that WellFormed refuses, packets written out from
the spec's encodings and what they decode to, a few vectors of spec/95_test_vectors.md (one step each),
and a witness for the hypotheses of every obligation that has some. -/

namespace Sys2Proof.Tests

open Sys2Proof.Machine

/-! ### WellFormed refuses -/

/-- R106: a piece has at least one byte. -/
theorem test_wf_refuses_empty_piece :
    ¬(Instr.uartInRead 0 0).WellFormed ∧ ¬(Instr.uartInWrite 3 []).WellFormed ∧
      ¬(Instr.ackRead 0 0 0).WellFormed ∧ ¬(Instr.eoiWrite 0 0 []).WellFormed := by decide

/-- R106: "1 <= n <= W - l". -/
theorem test_wf_refuses_wide_piece :
    ¬(Instr.busControlRead 1 4).WellFormed ∧ ¬(Instr.busControlWrite 3 [1, 2]).WellFormed ∧
      ¬(Instr.whoamiRead 0 1 8).WellFormed ∧ ¬(Instr.whoamiWrite 0 7 [1, 2]).WellFormed ∧
      (Instr.busControlRead 1 3).WellFormed ∧ (Instr.whoamiRead 0 1 7).WellFormed := by decide

/-- Every named register's piece is checked, reads and writes (R106). -/
theorem test_wf_checks_every_register :
    (∀ r ∈ SmcReg.all, ¬(Instr.smcRead r 2 3).WellFormed ∧ ¬(Instr.smcWrite r 2 [1, 2, 3]).WellFormed) ∧
      ∀ r ∈ IicReg.all, ¬(Instr.iicRead r 5 6 3).WellFormed ∧ ¬(Instr.iicWrite r 5 6 [1, 2, 3]).WellFormed := by
  decide

/-- R104: 0x14 is UART_OUT, no storage; 0x20 is storage, but not for a piece too wide. -/
theorem test_wf_refuses_storage_on_named_slot :
    ¬(Instr.smcStorageRead 5 0 4).WellFormed ∧ ¬(Instr.smcStorageWrite 5 0 [1]).WellFormed ∧
      (Instr.smcStorageRead 8 0 4).WellFormed ∧ ¬(Instr.smcStorageRead 8 1 4).WellFormed ∧
      ¬(Instr.smcStorageWrite 8 1 [1, 2, 3, 4]).WellFormed := by decide

/-- R105: block offset 0x50 is ACK, no unnamed offset; 0x18 is unnamed, but not for a piece too wide. -/
theorem test_wf_refuses_unnamed_on_named_slot :
    ¬(Instr.iicUnnamedRead 0 10 0 8).WellFormed ∧ ¬(Instr.iicUnnamedWrite 0 10 0 [1]).WellFormed ∧
      (Instr.iicUnnamedRead 0 3 0 8).WellFormed ∧ ¬(Instr.iicUnnamedRead 0 3 1 8).WellFormed ∧
      ¬(Instr.iicUnnamedWrite 0 3 7 [1, 2]).WellFormed := by decide

/-- R113: 0x0A is QUERY_TRAY's code; 0x03 is no command's. -/
theorem test_wf_refuses_known_code_as_unknown :
    ¬(Instr.unknownCommand 0x0A (Vector.replicate 15 0)).WellFormed ∧
      (Instr.unknownCommand 0x03 (Vector.replicate 15 0)).WellFormed := by decide

/-! ### Decoding -/

/-- Fifteen zero argument bytes. -/
def noArgs : Args := Vector.replicate 15 0

/-- R101, R103: SMC port kinds 0 to 4. -/
theorem test_decode_smc_port :
    decode [0, 0, 0x20, 4] = .ok (.read 0x20 4) ∧
      decode [0, 1, 0x20, 2, 0xAA, 0xBB] = .ok (.write 0x20 [0xAA, 0xBB]) ∧
      decode [0, 2, 0x30, 0xAB, 0x03, 3] = .ok (.memSet 0x30 0x1AB 3) ∧
      decode [0, 3, 4, 2] = .ok (.configRead 4 2) ∧
      decode [0, 4, 4, 2, 6, 0] = .ok (.configWrite 4 [6, 0]) := by decide

/-- R102, R103: IIC register port kinds 0 and 1, request port kinds 2 to 4. -/
theorem test_decode_iic_ports :
    decode [1, 0, 0xD0, 0x00, 8] = .ok (.readInterrupt 0x50 8) ∧
      decode [1, 1, 0xE0, 0x20, 1, 0x07] = .ok (.writeInterrupt 0x1060 [0x07]) ∧
      decode [2, 2, 0x74, 0x03] = .ok (.genInterrupt 0x74 0x03) ∧
      decode [2, 3, 0x40, 0x02] = .ok (.cancelInterrupt 0x40 0x02) ∧
      decode [2, 4, 6] = .ok (.checkExtInterrupt 6) := by decide

/-- R104: the fourteen named offsets and two storage offsets, read. -/
theorem test_decode_smc_slot_reads :
    decode [3, 0x00, 3] = .ok (.busControlRead 0 4) ∧
      decode [3, 0x10, 3] = .ok (.uartInRead 0 4) ∧
      decode [3, 0x14, 3] = .ok (.uartOutRead 0 4) ∧
      decode [3, 0x18, 3] = .ok (.uartStatusRead 0 4) ∧
      decode [3, 0x1C, 3] = .ok (.uartConfigRead 0 4) ∧
      decode [3, 0x50, 3] = .ok (.smiIntPendingRead 0 4) ∧
      decode [3, 0x5C, 3] = .ok (.smiIntAckRead 0 4) ∧
      decode [3, 0x60, 3] = .ok (.smiIntEnableRead 0 4) ∧
      decode [3, 0x64, 3] = .ok (.clockIntEnableRead 0 4) ∧
      decode [3, 0x6C, 3] = .ok (.clockIntStatusRead 0 4) ∧
      decode [3, 0x80, 3] = .ok (.fifoInMsgRead 0 4) ∧
      decode [3, 0x84, 3] = .ok (.fifoInStatusRead 0 4) ∧
      decode [3, 0x90, 3] = .ok (.fifoOutMsgRead 0 4) ∧
      decode [3, 0x94, 3] = .ok (.fifoOutStatusRead 0 4) ∧
      decode [3, 0x22, 1] = .ok (.smcStorageRead 8 2 2) ∧
      decode [3, 0xFF, 0] = .ok (.smcStorageRead 63 3 1) := by decide

/-- R104: the fourteen named offsets (lane 1) and a storage offset, written. -/
theorem test_decode_smc_slot_writes :
    decode [4, 0x01, 0x5A] = .ok (.busControlWrite 1 [0x5A]) ∧
      decode [4, 0x11, 0x5A] = .ok (.uartInWrite 1 [0x5A]) ∧
      decode [4, 0x15, 0x5A] = .ok (.uartOutWrite 1 [0x5A]) ∧
      decode [4, 0x19, 0x5A] = .ok (.uartStatusWrite 1 [0x5A]) ∧
      decode [4, 0x1D, 0x5A] = .ok (.uartConfigWrite 1 [0x5A]) ∧
      decode [4, 0x51, 0x5A] = .ok (.smiIntPendingWrite 1 [0x5A]) ∧
      decode [4, 0x5D, 0x5A] = .ok (.smiIntAckWrite 1 [0x5A]) ∧
      decode [4, 0x61, 0x5A] = .ok (.smiIntEnableWrite 1 [0x5A]) ∧
      decode [4, 0x65, 0x5A] = .ok (.clockIntEnableWrite 1 [0x5A]) ∧
      decode [4, 0x6D, 0x5A] = .ok (.clockIntStatusWrite 1 [0x5A]) ∧
      decode [4, 0x81, 0x5A] = .ok (.fifoInMsgWrite 1 [0x5A]) ∧
      decode [4, 0x85, 0x5A] = .ok (.fifoInStatusWrite 1 [0x5A]) ∧
      decode [4, 0x91, 0x5A] = .ok (.fifoOutMsgWrite 1 [0x5A]) ∧
      decode [4, 0x95, 0x5A] = .ok (.fifoOutStatusWrite 1 [0x5A]) ∧
      decode [4, 0x04, 1, 2, 3, 4] = .ok (.smcStorageWrite 1 0 [1, 2, 3, 4]) := by decide

/-- R105: the eight named block offsets of block 1 and two unnamed offsets, read. -/
theorem test_decode_iic_slot_reads :
    decode [5, 0x00, 0x10, 7] = .ok (.whoamiRead 1 0 8) ∧
      decode [5, 0x08, 0x10, 7] = .ok (.currentTskPriRead 1 0 8) ∧
      decode [5, 0x10, 0x10, 7] = .ok (.ipiDispatch0Read 1 0 8) ∧
      decode [5, 0x50, 0x10, 7] = .ok (.ackRead 1 0 8) ∧
      decode [5, 0x58, 0x10, 7] = .ok (.ackSetPriRead 1 0 8) ∧
      decode [5, 0x60, 0x10, 7] = .ok (.eoiRead 1 0 8) ∧
      decode [5, 0x68, 0x10, 7] = .ok (.eoiSetPriRead 1 0 8) ∧
      decode [5, 0x70, 0x10, 7] = .ok (.mcackRead 1 0 8) ∧
      decode [5, 0xFF, 0x5F, 0] = .ok (.iicUnnamedRead 5 511 7 1) ∧
      decode [5, 0x18, 0x00, 7] = .ok (.iicUnnamedRead 0 3 0 8) := by decide

/-- R105: the eight named block offsets of block 5 (lane 7) and an unnamed offset, written. -/
theorem test_decode_iic_slot_writes :
    decode [6, 0x07, 0x50, 0x5A] = .ok (.whoamiWrite 5 7 [0x5A]) ∧
      decode [6, 0x0F, 0x50, 0x5A] = .ok (.currentTskPriWrite 5 7 [0x5A]) ∧
      decode [6, 0x17, 0x50, 0x5A] = .ok (.ipiDispatch0Write 5 7 [0x5A]) ∧
      decode [6, 0x57, 0x50, 0x5A] = .ok (.ackWrite 5 7 [0x5A]) ∧
      decode [6, 0x5F, 0x50, 0x5A] = .ok (.ackSetPriWrite 5 7 [0x5A]) ∧
      decode [6, 0x67, 0x50, 0x5A] = .ok (.eoiWrite 5 7 [0x5A]) ∧
      decode [6, 0x6F, 0x50, 0x5A] = .ok (.eoiSetPriWrite 5 7 [0x5A]) ∧
      decode [6, 0x77, 0x50, 0x5A] = .ok (.mcackWrite 5 7 [0x5A]) ∧
      decode [6, 0x78, 0x20, 1, 2] = .ok (.iicUnnamedWrite 2 15 0 [1, 2]) := by decide

/-- R108, R112: the frames of the query codes. -/
theorem test_decode_query_frames :
    decode (7 :: 0x01 :: noArgs.toList) = .ok (.pwronType noArgs) ∧
      decode (7 :: 0x04 :: noArgs.toList) = .ok (.queryRtc noArgs) ∧
      decode (7 :: 0x07 :: noArgs.toList) = .ok (.queryTemp noArgs) ∧
      decode (7 :: 0x0A :: noArgs.toList) = .ok (.queryTray noArgs) ∧
      decode (7 :: 0x0F :: noArgs.toList) = .ok (.queryAvpack noArgs) ∧
      decode (7 :: 0x11 :: noArgs.toList) = .ok (.i2cPassthrough noArgs) ∧
      decode (7 :: 0x12 :: noArgs.toList) = .ok (.queryVersion noArgs) ∧
      decode (7 :: 0x13 :: noArgs.toList) = .ok (.fifoTest noArgs) ∧
      decode (7 :: 0x16 :: noArgs.toList) = .ok (.queryIrAddr noArgs) ∧
      decode (7 :: 0x17 :: noArgs.toList) = .ok (.queryTilt noArgs) ∧
      decode (7 :: 0x1E :: noArgs.toList) = .ok (.queryIntAck0 noArgs) ∧
      decode (7 :: 0x20 :: noArgs.toList) = .ok (.queryIntAck1 noArgs) := by decide

/-- R108, R112, R113: the frames of the set codes and of a code that is none. -/
theorem test_decode_set_frames :
    decode (7 :: 0x82 :: noArgs.toList) = .ok (.setStandby noArgs) ∧
      decode (7 :: 0x85 :: noArgs.toList) = .ok (.setTime noArgs) ∧
      decode (7 :: 0x88 :: noArgs.toList) = .ok (.setFanAlgorithm noArgs) ∧
      decode (7 :: 0x89 :: noArgs.toList) = .ok (.setFanSpeed0 noArgs) ∧
      decode (7 :: 0x94 :: noArgs.toList) = .ok (.setFanSpeed1 noArgs) ∧
      decode (7 :: 0x8B :: noArgs.toList) = .ok (.setDvdTray noArgs) ∧
      decode (7 :: 0x8C :: noArgs.toList) = .ok (.setPowerLed noArgs) ∧
      decode (7 :: 0x8D :: noArgs.toList) = .ok (.setAudioMute noArgs) ∧
      decode (7 :: 0x96 :: noArgs.toList) = .ok (.setIrAddr noArgs) ∧
      decode (7 :: 0x9A :: noArgs.toList) = .ok (.setRtcWake noArgs) ∧
      decode (7 :: 0x9C :: noArgs.toList) = .ok (.setAsyncOp noArgs) ∧
      decode (7 :: 0x9D :: noArgs.toList) = .ok (.setIntEnable0 noArgs) ∧
      decode (7 :: 0x9F :: noArgs.toList) = .ok (.setIntEnable1 noArgs) ∧
      decode (7 :: 0xFF :: noArgs.toList) = .ok (.unknownCommand 0xFF noArgs) := by decide

/-- R241 to R243, R246: the tray worker's steps by tray code, and the receive bridge's two words. -/
theorem test_decode_agent_steps :
    decode [8, 0x61] = .ok .trayStepOpenRequest ∧ decode [8, 0x63] = .ok .trayStepOpening ∧
      decode [8, 0x64] = .ok .trayStepClosing ∧
      decode [9, 0x41, 0, 0, 0, 0x01, 0, 0, 0x80] = .ok (.uartRx 0x00000041 0x80000001) := by decide

/-- Each reason for which a packet stands for no operation. -/
theorem test_decode_rejects_by_name :
    decode [] = .error .emptyPacket ∧ decode [10] = .error .noSuchFormat ∧
      decode [0, 5, 0, 0] = .error .noSuchKind ∧ decode [1, 2, 0, 0] = .error .noSuchKind ∧
      decode [2, 1, 0, 0] = .error .noSuchKind ∧ decode [0, 0, 0x20] = .error .truncated ∧
      decode [7, 0x0A, 0] = .error .truncated ∧ decode [0, 0, 1, 2, 3] = .error .trailingBytes ∧
      decode [8, 0x61, 0] = .error .trailingBytes ∧ decode [0, 1, 0, 2, 9] = .error .lengthMismatch ∧
      decode [3, 0x01, 3] = .error .pieceTooWide ∧ decode [4, 0x03, 1, 2] = .error .pieceTooWide ∧
      decode [5, 0x00, 0x60, 0] = .error .noSuchBlock ∧ decode [6, 0x00, 0xFF, 0] = .error .noSuchBlock ∧
      decode [8, 0x60] = .error .noSuchStep := by decide

/-- Table words of every format the packet of a table word can take. -/
theorem test_decode_table_words :
    decodeTableWord 8 0x00 = some (.read 0 0) ∧ decodeTableWord 8 0x03 = some (.configRead 0 0) ∧
      decodeTableWord 8 0x10 = some (.uartInRead 0 1) ∧ decodeTableWord 8 0x82 = some (.setStandby noArgs) ∧
      decodeTableWord 8 0x64 = some .trayStepClosing ∧
      decodeTableWord 16 0x070 = some (.mcackRead 0 0 1) := by decide

/-! ### One step each, from spec/95_test_vectors.md

The starting states are built by hand from the vector's words; the expected values are the vector's. -/

/-- The outcome is a next state with a property. -/
def goesTo (o : Host.Outcome State Fault Refusal) (p : State → Bool) : Bool :=
  match o with
  | .next t => p t
  | .fault _ => false
  | .refused _ => false

/-- The reset state with another SMC. -/
def atSmc (f : Smc → Smc) : State := { State.reset with smc := f State.reset.smc }

/-- The reset state with a queue and a signal flag in block 0. -/
def atQueue (q : List IntRecord) : State :=
  { State.reset with
    iic := State.reset.iic.setBlock 0
      { (State.reset.iic.block 0) with q := q, sig := !q.isEmpty } }

/-- A frame that starts with two bytes and goes on with zeros. -/
def frame2 (a b : Byte) : Frame := #v[a, b, 0, 0, 0, 0, 0, 0, 0, 0, 0, 0, 0, 0, 0, 0]

/-- Block 0's queue after. -/
def q0 (s : State) : List IntRecord := (s.iic.block 0).q

/-- V40.1: bytes beyond the window are discarded. -/
theorem test_write_clamps :
    goesTo (exec (.write 0xFE [0xAA, 0xBB, 0xCC, 0xDD]) State.reset) fun t =>
      t.smc.win == [(0xFE, 0xAA), (0xFF, 0xBB)] := by decide

/-- V40.1: bytes beyond the window read as 0x00. -/
theorem test_read_clamps :
    goesTo (exec (.read 0xFE 4) (atSmc fun d => { d with win := [(0xFE, 0xAA), (0xFF, 0xBB)] })) fun t =>
      t.result == .data [0xAA, 0xBB, 0x00, 0x00] := by decide

/-- V40.4: one write over storage, FIFO_IN_MSG and FIFO_IN_STATUS; the flush dispatches code 0x03. -/
theorem test_write_crosses_slots :
    goesTo (exec (.write 0x7E [1, 2, 3, 4, 5, 6, 7, 8]) State.reset) fun t =>
      t.smc.win == [(0x7E, 1), (0x7F, 2), (0x80, 3), (0x81, 4), (0x82, 5), (0x83, 6), (0x84, 7),
        (0x85, 8)] && t.smc.cur == 0 && t.smc.respq == [] &&
        t.smc.fifo.toList.take 5 == [3, 4, 5, 6, 0] := by decide

/-- V40.6: MemSet over FIFO_IN_MSG appends four bytes only. -/
theorem test_memSet_over_fifo :
    goesTo (exec (.memSet 0x80 0x13 16) State.reset) fun t =>
      t.smc.cur == 4 && t.smc.fifo.toList.take 5 == [0x13, 0x13, 0x13, 0x13, 0] &&
        t.smc.respq == [] && Mem.read t.smc.win 0x8F == 0x13 := by decide

/-- V40.5: the value is taken mod 256. -/
theorem test_memSet_truncates :
    goesTo (exec (.memSet 0x30 0x1AB 3) State.reset) fun t =>
      t.smc.win == [(0x30, 0xAB), (0x31, 0xAB), (0x32, 0xAB)] := by decide

/-- V40.8: the configuration space is cut at 0x100 and has no FIFO. -/
theorem test_configWrite_clamps :
    (goesTo (exec (.configWrite 0xFF [0x11, 0x22]) State.reset) fun t =>
      t.smc.cfg == [(0xFF, 0x11)] && t.smc.win == []) ∧
    goesTo (exec (.configWrite 0x80 [0x0A, 0, 0, 0]) State.reset) fun t => t.smc.cur == 0 := by decide

/-- V40.8: a configuration read beyond the space. -/
theorem test_configRead_clamps :
    goesTo (exec (.configRead 0xFF 2) (atSmc fun d => { d with cfg := [(0xFF, 0x11)] })) fun t =>
      t.result == .data [0x11, 0x00] := by decide

/-- V41.2: a one-byte write of UART_OUT emits the merged word. -/
theorem test_uartOut_emits_merged :
    goesTo (exec (.uartOutWrite 1 [0x01]) (atSmc fun d => { d with win := [(0x14, 0x48)] })) fun t =>
      t.smc.trace == [.uartTx 0x00000148] := by decide

/-- V41.3: UART_CONFIG. -/
theorem test_uartConfig_reinitialises :
    goesTo (exec (.uartConfigWrite 0 [0xE6, 0, 0, 0]) State.reset) fun t =>
      t.smc.uartcfg == 0xE6 && t.smc.trace == [.uartReinit 0xE6] := by decide

/-- V41.6: a write of 0x85 with the stored ready bit set flushes; QUERY_TRAY answers CLOSED. -/
theorem test_fifoInStatus_flushes_on_stored_bit :
    goesTo (exec (.fifoInStatusWrite 1 [0x00])
      (atSmc fun d => { d with win := [(0x84, 4)], fifo := frame2 0x0A 0, cur := 4 })) fun t =>
      t.smc.cur == 0 && t.smc.respq == [frame2 0x0A 0x62] := by decide

/-- V41.7: with bit 2 clear nothing happens. -/
theorem test_fifoInStatus_ready_bit_clear :
    goesTo (exec (.fifoInStatusWrite 0 [0xFB, 0xFF, 0xFF, 0xFF])
      (atSmc fun d => { d with fifo := frame2 0x0A 0, cur := 8 })) fun t =>
      t.smc.cur == 8 && t.smc.respq == [] := by decide

/-- V42.9: from cursor 14, two bytes end a frame and two begin the next. -/
theorem test_fifoInMsg_dispatches_mid_piece :
    goesTo (exec (.fifoInMsgWrite 0 [0xAA, 0xBB, 0xCC, 0xDD])
      (atSmc fun d => { d with fifo := frame2 0x0F 0, cur := 14 })) fun t =>
      t.smc.fifo.toList == [0xCC, 0xDD, 0, 0, 0, 0, 0, 0, 0, 0, 0, 0, 0, 0, 0xAA, 0xBB] &&
        t.smc.cur == 2 && t.smc.respq == [frame2 0x0F 0x1F] := by decide

/-- V41.10: a one-byte read consumes a whole word. -/
theorem test_fifoOutMsg_read_takes_word :
    goesTo (exec (.fifoOutMsgRead 0 1) (atSmc fun d => { d with respq := [frame2 0x0A 0x62] })) fun t =>
      t.result == .data [0x0A] && t.smc.ocur == 4 && t.smc.olast == 0x0000620A := by decide

/-- V41.11: the word, then the status computed after it. -/
theorem test_read_message_then_status :
    goesTo (exec (.read 0x90 8) (atSmc fun d => { d with respq := [frame2 0x0A 0x62] })) fun t =>
      t.result == .data [0x0A, 0x62, 0, 0, 4, 0, 0, 0] := by decide

/-- V41.9: the fourth word of a response pops it; the drained word for either value. -/
theorem test_fifoOut_last_word_and_drained :
    (goesTo (exec (.fifoOutMsgRead 0 4) (atSmc fun d =>
      { d with respq := [#v[1, 2, 3, 4, 5, 6, 7, 8, 9, 10, 11, 12, 13, 14, 15, 16]], ocur := 12 })) fun t =>
      t.result == .data [0x0D, 0x0E, 0x0F, 0x10] && t.smc.respq == [] && t.smc.ocur == 0) ∧
    ((atSmc fun d => { d with olast := 0x100F0E0D }).smc.takeWord .stale).1 = 0x100F0E0D ∧
    ((atSmc fun d => { d with olast := 0x100F0E0D }).smc.takeWord .zero).1 = 0 := by decide

/-- V41.12: what is written to the FIFO out slots is stored, and not what they read as. -/
theorem test_fifoOut_writes_are_invisible :
    (goesTo (exec (.fifoOutStatusWrite 0 [0xFF, 0xFF, 0xFF, 0xFF]) State.reset) fun t =>
      Mem.read t.smc.win 0x97 == 0xFF) ∧
    goesTo (exec (.read 0x90 8) (atSmc fun d => { d with win := [(0x90, 0xEF), (0x97, 0xFF)] })) fun t =>
      t.result == .data [0, 0, 0, 0, 0, 0, 0, 0] := by decide

/-- V42.1: the three queries with a known answer. -/
theorem test_known_queries :
    (goesTo (exec (.pwronType noArgs) State.reset) fun t => t.smc.respq == [frame2 0x01 0x11]) ∧
    (goesTo (exec (.queryTray noArgs) State.reset) fun t => t.smc.respq == [frame2 0x0A 0x62]) ∧
    goesTo (exec (.queryAvpack noArgs) State.reset) fun t => t.smc.respq == [frame2 0x0F 0x1F] := by decide

/-- V42.2: an open query's response starts with the code (its other bytes are free). -/
theorem test_open_query_starts_with_code :
    goesTo (exec (.queryIntAck1 noArgs) State.reset) fun t =>
      t.smc.respq.length == 1 && t.smc.draws == 1 := by decide

/-- V42.6: the table of SET_DVD_TRAY, columns 0x60 and 0x62. -/
theorem test_setDvdTray_table :
    ∀ x ∈ [(Tray.opened, Tray.opened, Tray.closing), (.openRequest, .openRequest, .closed),
        (.closed, .openRequest, .closed), (.opening, .opening, .opening),
        (.closing, .closing, .closing), (.unknown, .unknown, .unknown), (.spinup, .spinup, .spinup)],
      (goesTo (exec (.setDvdTray (noArgs.set 0 0x60)) (atSmc fun d => { d with tray := x.1 })) fun t =>
        t.smc.tray == x.2.1) ∧
      goesTo (exec (.setDvdTray (noArgs.set 0 0x62)) (atSmc fun d => { d with tray := x.1 })) fun t =>
        t.smc.tray == x.2.2 := by decide

/-- V42.5, V42.7: a set command and an unknown code leave the SMC as it was. -/
theorem test_silent_commands :
    (goesTo (exec (.setPowerLed noArgs) State.reset) fun t => t.smc == State.reset.smc) ∧
    goesTo (exec (.unknownCommand 0xFF noArgs) State.reset) fun t => t.smc == State.reset.smc := by decide

/-- V43.1: the worker's steps, enabled and not. -/
theorem test_tray_steps :
    (goesTo (exec .trayStepOpenRequest (atSmc fun d => { d with tray := .openRequest })) fun t =>
      t.smc.tray == .opening) ∧
    (goesTo (exec .trayStepOpening (atSmc fun d => { d with tray := .opening })) fun t =>
      t.smc.tray == .opened) ∧
    (goesTo (exec .trayStepClosing (atSmc fun d => { d with tray := .closing })) fun t =>
      t.smc.tray == .closed) ∧
    goesTo (exec .trayStepOpening State.reset) fun t => t.smc.tray == .closed := by decide

/-- V41.4, V43.3: the receive bridge's two words. -/
theorem test_uartRx :
    goesTo (exec (.uartRx 0x00000041 0x00000001) State.reset) fun t =>
      t.smc.win == [(0x10, 0x41), (0x18, 0x01)] := by decide

/-- V44.1: big-endian lanes, one block only. -/
theorem test_writeInterrupt_is_big_endian :
    goesTo (exec (.writeInterrupt 0x2008 [0, 0, 0, 0, 0, 0, 0, 0x10]) State.reset) fun t =>
      (t.iic.block 2).regs.currentTskPri == 0x10 &&
        ([0, 1, 3, 4, 5] : List (Fin 6)).all fun c => t.iic.block c == State.reset.iic.block c := by decide

/-- V44.2: unnamed block offsets and addresses beyond the space hold nothing. -/
theorem test_iic_unnamed :
    (goesTo (exec (.writeInterrupt 0x0018 [0xFF, 0xFF]) State.reset) fun t => t.iic == State.reset.iic) ∧
    goesTo (exec (.readInterrupt 0x5FFC 8) State.reset) fun t =>
      t.result == .data [0, 0, 0, 0, 0, 0, 0, 0] := by decide

/-- V44.3: the ACK read takes the record of least priority value. -/
theorem test_ack_takes_best :
    goesTo (exec (.readInterrupt 0x0050 8) (atQueue [⟨0x74, 9, false⟩, ⟨0x14, 1, false⟩])) fun t =>
      t.result == .data [0, 0, 0, 0, 0, 0, 0, 0x14] &&
        q0 t == [⟨0x74, 9, false⟩, ⟨0x14, 1, true⟩] && (t.iic.block 0).sig := by decide

/-- V44.4: among equals the earliest enqueued; V44.3: with none pending, NONE_ID. -/
theorem test_ack_tie_and_none :
    (goesTo (exec (.ackRead 0 0 8) (atQueue [⟨0x40, 5, false⟩, ⟨0x58, 5, false⟩])) fun t =>
      t.result == .data [0, 0, 0, 0, 0, 0, 0, 0x40]) ∧
    goesTo (exec (.ackRead 0 0 8) (atQueue [⟨0x74, 9, true⟩])) fun t =>
      t.result == .data [0, 0, 0, 0, 0, 0, 0, 0x7C] && (t.iic.block 0).regs.ack == 0x7C := by decide

/-- V44.7: nested handlers; the best acknowledged record is retired first. -/
theorem test_eoi_retires_best :
    goesTo (exec (.eoiWrite 0 0 [0, 0, 0, 0, 0, 0, 0, 0]) (atQueue [⟨0x74, 9, true⟩, ⟨0x14, 1, true⟩])) fun t =>
      q0 t == [⟨0x74, 9, true⟩] && (t.iic.block 0).sig := by decide

/-- V44.8: an end of interrupt never removes a pending record; V44.9: 0x68 also sets the task priority. -/
theorem test_eoi_pending_and_set :
    (goesTo (exec (.eoiWrite 0 7 [0]) (atQueue [⟨0x14, 1, false⟩])) fun t =>
      q0 t == [⟨0x14, 1, false⟩] && (t.iic.block 0).sig) ∧
    goesTo (exec (.eoiSetPriWrite 0 7 [0x20]) (atQueue [⟨0x14, 1, true⟩])) fun t =>
      q0 t == [] && !(t.iic.block 0).sig && (t.iic.block 0).regs.currentTskPri == 0x20 &&
        (t.iic.block 0).regs.eoiSetPri == 0x20 := by decide

/-- V44.10: sixteen bytes over 0x60 and 0x68 perform two ends of interrupt. -/
theorem test_eoi_twice_in_one_write :
    goesTo (exec (.writeInterrupt 0x0060 (List.replicate 16 0))
      (atQueue [⟨0x74, 9, true⟩, ⟨0x14, 1, true⟩])) fun t => q0 t == [] := by decide

/-- V45.1: a request to cores 0 and 1 raises both lines in ascending order; a mask bit above 5 none. -/
theorem test_gen_raises_lines :
    (goesTo (exec (.genInterrupt 0x40 0x43) State.reset) fun t =>
      (q0 t).map (fun r => (r.type, r.ack)) == [(0x40, false)] && (t.iic.block 1).sig &&
        !(t.iic.block 2).sig && t.iic.trace == [.lineAssert 0, .lineAssert 1]) ∧
    goesTo (exec (.genInterrupt 0x40 0x40) State.reset) fun t => t.iic == State.reset.iic := by decide

/-- V45.4: the acknowledged record stays, the pending one of the type goes; no line event. -/
theorem test_cancel_leaves_acked :
    goesTo (exec (.cancelInterrupt 0x40 0x01) (atQueue [⟨0x40, 5, true⟩, ⟨0x40, 5, false⟩])) fun t =>
      q0 t == [⟨0x40, 5, true⟩] && (t.iic.block 0).sig && t.iic.trace == [] := by decide

/-- V45.6, V45.8: no core 6; an acknowledged record raises no external interrupt. -/
theorem test_check :
    (goesTo (exec (.checkExtInterrupt 6) State.reset) fun t => t.result == .flag false) ∧
    (goesTo (exec (.checkExtInterrupt 0) (atQueue [⟨0x14, 1, true⟩])) fun t => t.result == .flag false) ∧
    goesTo (exec (.checkExtInterrupt 0) (atQueue [⟨0x14, 1, false⟩])) fun t =>
      t.result == .flag true := by decide

/-- A table word placed with withFetchWord is the next step's operation. -/
theorem test_step_runs_table_word :
    goesTo (step (State.reset.withFetchWord 8 0x0A)) fun t => t.smc.respq == [frame2 0x0A 0x62] := by decide

/-! ### Witnesses: the hypotheses of every obligation that has some can be met together -/

/-- DecodeEncodeRoundTrip: an instruction of every format whose check is not trivial. -/
theorem test_witness_well_formed :
    (Instr.smcStorageWrite 63 3 [0xFF]).WellFormed ∧ (Instr.iicUnnamedRead 5 511 0 8).WellFormed ∧
      (Instr.unknownCommand 0x00 noArgs).WellFormed ∧ (Instr.mcackWrite 5 7 [1]).WellFormed ∧
      (Instr.memSet 0 0x1AB 16).WellFormed := by decide

/-- DecodedInstructionsAreWellFormed. -/
theorem test_witness_decodes : decode [5, 0xFF, 0x5F, 0] = .ok (.iicUnnamedRead 5 511 7 1) := by decide

/-- WindowOffsetSelectsSlot, a named slot: the last lane of FIFO_OUT_STATUS, and the whole of BUS_CONTROL. -/
theorem test_witness_window_named :
    ((3 : Fin 4).val = (0x97 : Byte).toNat % 4 ∧
      ((0x97 : Byte) &&& 0xFC).toNat = SmcReg.fifoOutStatus.offset ∧
      pieceFits 4 (3 : Fin 4).val ((0 : Byte).toNat + 1) = true ∧
      pieceFits 4 (3 : Fin 4).val [(5 : Byte)].length = true) ∧
    (0 : Fin 4).val = (0x00 : Byte).toNat % 4 ∧ ((0x00 : Byte) &&& 0xFC).toNat = SmcReg.busControl.offset ∧
      pieceFits 4 (0 : Fin 4).val ((3 : Byte).toNat + 1) = true := by decide

/-- WindowOffsetSelectsSlot, storage: the last byte of the window. -/
theorem test_witness_window_storage :
    (3 : Fin 4).val = (0xFF : Byte).toNat % 4 ∧ (∀ r : SmcReg, ((0xFF : Byte) &&& 0xFC).toNat ≠ r.offset) ∧
      4 * (63 : Fin 64).val = ((0xFF : Byte) &&& 0xFC).toNat ∧
      pieceFits 4 (3 : Fin 4).val ((0 : Byte).toNat + 1) = true ∧
      pieceFits 4 (3 : Fin 4).val [(5 : Byte)].length = true :=
  ⟨by decide, fun r => by cases r <;> decide, by decide, by decide, by decide⟩

/-- IicAddressSelectsBlockAndSlot: the last lane of block 5's INT_MCACK, and the last byte of the space. -/
theorem test_witness_iic_address :
    ((0x77 : Byte).toNat + 256 * (0x50 : Byte).toNat < 0x6000 ∧
      (5 : Fin 6).val = ((0x77 : Byte).toNat + 256 * (0x50 : Byte).toNat) / 0x1000 ∧
      (7 : Fin 8).val = ((0x77 : Byte).toNat + 256 * (0x50 : Byte).toNat) % 0x1000 % 8 ∧
      ((0x77 : Byte).toNat + 256 * (0x50 : Byte).toNat) % 0x1000 -
        ((0x77 : Byte).toNat + 256 * (0x50 : Byte).toNat) % 0x1000 % 8 = IicReg.mcack.offset ∧
      pieceFits 8 (7 : Fin 8).val ((0 : Byte).toNat + 1) = true) ∧
    ((0xFF : Byte).toNat + 256 * (0x5F : Byte).toNat < 0x6000 ∧
      (5 : Fin 6).val = ((0xFF : Byte).toNat + 256 * (0x5F : Byte).toNat) / 0x1000 ∧
      (7 : Fin 8).val = ((0xFF : Byte).toNat + 256 * (0x5F : Byte).toNat) % 0x1000 % 8 ∧
      8 * (511 : Fin 512).val = ((0xFF : Byte).toNat + 256 * (0x5F : Byte).toNat) % 0x1000 -
        ((0xFF : Byte).toNat + 256 * (0x5F : Byte).toNat) % 0x1000 % 8 ∧
      (∀ r : IicReg, 8 * (511 : Fin 512).val ≠ r.offset) ∧
      pieceFits 8 (7 : Fin 8).val [(5 : Byte)].length = true) :=
  ⟨by decide, by decide, by decide, by decide, by decide, fun r => by cases r <;> decide, by decide⟩

/-- FrameDecodesByFirstByte: the last code of the table, and a byte below the first. -/
theorem test_witness_frame_codes :
    Cmd.setIntEnable1.code = 0x9F ∧ ∀ c : Cmd, c.code ≠ 0x00 :=
  ⟨by decide, fun c => by cases c <;> decide⟩

/-- A state with one entry scheduled. -/
def scheduled (x : Input) : State := { State.reset with inbox := [x] }

/-- StepRunsDecodedInstruction. -/
theorem test_witness_step_runs :
    (scheduled (.packet [2, 4, 0])).inbox = .packet [2, 4, 0] :: [] ∧
      decode [2, 4, 0] = .ok (.checkExtInterrupt 0) := by decide

/-- StepWithoutInstruction, its four clauses. -/
theorem test_witness_step_without :
    State.reset.inbox = [] ∧
    ((scheduled (.packet [8, 0x60])).inbox = .packet [8, 0x60] :: [] ∧
      decode [8, 0x60] = .error .noSuchStep) ∧
    (scheduled (.smcReset ⟨[1], [2], 0x5A, 0x5B⟩)).inbox = .smcReset ⟨[1], [2], 0x5A, 0x5B⟩ :: [] ∧
    (scheduled (.iicReset (Vector.replicate 6 7))).inbox = .iicReset (Vector.replicate 6 7) :: [] := by
  decide

/-- A busy state: a record queued, half a frame accumulated, a response half read, bytes stored, and an
ACK read scheduled. -/
def busy : State where
  smc :=
    { win := [(0x1C, 0xE6), (0x80, 0x0A)], cfg := [(0xFF, 0x11)], fifo := frame2 0x0A 0, cur := 4
      respq := [frame2 0x0A 0x62], ocur := 12, olast := 0, tray := .openRequest, pwr := 0x11
      avpack := 0x1F, uartcfg := 0xE6, trace := [.uartReinit 0xE6], draws := 3 }
  iic := State.reset.iic.setBlock 0
    { regs := Regs.reset 0, q := [⟨0x40, Config.prio 0x40, false⟩], sig := true }
  inbox := [.packet [5, 0x50, 0x00, 7]]
  result := .nothing

/-- StepKeepsWellFormed: the busy state is well formed and its step answers a next state. -/
theorem test_witness_step_keeps : busy.Inv ∧ ∃ t, step busy = .next t := by
  refine ⟨⟨⟨by decide, by decide, by decide, by decide, by decide, by decide⟩, fun c => ?_⟩, _, rfl⟩
  fin_cases c <;> refine ⟨by decide, fun r hr => ?_⟩ <;> revert r <;> intro r hr
  · obtain rfl := List.mem_singleton.mp hr
    rfl
  all_goals cases hr

/-- SmcResetValues. -/
theorem test_witness_smc_reset :
    Smc.resetWith ⟨[1, 2], [3], 0x5A, 0x5B⟩ busy.smc = Smc.resetWith ⟨[1, 2], [3], 0x5A, 0x5B⟩ busy.smc ∧
      (Smc.resetWith ⟨[1, 2], [3], 0x5A, 0x5B⟩ busy.smc).pwr = 0x5A := by decide

/-- IicResetValues: a register that is not WHOAMI. ResetStateIsResetOfBoth: a state that has drawn
nothing. -/
theorem test_witness_resets : IicReg.ack ≠ .whoami ∧ State.reset.smc.draws = 0 := by decide

/-- TrayMovesAlongTheRelation, PowerReasonAndAvpackConstant, DevicesDoNotTouchEachOther (both clauses),
LineAssertOnFalseToTrueOnly (both clauses), RecordsOnlyMoveForward (a genInterrupt on a core it selects and on
one it does not; an ACK read): operations that answer a next state. -/
theorem test_witness_exec_answers :
    (∃ t, exec .trayStepOpenRequest busy = .next t) ∧
      (Instr.trayStepOpenRequest).format ∉
        [Format.iicPort, Format.iicReq, Format.iicSlotRead, Format.iicSlotWrite] ∧
      (∃ t, exec (.genInterrupt 0x40 0x20) busy = .next t) ∧
      (0x20 : Nat).testBit (5 : Fin 6).val = true ∧ (0x20 : Nat).testBit (0 : Fin 6).val = false ∧
      (Instr.genInterrupt 0x40 0x20).format ∈
        [Format.iicPort, Format.iicReq, Format.iicSlotRead, Format.iicSlotWrite] ∧
      (∃ t, exec (.ackRead 0 0 8) busy = .next t) ∧
      ∀ type mask, Instr.ackRead 0 0 8 ≠ .genInterrupt type mask :=
  ⟨⟨_, rfl⟩, by decide, ⟨_, rfl⟩, by decide, by decide, by decide, ⟨_, rfl⟩, fun _ _ h => nomatch h⟩

/-- SmcPieceIsBusOperation: V40.4's Write cut where FIFO_IN_STATUS begins; a Read cut where FIFO_OUT_STATUS
begins. IicPieceIsPortOperation: V44.10's sixteen bytes cut where EOI_SET_CPU_CURRENT_TSK_PRI begins; a read
cut where block 1 begins. -/
theorem test_witness_cuts :
    (0x7E + [(1 : Byte), 2, 3, 4, 5, 6].length) % 4 = 0 ∧ (0x90 + 4) % 4 = 0 ∧
      (0x60 + (List.replicate 8 (0 : Byte)).length) % 8 = 0 ∧ (0xFFF + 1) % 8 = 0 := by decide

/-- WriteStoresInRangeBytes: the longest writes just outside its side-effecting slots. -/
theorem test_witness_write_frames :
    (¬Touches 0x18 4 0x14 ∧ ¬Touches 0x18 4 0x1C) ∧ ¬Touches 0x88 0x78 0x80 ∧ ¬Touches 0x88 0x78 0x84 := by
  refine ⟨⟨?_, ?_⟩, ?_, ?_⟩ <;> rintro ⟨x, h1, h2, h3⟩ <;> unfold slotBase at h3 <;> omega

/-- ReadReturnsStoredBytes: the byte just below FIFO_OUT_MSG, the first byte beyond the window, and a read
that ends where FIFO_OUT_MSG begins. -/
theorem test_witness_read_clauses :
    (3 < 4 ∧ 0x8C + 3 < 0x100 ∧ slotBase (0x8C + 3) ≠ 0x90 ∧ slotBase (0x8C + 3) ≠ 0x94) ∧
      (1 < 2 ∧ 0x100 ≤ 0xFF + 1) ∧ ¬Touches 0x8C 4 0x90 := by
  refine ⟨by decide, by decide, ?_⟩
  rintro ⟨x, h1, h2, h3⟩
  unfold slotBase at h3
  omega

/-- WriteThenReadReturnsBuffer: the last slot of the window. -/
theorem test_witness_round_trip :
    0xFC + [(1 : Byte), 2, 3, 4].length ≤ 0x100 ∧ ¬Touches 0xFC 4 0x90 ∧ ¬Touches 0xFC 4 0x94 := by
  refine ⟨by decide, ?_, ?_⟩ <;> rintro ⟨x, h1, h2, h3⟩ <;> unfold slotBase at h3 <;> omega

/-- MemSetIsWriteOfEqualBytes: the last in-range byte of a range that runs over the end. -/
theorem test_witness_memSet : 0xFE ≤ 0xFF ∧ 0xFF < 0xFE + 4 ∧ 0xFF < 0x100 := by decide

/-- StoragePiecesReadAndWrite, SmcPieceIsBusOperation: the last storage slot. -/
theorem test_witness_storage :
    smcSlotUnnamed 63 = true ∧ pieceFits 4 (3 : Fin 4).val 1 = true ∧
      pieceFits 4 (0 : Fin 4).val [(1 : Byte), 2, 3, 4].length = true := by decide

/-- StoredRegistersReadTheirBytes, PlainRegistersStoreTheirBytes. -/
theorem test_witness_named_slots :
    pieceFits 4 (3 : Fin 4).val 1 = true ∧ SmcReg.fifoInStatus ≠ .fifoOutMsg ∧
      SmcReg.fifoInStatus ≠ .fifoOutStatus ∧ pieceFits 4 (0 : Fin 4).val [(1 : Byte), 2, 3, 4].length = true ∧
      SmcReg.fifoOutStatus ∈ [SmcReg.busControl, .uartIn, .uartStatus, .smiIntPending, .smiIntAck,
        .smiIntEnable, .clockIntEnable, .clockIntStatus, .fifoOutMsg, .fifoOutStatus] := by decide

/-- UartOutWriteEmitsMergedWord, UartConfigWriteReinitialises, FifoOutStatusReadsReady: pieces at both ends
of a slot. -/
theorem test_witness_uart_pieces :
    pieceFits 4 (3 : Fin 4).val [(1 : Byte)].length = true ∧
      pieceFits 4 (0 : Fin 4).val [(1 : Byte), 2, 3, 4].length = true ∧ pieceFits 4 (0 : Fin 4).val 4 = true := by
  decide

/-- FifoInMsgWriteAccumulates: up to byte 15, and from cursor 0. -/
theorem test_witness_accumulates :
    pieceFits 4 (0 : Fin 4).val [(1 : Byte), 2, 3, 4].length = true ∧
      (atSmc fun d => { d with cur := 11 }).smc.cur + [(1 : Byte), 2, 3, 4].length < 16 ∧
      State.reset.smc.cur + [(1 : Byte), 2, 3, 4].length < 16 := by decide

/-- FifoInMsgWriteDispatchesFullFrame: exactly to the end, and three bytes over. -/
theorem test_witness_dispatches :
    pieceFits 4 (0 : Fin 4).val [(1 : Byte), 2, 3, 4].length = true ∧
      (∀ k ∈ [12, 15], (atSmc fun d => { d with cur := k }).smc.cur ≤ 15 ∧
        16 ≤ (atSmc fun d => { d with cur := k }).smc.cur + [(1 : Byte), 2, 3, 4].length) := by decide

/-- FifoInStatusWriteFlushes: the flush (from cursors 1 and 15) and the two ways of none. -/
theorem test_witness_flushes :
    pieceFits 4 (0 : Fin 4).val [(4 : Byte)].length = true ∧
      (∀ k ∈ [1, 15], (4 : Word) &&& 0x00000004 ≠ 0 ∧ (atSmc fun d => { d with cur := k }).smc.cur ≠ 0) ∧
      ¬(4 : Word) &&& 0x00000004 = 0 ∧ State.reset.smc.cur = 0 ∧
      (0xFFFFFFFB : Word) &&& 0x00000004 = 0 := by decide

/-- FifoOutMsgReadTakesAWord: nothing queued; the first and the last word of a response. -/
theorem test_witness_takes_word :
    State.reset.smc.respq = [] ∧ pieceFits 4 (3 : Fin 4).val 1 = true ∧
      ∀ k ∈ [0, 12], (atSmc fun d => { d with respq := [frame2 1 2], ocur := k }).smc.respq = frame2 1 2 :: [] ∧
        ((atSmc fun d => { d with respq := [frame2 1 2], ocur := k }).smc.ocur = 0 ∨
          (atSmc fun d => { d with respq := [frame2 1 2], ocur := k }).smc.ocur = 12) := by decide

/-- FourReadsReturnAResponse. -/
theorem test_witness_four_reads :
    (atSmc fun d => { d with respq := [frame2 1 2, frame2 3 4] }).smc.respq = frame2 1 2 :: [frame2 3 4] ∧
      (atSmc fun d => { d with respq := [frame2 1 2, frame2 3 4] }).smc.ocur = 0 := by decide

/-- NamedQueriesAnswer: each of its three queries. -/
theorem test_witness_queries :
    ∀ x ∈ [(Instr.pwronType noArgs, Cmd.pwronType, busy.smc.pwr),
        (.queryTray noArgs, .queryTray, busy.smc.tray.code), (.queryAvpack noArgs, .queryAvpack, busy.smc.avpack)],
      (x.1 = Instr.pwronType noArgs ∧ x.2.1 = Cmd.pwronType ∧ x.2.2 = busy.smc.pwr) ∨
        (x.1 = .queryTray noArgs ∧ x.2.1 = .queryTray ∧ x.2.2 = busy.smc.tray.code) ∨
        (x.1 = .queryAvpack noArgs ∧ x.2.1 = .queryAvpack ∧ x.2.2 = busy.smc.avpack) := by decide

/-- OpenQueriesEnqueueFreeValues, OtherSetCommandsChangeNothing: the last command of each list. -/
theorem test_witness_command_lists :
    Cmd.queryIntAck1 ∈ [Cmd.queryRtc, .queryTemp, .i2cPassthrough, .queryVersion, .queryIrAddr, .queryTilt,
        .queryIntAck0, .queryIntAck1] ∧
      Cmd.setIntEnable1 ∈ [Cmd.setStandby, .setTime, .setFanAlgorithm, .setFanSpeed0, .setFanSpeed1,
        .setPowerLed, .setAudioMute, .setIrAddr, .setRtcWake, .setAsyncOp, .setIntEnable0,
        .setIntEnable1] := by decide

/-- UnknownCommandChangesNothing; SendThenFlushDispatchesOnce, its clause on unknown codes. -/
theorem test_witness_unknown :
    (∀ c : Cmd, c.code ≠ 0xFF) ∧ (atSmc fun d => { d with fifo := frame2 0xFF 0x60 }).smc.fifo[0] = 0xFF :=
  ⟨fun c => by cases c <;> decide, by decide⟩

/-- SetDvdTrayFollowsTheTable: its three moves, and a pair that makes none. -/
theorem test_witness_setDvdTray :
    ((noArgs.set 0 0x60)[0] = 0x60 ∧ State.reset.smc.tray = .closed) ∧
    ((noArgs.set 0 0x62)[0] = 0x62 ∧ (atSmc fun d => { d with tray := .opened }).smc.tray = .opened) ∧
    ((noArgs.set 0 0x62)[0] = 0x62 ∧ busy.smc.tray = .openRequest) ∧
    ¬((noArgs.set 0 0x60)[0] = 0x60 ∧ busy.smc.tray = .closed) ∧
      ¬((noArgs.set 0 0x60)[0] = 0x62 ∧ busy.smc.tray = .opened) ∧
      ¬((noArgs.set 0 0x60)[0] = 0x62 ∧ busy.smc.tray = .openRequest) := by decide

/-- R12: the lanes that the statements on lanes reach, at both ends of a word and of a register value. -/
theorem test_lanes :
    lane 0x11223344 0 = 0x44 ∧ lane 0x11223344 3 = 0x11 ∧
      blane 0x1122334455667788 0 = 0x11 ∧ blane 0x1122334455667788 7 = 0x88 := by decide

/-- R196: the frame that a Write of FIFO_IN_MSG fills answers as QUERY_TRAY's own row does. -/
theorem test_dispatch_runs_the_row :
    goesTo (exec (.write 0x80 [0, 0, 0, 0]) (atSmc fun d => { d with fifo := frame2 0x0A 0, cur := 12 })) fun t =>
      goesTo (exec (.queryTray noArgs) State.reset) fun u =>
        t.smc.respq == u.smc.respq && t.smc.respq == [frame2 0x0A 0x62] := by decide

/-- SendThenFlushDispatchesOnce; TrayOpeningSteps, first clause: both of its steps. -/
theorem test_witness_send_and_tray :
    State.reset.smc.cur = 0 ∧
      (Instr.trayStepOpening, Tray.opening, Tray.opened) ∈
        [(Instr.trayStepOpenRequest, Tray.openRequest, Tray.opening),
          (Instr.trayStepOpening, Tray.opening, Tray.opened)] := by decide

/-- The reset state with another tray. -/
def withTray (u : Tray) : State := atSmc fun d => { d with tray := u }

/-- A run in which the worker opens the tray by its first two steps, and rests. -/
def openingRun : Nat → State
  | 0 => withTray .openRequest
  | 1 => withTray .opening
  | _ + 2 => withTray .opened

/-- The two steps' packets, and then nothing. -/
def openingPackets : Nat → List Input
  | 0 => [.packet [8, 0x61]]
  | 1 => [.packet [8, 0x63]]
  | _ + 2 => []

/-- A run in which the worker closes the tray by its third step, and rests. -/
def closingRun : Nat → State
  | 0 => withTray .closing
  | _ + 1 => withTray .closed

/-- The step's packet, and then nothing. -/
def closingPackets : Nat → List Input
  | 0 => [.packet [8, 0x64]]
  | _ + 1 => []

/-- TrayOpeningSteps, second clause: a fair run that is in OPEN_REQUEST, and then in OPENING. -/
theorem test_witness_opening_run :
    IsRun openingPackets openingRun ∧ TrayFair openingPackets openingRun ∧
      (openingRun 0).smc.tray = .openRequest ∧ (openingRun 1).smc.tray = .opening :=
  ⟨fun | 0 => rfl | 1 => rfl | _ + 2 => rfl, fun _ n h => (nomatch h (n + 2) (Nat.le_add_right n 2)), rfl, rfl⟩

/-- TrayClosingStep, second clause: a fair run that is in CLOSING. -/
theorem test_witness_closing_run :
    IsRun closingPackets closingRun ∧ TrayFair closingPackets closingRun ∧
      (closingRun 0).smc.tray = .closing :=
  ⟨fun | 0 => rfl | _ + 1 => rfl, fun _ n h => (nomatch h (n + 1) (Nat.le_add_right n 1)), rfl⟩

/-- R245: a run that leaves the worker's enabled step out for ever is a run of `step`, and it is not fair. -/
theorem test_unfair_run :
    IsRun (fun _ => []) (fun _ => withTray .closing) ∧ ¬TrayFair (fun _ => []) (fun _ => withTray .closing) := by
  refine ⟨fun _ => rfl, fun h => ?_⟩
  obtain ⟨_, _, _, hentry, _⟩ := h .trayStepClosing 0 fun _ _ => rfl
  cases hentry

/-- ShadowReadsReturnTheRegister, ShadowWritesMergeTheLanes, UnnamedBlockOffsetsHoldNothing,
IicPieceIsPortOperation: pieces at both ends of a slot, registers of the lists, the last unnamed slot. -/
theorem test_witness_iic_pieces :
    pieceFits 8 (7 : Fin 8).val 1 = true ∧ pieceFits 8 (0 : Fin 8).val 8 = true ∧
      pieceFits 8 (7 : Fin 8).val [(1 : Byte)].length = true ∧
      IicReg.mcack ∈ [IicReg.whoami, .currentTskPri, .ipiDispatch0, .ackSetPri, .eoi, .eoiSetPri, .mcack] ∧
      IicReg.ack ∈ [IicReg.whoami, .currentTskPri, .ipiDispatch0, .ack, .ackSetPri, .mcack] ∧
      iicSlotUnnamed 511 = true := by decide

/-- The best record of a queue of two. -/
theorem best_of_two (p : IntRecord → Bool) (a b : IntRecord) (hb : p b = true)
    (h : p a = true → b.prio < a.prio) : IsBest p [a, b] 1 b := by
  refine ⟨rfl, hb, fun j r' hj hr => ?_⟩
  match j, hj with
  | 0, hj => cases hj; exact .inl (h hr)
  | 1, hj => cases hj; exact .inr ⟨rfl, Nat.le_refl 1⟩

/-- AckReadAcknowledgesBestPending, both clauses; AckThenEoiRemovesThatRecord. -/
theorem test_witness_ack :
    IsBest IntRecord.pending ((atQueue [⟨0x74, 9, false⟩, ⟨0x14, 1, false⟩]).iic.block 0).q 1 ⟨0x14, 1, false⟩ ∧
      (∀ m ∈ ((atQueue [⟨0x74, 9, false⟩, ⟨0x14, 1, false⟩]).iic.block 0).q, m.ack = false) ∧
      (∀ r ∈ ((atQueue [⟨0x74, 9, true⟩]).iic.block 0).q, r.ack = true) ∧
      pieceFits 8 (0 : Fin 8).val 8 = true :=
  ⟨best_of_two _ _ _ rfl fun _ => by decide, by decide, by decide, by decide⟩

/-- EoiWriteRemovesBestAcked, EoiSetWriteAlsoSetsTaskPriority: both clauses, a pending record of less
priority value among the queue of the first. -/
theorem test_witness_eoi :
    IsBest IntRecord.ack ((atQueue [⟨0x14, 1, false⟩, ⟨0x74, 9, true⟩]).iic.block 0).q 1 ⟨0x74, 9, true⟩ ∧
      (∀ r ∈ ((atQueue [⟨0x14, 1, false⟩]).iic.block 0).q, r.ack = false) ∧
      pieceFits 8 (7 : Fin 8).val [(0 : Byte)].length = true :=
  ⟨best_of_two _ _ _ rfl (fun h => nomatch h), by decide, by decide⟩

/-- ReadInterruptReturnsRegisters: the last lane of block 5's INT_MCACK, the first unnamed byte after it,
the first byte beyond the space, and a read that begins where block 0's ACK ends. -/
theorem test_witness_readInterrupt :
    (7 < 8 ∧ IicReg.mcack ≠ .ack ∧ 0 < 1 ∧ 0x5077 + 0 = 0x1000 * (5 : Fin 6).val + IicReg.mcack.offset + 7) ∧
      (∀ r : IicReg, (0x5078 + 0) % 0x1000 < r.offset ∨ r.offset + 8 ≤ (0x5078 + 0) % 0x1000) ∧
      0x6000 ≤ 0x6000 + 0 ∧
      ∀ x, 0x58 ≤ x → x < 0x58 + 8 →
        x < 0x1000 * (0 : Fin 6).val + 0x50 ∨ 0x1000 * (0 : Fin 6).val + 0x58 ≤ x :=
  ⟨by decide, fun r => by cases r <;> decide, by decide, fun x h _ => .inr h⟩

/-- WriteInterruptLaysBytesOverRegisters: CURRENT_TSK_PRI under a write that ends where
EOI_SET_CPU_CURRENT_TSK_PRI begins, and a write that ends where EOI begins. -/
theorem test_witness_writeInterrupt :
    (0 < 8 ∧ (IicReg.currentTskPri = .currentTskPri → ∀ x, 0x60 ≤ x → x < 0x60 + (List.replicate 8 (0 : Byte)).length →
      x < 0x1000 * (0 : Fin 6).val + 0x68 ∨ 0x1000 * (0 : Fin 6).val + 0x70 ≤ x)) ∧
    ∀ x, 0x58 ≤ x → x < 0x58 + (List.replicate 8 (0 : Byte)).length →
      x < 0x1000 * (0 : Fin 6).val + 0x60 ∨ 0x1000 * (0 : Fin 6).val + 0x70 ≤ x :=
  ⟨⟨by decide, fun _ _ _ h => .inl h⟩, fun _ _ h => .inl h⟩

/-- RegisterOperationsStayInTheirBlock: two states that agree on block 1 and differ on block 0. -/
theorem test_witness_blocks :
    busy.iic.block 1 = State.reset.iic.block 1 ∧ busy.iic.block 0 ≠ State.reset.iic.block 0 ∧
      (0 : Fin 6) ≠ 1 ∧
      Instr.iicRead .ack 1 0 8 ∈ [Instr.iicRead .ack 1 0 8, Instr.iicWrite .ack 1 0 [1]] := by
  refine ⟨by decide, fun h => ?_, by decide, by decide⟩
  exact Bool.noConfusion (congrArg Block.sig h)

/-- CancelInterruptRemovesEarliestPending: a core not selected; the earliest pending record of a type behind
an acknowledged one; a queue with none. -/
theorem test_witness_cancel :
    (0x02 : Nat).testBit (0 : Fin 6).val = false ∧ (0x21 : Nat).testBit (5 : Fin 6).val = true ∧
      IsFirstPending 0x40 ((atQueue [⟨0x40, 5, true⟩, ⟨0x40, 5, false⟩]).iic.block 0).q 1 ∧
      ∀ r ∈ ((atQueue [⟨0x40, 5, true⟩, ⟨0x58, 5, false⟩]).iic.block 0).q, r.type = 0x40 → r.ack = true := by
  refine ⟨by decide, by decide, ⟨⟨⟨0x40, 5, false⟩, rfl, rfl, rfl⟩, fun j hj r hr _ => ?_⟩, by decide⟩
  obtain rfl : j = 0 := by omega
  cases hr
  rfl

end Sys2Proof.Tests
end

/-! PROOFS of the state's family (spec/10_state.md): the decoder answers well-formed instructions, each
operation of a device keeps the device's invariant, every step keeps the machine's, and what resets leave. -/

namespace Sys2Proof

/-! ### The decoder answers well-formed instructions (R106, R113) -/

/-- Whatever instruction a decoder's answer holds is well formed. -/
def Decoded.AllWellFormed (d : Decoded) : Prop := ∀ i, d = .ok i → i.WellFormed

theorem Decoded.allWellFormed_error (e : DecodeError) : Decoded.AllWellFormed (.error e) :=
  fun _ h => nomatch h

theorem Decoded.allWellFormed_ok {i : Instr} (h : i.WellFormed) : Decoded.AllWellFormed (.ok i) :=
  fun _ hi => Except.ok.inj hi ▸ h

theorem Decoded.allWellFormed_ite {c : Prop} [Decidable c] {i : Instr} {e : DecodeError}
    (h : c → i.WellFormed) : Decoded.AllWellFormed (if c then .ok i else .error e) := by
  split
  · next hc => exact allWellFormed_ok (h hc)
  · exact allWellFormed_error e

theorem takeNat_allWellFormed {bs : List Byte} {go : Nat → List Byte → Decoded}
    (h : ∀ n r, (go n r).AllWellFormed) : (takeNat bs go).AllWellFormed := by
  unfold takeNat
  split
  · exact Decoded.allWellFormed_error _
  · exact h _ _

theorem atEnd_allWellFormed {i : Instr} (h : i.WellFormed) (r : List Byte) :
    (atEnd i r).AllWellFormed := by
  cases r with
  | nil => exact Decoded.allWellFormed_ok h
  | cons _ _ => exact Decoded.allWellFormed_error _

theorem takeBuf_allWellFormed {mk : List Byte → Instr} (h : ∀ buf, (mk buf).WellFormed) (len : Nat)
    (buf : List Byte) : (takeBuf len buf mk).AllWellFormed :=
  Decoded.allWellFormed_ite fun _ => h buf

theorem takeRequest_allWellFormed {mk : Byte → Nat → Instr} (h : ∀ type mask, (mk type mask).WellFormed)
    (ops : List Byte) : (takeRequest ops mk).AllWellFormed := by
  cases ops with
  | nil => exact Decoded.allWellFormed_error _
  | cons type _ => exact takeNat_allWellFormed fun mask r => atEnd_allWellFormed (h type mask) r

theorem decodeSmcPort_allWellFormed (ops : List Byte) : (decodeSmcPort ops).AllWellFormed := by
  unfold decodeSmcPort
  split
  · exact Decoded.allWellFormed_error _
  · split
    · exact takeNat_allWellFormed fun _ _ => takeNat_allWellFormed fun _ r => atEnd_allWellFormed rfl r
    · exact takeNat_allWellFormed fun _ _ => takeNat_allWellFormed fun n r =>
        takeBuf_allWellFormed (fun _ => rfl) n r
    · exact takeNat_allWellFormed fun _ _ => takeNat_allWellFormed fun _ _ =>
        takeNat_allWellFormed fun _ r => atEnd_allWellFormed rfl r
    · exact takeNat_allWellFormed fun _ _ => takeNat_allWellFormed fun _ r => atEnd_allWellFormed rfl r
    · exact takeNat_allWellFormed fun _ _ => takeNat_allWellFormed fun n r =>
        takeBuf_allWellFormed (fun _ => rfl) n r
    · exact Decoded.allWellFormed_error _

theorem decodeIicPort_allWellFormed (ops : List Byte) : (decodeIicPort ops).AllWellFormed := by
  unfold decodeIicPort
  split
  · exact Decoded.allWellFormed_error _
  · split
    · exact takeNat_allWellFormed fun _ _ => takeNat_allWellFormed fun _ r => atEnd_allWellFormed rfl r
    · exact takeNat_allWellFormed fun _ _ => takeNat_allWellFormed fun n r =>
        takeBuf_allWellFormed (fun _ => rfl) n r
    · exact Decoded.allWellFormed_error _

theorem decodeIicReq_allWellFormed (ops : List Byte) : (decodeIicReq ops).AllWellFormed := by
  unfold decodeIicReq
  split
  · exact Decoded.allWellFormed_error _
  · split
    · exact takeRequest_allWellFormed (fun _ _ => rfl) _
    · exact takeRequest_allWellFormed (fun _ _ => rfl) _
    · exact takeNat_allWellFormed fun _ r => atEnd_allWellFormed rfl r
    · exact Decoded.allWellFormed_error _

/-! The piece of a named register is well formed when it fits in its slot. -/

@[simp] theorem Instr.smcRead_wf (r : SmcReg) (l : Fin 4) (n : Nat) :
    (Instr.smcRead r l n).wf = pieceFits 4 l.val n := by
  cases r <;> rfl

@[simp] theorem Instr.smcWrite_wf (r : SmcReg) (l : Fin 4) (d : List Byte) :
    (Instr.smcWrite r l d).wf = pieceFits 4 l.val d.length := by
  cases r <;> rfl

@[simp] theorem Instr.iicRead_wf (r : IicReg) (c : Fin 6) (l : Fin 8) (n : Nat) :
    (Instr.iicRead r c l n).wf = pieceFits 8 l.val n := by
  cases r <;> rfl

@[simp] theorem Instr.iicWrite_wf (r : IicReg) (c : Fin 6) (l : Fin 8) (d : List Byte) :
    (Instr.iicWrite r c l d).wf = pieceFits 8 l.val d.length := by
  cases r <;> rfl

@[simp] theorem Instr.command_wf (c : Cmd) (args : Args) : (Instr.command c args).wf = true := by
  cases c <;> rfl

theorem smcReadAt_wellFormed {off : Byte} {n : Nat} (h : pieceFits 4 (smcLane off).val n = true) :
    (smcReadAt off n).WellFormed := by
  unfold smcReadAt
  split
  · simpa [Instr.WellFormed] using h
  · next hs => simp [Instr.WellFormed, Instr.wf, smcSlotUnnamed, hs, h]

theorem smcWriteAt_wellFormed {off : Byte} {d : List Byte}
    (h : pieceFits 4 (smcLane off).val d.length = true) : (smcWriteAt off d).WellFormed := by
  unfold smcWriteAt
  split
  · simpa [Instr.WellFormed] using h
  · next hs => simp [Instr.WellFormed, Instr.wf, smcSlotUnnamed, hs, h]

theorem iicReadAt_wellFormed {a n : Nat} (h : pieceFits 8 (iicLane a).val n = true) :
    (iicReadAt a n).WellFormed := by
  unfold iicReadAt
  split
  · simpa [Instr.WellFormed] using h
  · next hs => simp [Instr.WellFormed, Instr.wf, iicSlotUnnamed, hs, h]

theorem iicWriteAt_wellFormed {a : Nat} {d : List Byte}
    (h : pieceFits 8 (iicLane a).val d.length = true) : (iicWriteAt a d).WellFormed := by
  unfold iicWriteAt
  split
  · simpa [Instr.WellFormed] using h
  · next hs => simp [Instr.WellFormed, Instr.wf, iicSlotUnnamed, hs, h]

theorem decodeSmcSlotRead_allWellFormed (ops : List Byte) : (decodeSmcSlotRead ops).AllWellFormed := by
  unfold decodeSmcSlotRead
  split
  · exact Decoded.allWellFormed_ite smcReadAt_wellFormed
  · exact Decoded.allWellFormed_error _
  · exact Decoded.allWellFormed_error _

theorem decodeSmcSlotWrite_allWellFormed (ops : List Byte) : (decodeSmcSlotWrite ops).AllWellFormed := by
  unfold decodeSmcSlotWrite
  split
  · exact Decoded.allWellFormed_ite smcWriteAt_wellFormed
  · exact Decoded.allWellFormed_error _

theorem decodeIicSlotRead_allWellFormed (ops : List Byte) : (decodeIicSlotRead ops).AllWellFormed := by
  unfold decodeIicSlotRead
  split
  · split
    · exact Decoded.allWellFormed_ite iicReadAt_wellFormed
    · exact Decoded.allWellFormed_error _
  · exact Decoded.allWellFormed_error _
  · exact Decoded.allWellFormed_error _

theorem decodeIicSlotWrite_allWellFormed (ops : List Byte) : (decodeIicSlotWrite ops).AllWellFormed := by
  unfold decodeIicSlotWrite
  split
  · split
    · exact Decoded.allWellFormed_ite iicWriteAt_wellFormed
    · exact Decoded.allWellFormed_error _
  · exact Decoded.allWellFormed_error _

theorem frameInstr_wellFormed (code : Byte) (args : Args) : (frameInstr code args).WellFormed := by
  unfold frameInstr
  split
  · exact Instr.command_wf _ args
  · next h => simp [Instr.WellFormed, Instr.wf, h]

theorem decodeFrame_allWellFormed (ops : List Byte) : (decodeFrame ops).AllWellFormed := by
  unfold decodeFrame
  split
  · exact Decoded.allWellFormed_error _
  · split
    · exact Decoded.allWellFormed_ok (frameInstr_wellFormed _ _)
    · split
      · exact Decoded.allWellFormed_error _
      · exact Decoded.allWellFormed_error _

theorem decodeAgentStep_allWellFormed (ops : List Byte) : (decodeAgentStep ops).AllWellFormed := by
  unfold decodeAgentStep
  split
  · exact Decoded.allWellFormed_error _
  · split
    · exact atEnd_allWellFormed rfl _
    · split
      · exact atEnd_allWellFormed rfl _
      · split
        · exact atEnd_allWellFormed rfl _
        · exact Decoded.allWellFormed_error _

theorem decodeUartrx_allWellFormed (ops : List Byte) : (decodeUartrx ops).AllWellFormed := by
  unfold decodeUartrx
  split
  · exact atEnd_allWellFormed rfl _
  · exact Decoded.allWellFormed_error _

theorem decodeBody_allWellFormed (f : Format) (ops : List Byte) : (decodeBody f ops).AllWellFormed := by
  cases f with
  | smcPort => exact decodeSmcPort_allWellFormed ops
  | iicPort => exact decodeIicPort_allWellFormed ops
  | iicReq => exact decodeIicReq_allWellFormed ops
  | smcSlotRead => exact decodeSmcSlotRead_allWellFormed ops
  | smcSlotWrite => exact decodeSmcSlotWrite_allWellFormed ops
  | iicSlotRead => exact decodeIicSlotRead_allWellFormed ops
  | iicSlotWrite => exact decodeIicSlotWrite_allWellFormed ops
  | fifoFrame => exact decodeFrame_allWellFormed ops
  | agentStep => exact decodeAgentStep_allWellFormed ops
  | agentUartrx => exact decodeUartrx_allWellFormed ops

/-- Every instruction the decoder answers is in the ranges of its row (R106, R113). -/
theorem wellFormed_of_decode {bytes : List Byte} {i : Instr} (h : decode bytes = .ok i) : i.WellFormed := by
  unfold decode at h
  split at h
  · cases h
  · split at h
    · exact decodeBody_allWellFormed _ _ i h
    · cases h

theorem pieceFits_iff (w l n : Nat) : pieceFits w l n = true ↔ 1 ≤ n ∧ l + n ≤ w := by
  simp [pieceFits]

end Sys2Proof

namespace Sys2Proof.Machine

/-! ### The SMC's invariant (R41, R67) -/

theorem Smc.wslot_congr {s t : Smc} (h : t.win = s.win) (base : Nat) : t.wslot base = s.wslot base := by
  simp only [Smc.wslot, h]

/-- Bytes stored outside a slot leave its word. -/
theorem Smc.wslot_store_of_disjoint (s : Smc) (a base : Nat) (d : List Byte)
    (h : a + d.length ≤ base ∨ base + 4 ≤ a) : (s.store a d).wslot base = s.wslot base := by
  refine word_ext _ _ fun j hj => ?_
  rw [Smc.lane_wslot _ _ _ hj, Smc.lane_wslot _ _ _ hj, Smc.store_win, Mem.read_writeBytes,
    if_neg (by omega)]

/-- The invariant is kept where the cursor stays in the frame, responses are only appended, and the read
position, the UART configuration word and both storages stay. -/
theorem Smc.Inv.of_append {s t : Smc} (h : s.Inv) (hcur : t.cur ≤ 15) (hocur : t.ocur = s.ocur)
    (hq : ∃ ps, t.respq = s.respq ++ ps) (hu : t.uartcfg = s.uartcfg) (hw : t.win = s.win)
    (hc : t.cfg = s.cfg) : t.Inv where
  cur := hcur
  ocur := hocur ▸ h.ocur
  drained ht := by
    obtain ⟨ps, hps⟩ := hq
    rw [hocur, h.drained (List.append_eq_nil_iff.mp (hps.symm.trans ht)).1]
  uartcfg := by rw [hu, Smc.wslot_congr hw, h.uartcfg]
  win := hw ▸ h.win
  cfg := hc ▸ h.cfg

/-- Bytes stored in the window, outside UART_CONFIG's slot. -/
theorem Smc.Inv.store {s : Smc} (h : s.Inv) {a : Nat} {d : List Byte} (hsize : a + d.length ≤ Params.smcSize)
    (hout : a + d.length ≤ SmcReg.uartConfig.offset ∨ SmcReg.uartConfig.offset + 4 ≤ a) :
    (s.store a d).Inv where
  cur := h.cur
  ocur := h.ocur
  drained := h.drained
  uartcfg := by rw [Smc.wslot_store_of_disjoint s _ _ _ hout, Smc.store_uartcfg, h.uartcfg]
  win := Mem.wf_writeBytes _ _ _ _ h.win hsize
  cfg := h.cfg

/-- The effect of a write of any register but UART_CONFIG. -/
theorem Smc.Inv.effect {s : Smc} (h : s.Inv) {r : SmcReg} (hr : r ≠ .uartConfig) (w : Word)
    (d : List Byte) : (s.effect r w d).Inv :=
  h.of_append (s.effect_cur_le r w d h.cur) (s.effect_ocur r w d) (s.effect_respq r w d)
    (by rw [Smc.effect_uartcfg, if_neg hr]) (s.effect_win r w d) (s.effect_cfg r w d)

/-- Two different named slots have no byte in common (R24). -/
theorem SmcReg.offset_disjoint {r r' : SmcReg} (h : r ≠ r') :
    r.offset + 4 ≤ r'.offset ∨ r'.offset + 4 ≤ r.offset := by
  have hne : r.offset ≠ r'.offset := fun he => h <| Option.some.inj <| by
    rw [← SmcReg.ofOffset_offset r, he, SmcReg.ofOffset_offset]
  have := r.offset_range
  have := r'.offset_range
  omega

/-- A write of UART_CONFIG stores the merged word in the window and in `S.uartcfg` alike (R41 (d), R155);
any other named write leaves both. -/
theorem Smc.Inv.writePiece {s : Smc} (h : s.Inv) (r : SmcReg) {l : Nat} {d : List Byte}
    (hfit : l + d.length ≤ 4) : (s.writePiece r.offset (Smc.effect r) l d).Inv := by
  have hrange := r.offset_range
  have hsize : r.offset + l + d.length ≤ Params.smcSize := by
    show _ ≤ 0x100
    omega
  by_cases hr : r = .uartConfig
  · subst hr
    exact ⟨h.cur, h.ocur, h.drained, rfl, Mem.wf_writeBytes _ _ _ _ h.win hsize, h.cfg⟩
  · have hdisj := SmcReg.offset_disjoint hr
    exact (h.store hsize (by omega)).effect hr _ d

/-- A storage write on an unnamed slot: UART_CONFIG's slot is a named one (R137). -/
theorem Smc.Inv.store_unnamed {s : Smc} (h : s.Inv) {base l : Nat} {d : List Byte} (hbase : base % 4 = 0)
    (hnone : SmcReg.ofOffset base = none) (hfit : l + d.length ≤ 4)
    (hsize : base + l + d.length ≤ Params.smcSize) : (s.store (base + l) d).Inv := by
  have hne := (SmcReg.ofOffset_eq_none base).mp hnone .uartConfig
  have hrange := SmcReg.uartConfig.offset_range
  exact h.store hsize (by omega)

theorem Smc.Inv.busWritePiece {s : Smc} (h : s.Inv) {p : Piece} (hp : p.Within 4 Params.smcSize)
    {d : List Byte} (hd : d.length = p.count) : (s.busWritePiece p d).Inv := by
  have hslot := hp.slot
  have hsize := hp.size
  unfold Smc.busWritePiece
  split
  · exact h.writePiece _ (by omega)
  · next hnone => exact h.store_unnamed hp.base hnone (by omega) (by omega)

/-- A Write keeps the invariant (R131, R132). -/
theorem Smc.Inv.busWrite {s : Smc} (h : s.Inv) (addr : Nat) (buf : List Byte) : (s.busWrite addr buf).Inv :=
  Smc.busWrite_induct Smc.Inv addr buf s (fun _ _ _ hp _ _ hd hs => hs.busWritePiece hp hd) h

/-- Taking a word moves the read position on by 4, or to 0 with its response gone (R41 (b), R166). -/
theorem Smc.Inv.takeWord {s : Smc} (h : s.Inv) (dr : Drained) : (s.takeWord dr).2.Inv := by
  have hocur := h.ocur
  rcases s.takeWord_cases dr with ⟨-, e⟩ | ⟨p, rest, -, -, e⟩ | ⟨p, rest, hq, hne, e⟩ <;> rw [e]
  · exact h
  · exact ⟨h.cur, .inl rfl, fun _ => rfl, h.uartcfg, h.win, h.cfg⟩
  · refine ⟨h.cur, ?_, fun hnil => ?_, h.uartcfg, h.win, h.cfg⟩
    · show s.ocur + 4 = 0 ∨ s.ocur + 4 = 4 ∨ s.ocur + 4 = 8 ∨ s.ocur + 4 = 12
      omega
    · exact absurd (hq.symm.trans hnil) (List.cons_ne_nil p rest)

theorem Smc.Inv.rule {s : Smc} (h : s.Inv) (r : SmcReg) : (s.rule r).2.Inv := by
  by_cases hr : r = .fifoOutMsg
  · subst hr
    exact h.takeWord _
  · rw [Smc.rule_state r s hr]
    exact h

theorem Smc.Inv.busReadPiece {s : Smc} (h : s.Inv) (p : Piece) : (s.busReadPiece p).2.Inv := by
  unfold Smc.busReadPiece
  split
  · exact h.rule _
  · exact h

/-- A Read keeps the invariant (R131, R133). -/
theorem Smc.Inv.busRead {s : Smc} (h : s.Inv) (addr len : Nat) : (s.busRead addr len).2.Inv :=
  Smc.busRead_induct Smc.Inv addr len s (fun p _ _ _ _ hs => hs.busReadPiece p) h

theorem Smc.Inv.runCommand {s : Smc} (h : s.Inv) (c : Cmd) (f : Frame) : (s.runCommand c f).Inv := by
  obtain ⟨ps, hps, -⟩ := Smc.runCommand_respq c f s
  exact h.of_append (by rw [Smc.runCommand_cur]; exact h.cur) (Smc.runCommand_ocur c f s) ⟨ps, hps⟩
    (Smc.runCommand_uartcfg c f s) (Smc.runCommand_win c f s) (Smc.runCommand_cfg c f s)

theorem Smc.Inv.trayStep {s : Smc} (h : s.Inv) (a b : Tray) : (s.trayStep a b).Inv := by
  unfold Smc.trayStep
  split
  · exact ⟨h.cur, h.ocur, h.drained, h.uartcfg, h.win, h.cfg⟩
  · exact h

/-- The receive bridge stores below UART_CONFIG's slot (R24, R246). -/
theorem Smc.Inv.uartReceive {s : Smc} (h : s.Inv) (d st : Word) : (s.uartReceive d st).Inv :=
  (h.store (by decide : 0x10 + 4 ≤ 0x100) (.inl (by decide : 0x10 + 4 ≤ 0x1C))).store
    (by decide : 0x18 + 4 ≤ 0x100) (.inl (by decide : 0x18 + 4 ≤ 0x1C))

theorem Smc.Inv.configWrite {s : Smc} (h : s.Inv) (addr : Nat) (buf : List Byte) :
    (s.configWrite addr buf).Inv := by
  refine ⟨h.cur, h.ocur, h.drained, h.uartcfg, h.win, ?_⟩
  show Mem.wf _ (Mem.writeBytes s.cfg addr (buf.take (clamp addr buf.length Params.cfgSize))) = true
  rcases Nat.eq_zero_or_pos (clamp addr buf.length Params.cfgSize) with h0 | hpos
  · rw [h0, List.take_zero]
    exact h.cfg
  · have hfits := clamp_fits _ _ _ hpos
    exact Mem.wf_writeBytes _ _ _ _ h.cfg (by rw [List.length_take]; omega)

/-- An SMC reset makes the invariant hold, whatever the state before (R66). -/
theorem Smc.inv_resetWith (inp : SmcInputs) (old : Smc) : (Smc.resetWith inp old).Inv where
  cur := Nat.zero_le 15
  ocur := .inl rfl
  drained _ := rfl
  uartcfg := rfl
  win := Mem.wf_ofImage _ _
  cfg := Mem.wf_ofImage _ _

/-- Every well-formed operation on the SMC keeps its invariant. A piece that does not fit its slot could run
into UART_CONFIG's, or past the window. -/
theorem SmcDoes.keeps_inv {i : Instr} {f : Smc → Smc} {g : Smc → Result} (hd : SmcDoes i f g)
    (hi : i.WellFormed) {s : Smc} (h : s.Inv) : (f s).Inv := by
  cases hd with
  | read addr len => exact h.busRead addr len
  | write addr buf => exact h.busWrite addr buf
  | memSet addr value len => exact h.busWrite addr _
  | configRead addr len => exact h
  | configWrite addr buf => exact h.configWrite addr buf
  | pieceRead r l count => exact h.rule r
  | pieceWrite r l data =>
    rw [Instr.WellFormed, Instr.smcWrite_wf, pieceFits_iff] at hi
    exact h.writePiece r hi.2
  | storageRead slot l count => exact h
  | storageWrite slot l data =>
    obtain ⟨hslot, hfit⟩ := Bool.and_eq_true_iff.mp hi
    obtain ⟨-, hfit⟩ := (pieceFits_iff _ _ _).mp hfit
    refine h.store_unnamed (Nat.mul_mod_right 4 _) (Option.isNone_iff_eq_none.mp hslot) hfit ?_
    show _ ≤ 0x100
    omega
  | command c args => exact h.runCommand c _
  | unknown code args => exact h
  | trayOpenRequest => exact h.trayStep _ _
  | trayOpening => exact h.trayStep _ _
  | trayClosing => exact h.trayStep _ _
  | uartRx d st => exact h.uartReceive d st

/-! ### The IIC's invariant (R55, R304) -/

/-- A shortened queue: the signal flag is cleared exactly where nothing is left (R273, R302). -/
theorem Block.Inv.withQueue {b : Block} (h : b.Inv) {q : List IntRecord} (hq : q ⊆ b.q) :
    (b.withQueue q).Inv where
  sig := by
    cases q with
    | nil => rfl
    | cons r q =>
      have hb : b.q.isEmpty = false := List.isEmpty_eq_false_iff_exists_mem.mpr ⟨r, hq List.mem_cons_self⟩
      rw [Block.withQueue_sig, Block.withQueue_q, h.sig, hb]
      rfl
  prio r hr := h.prio r (hq hr)

theorem Block.Inv.set {b : Block} (h : b.Inv) (r : IicReg) (v : DWord) : (b.set r v).Inv := ⟨h.sig, h.prio⟩

/-- An acknowledge marks a record of the queue and keeps its type and priority (R270). -/
theorem Block.Inv.acknowledge {b : Block} (h : b.Inv) (r : IicReg) : (acknowledge r b).2.Inv := by
  rcases acknowledge_cases r b with ⟨j, m, hbest, e⟩ | ⟨-, e⟩ <;> rw [e]
  · refine ⟨?_, fun x hx => ?_⟩
    · show b.sig = !(b.q.set j _).isEmpty
      rw [h.sig, Bool.eq_iff_iff]
      simp
    · rcases List.mem_or_eq_of_mem_set hx with hx | rfl
      · exact h.prio x hx
      · exact h.prio m (List.mem_of_getElem? hbest.1)
  · exact h.set r _

theorem Block.Inv.endOfInterrupt {b : Block} (h : b.Inv) : (endOfInterrupt b).Inv := by
  rcases endOfInterrupt_cases b with ⟨j, m, -, e⟩ | ⟨-, e⟩ <;> rw [e]
  · exact h.withQueue (List.eraseIdx_subset ..)
  · exact h

theorem Block.Inv.rule {b : Block} (h : b.Inv) (r : IicReg) : (b.rule r).2.Inv := by
  by_cases hr : r = .ack
  · subst hr
    exact h.acknowledge .ack
  · rw [Block.rule_shadow r b hr]
    exact h

theorem Block.Inv.effect {b : Block} (h : b.Inv) (r : IicReg) (v : DWord) : (b.effect r v).Inv := by
  by_cases h1 : r = .eoi
  · subst h1
    exact h.endOfInterrupt
  · by_cases h2 : r = .eoiSetPri
    · subst h2
      exact h.endOfInterrupt.set _ v
    · rw [Block.effect_shadow r v b h1 h2]
      exact h

theorem Iic.Inv.readPiece {i : Iic} (h : i.Inv) (r : IicReg) (c : Fin 6) (l n : Nat) :
    (i.readPiece (Block.rule r) c l n).2.Inv := by
  intro c'
  rw [Iic.readPiece_block]
  split
  · exact (h c).rule r
  · exact h c'

theorem Iic.Inv.writePiece {i : Iic} (h : i.Inv) (r : IicReg) (c : Fin 6) (l : Nat) (d : List Byte) :
    (i.writePiece r (Block.effect r) c l d).Inv := by
  intro c'
  rw [Iic.writePiece_block]
  split
  · exact ((h c).set r _).effect r _
  · exact h c'

theorem Iic.Inv.busReadPiece {i : Iic} (h : i.Inv) (p : Piece) : (i.busReadPiece p).2.Inv := by
  unfold Iic.busReadPiece
  split
  · exact h.readPiece _ _ _ _
  · exact h

theorem Iic.Inv.busWritePiece {i : Iic} (h : i.Inv) (p : Piece) (d : List Byte) :
    (i.busWritePiece p d).Inv := by
  unfold Iic.busWritePiece
  split
  · exact h.writePiece _ _ _ _
  · exact h

/-- A genInterrupt raises the flag of a core whose queue it makes non-empty, with PRIO of the type (R300). -/
theorem Iic.Inv.gen {i : Iic} (h : i.Inv) (type : Byte) (mask : Nat) : (Iic.gen type mask i).Inv := by
  intro c
  rw [Iic.gen_block]
  split
  · refine ⟨by simp, fun r hr => ?_⟩
    rcases List.mem_append.mp hr with hr | hr
    · exact (h c).prio r hr
    · obtain rfl := List.mem_singleton.mp hr
      rfl
  · exact h c

theorem Iic.Inv.cancel {i : Iic} (h : i.Inv) (type : Byte) (mask : Nat) : (Iic.cancel type mask i).Inv := by
  intro c
  rw [Iic.cancel_block, Iic.withdraw_block]
  split
  · split
    · exact (h c).withQueue (List.eraseIdx_subset ..)
    · exact h c
  · exact h c

/-- Every operation on the IIC keeps its invariant. -/
theorem IicDoes.keeps_inv {x : Instr} {f : Iic → Iic} {g : Iic → Result} (hd : IicDoes x f g) {i : Iic}
    (h : i.Inv) : (f i).Inv := by
  cases hd with
  | read addr len => exact Iic.busRead_induct Iic.Inv addr len i (fun p _ _ _ _ hi => hi.busReadPiece p) h
  | write addr data =>
    exact Iic.busWrite_induct Iic.Inv addr data i (fun p d _ _ _ _ _ hi => hi.busWritePiece p d) h
  | gen type mask => exact h.gen type mask
  | cancel type mask => exact h.cancel type mask
  | check core => exact h
  | pieceRead r c l count => exact h.readPiece r c _ _
  | pieceWrite r c l data => exact h.writePiece r c _ _
  | unnamedRead c slot l count => exact h
  | unnamedWrite c slot l data => exact h

/-- Each block of a reset IIC is a reset block. -/
theorem Iic.resetWith_block (whoami : Vector DWord 6) (c : Fin 6) :
    (Iic.resetWith whoami).block c = Block.reset whoami[c] := by
  fin_cases c <;> rfl

/-- An IIC reset makes the invariant hold (R66). -/
theorem Iic.inv_resetWith (whoami : Vector DWord 6) : (Iic.resetWith whoami).Inv := by
  intro c
  rw [Iic.resetWith_block]
  exact ⟨rfl, fun _ hr => nomatch hr⟩

/-! ### The obligations -/

/-- Settles O10: a step's operation is well formed because the decoder answers no other, and changes one
device, whose invariant it keeps; a reset event makes its device's invariant hold. -/
theorem stepKeepsWellFormed : Obligations.StepKeepsWellFormed := by
  intro s t hs hstep
  rcases step_cases hstep with ⟨-, rfl⟩ | ⟨bytes, rest, i, -, hdec, hexec⟩ | ⟨inp, rest, -, rfl⟩ |
    ⟨whoami, rest, -, rfl⟩
  · exact hs
  · rcases exec_cases hexec with ⟨f, g, hd, rfl⟩ | ⟨f, g, hd, rfl⟩
    · exact ⟨hd.keeps_inv (wellFormed_of_decode hdec) hs.smc, hs.iic⟩
    · exact ⟨hs.smc, hd.keeps_inv hs.iic⟩
  · exact ⟨Smc.inv_resetWith inp _, hs.iic⟩
  · exact ⟨hs.smc, Iic.inv_resetWith whoami⟩

/-- Settles O12: the two storages are images, and `S.uartcfg` is UART_CONFIG's slot of the window's. -/
theorem smcResetValues : Obligations.SmcResetValues := by
  rintro inp old d rfl
  have hwin : ∀ x, Mem.read (Smc.resetWith inp old).win x = if x < 0x100 then inp.win.getD x 0 else 0 :=
    Mem.read_ofImage _ inp.win
  refine ⟨hwin, Mem.read_ofImage _ inp.cfg, fun _ hj => List.getD_replicate (0 : Byte) hj, rfl, rfl, rfl,
    rfl, rfl, rfl, rfl, rfl, fun j hj => ?_⟩
  rw [(Smc.inv_resetWith inp old).uartcfg, Smc.lane_wslot _ _ _ hj, hwin]
  exact if_pos (by show 0x1C + j < 0x100; omega)

/-- No operation on the SMC changes the power-on reason or the AV-pack type: none of the pieces, commands and
agents' steps does (R40, R222). -/
theorem SmcDoes.keeps_pwr_avpack {i : Instr} {f : Smc → Smc} {g : Smc → Result} (hd : SmcDoes i f g)
    (s : Smc) : (f s).pwr = s.pwr ∧ (f s).avpack = s.avpack := by
  have hstep : ∀ a b : Tray, (s.trayStep a b).pwr = s.pwr ∧ (s.trayStep a b).avpack = s.avpack := by
    intro a b
    unfold Smc.trayStep
    split
    · exact ⟨rfl, rfl⟩
    · exact ⟨rfl, rfl⟩
  cases hd with
  | read addr len => exact ⟨s.busRead_pwr addr len, s.busRead_avpack addr len⟩
  | write addr buf => exact ⟨s.busWrite_pwr addr buf, s.busWrite_avpack addr buf⟩
  | memSet addr value len => exact ⟨s.busWrite_pwr addr _, s.busWrite_avpack addr _⟩
  | pieceRead r l count => exact ⟨s.rule_pwr r, s.rule_avpack r⟩
  | pieceWrite r l data => exact ⟨Smc.effect_pwr r _ data _, Smc.effect_avpack r _ data _⟩
  | command c args => exact ⟨Smc.runCommand_pwr c _ s, Smc.runCommand_avpack c _ s⟩
  | trayOpenRequest => exact hstep _ _
  | trayOpening => exact hstep _ _
  | trayClosing => exact hstep _ _
  | configRead | configWrite | storageRead | storageWrite | unknown | uartRx => exact ⟨rfl, rfl⟩

/-- Settles O16: an operation on the SMC keeps both bytes, one on the IIC does not touch the SMC. -/
theorem powerReasonAndAvpackConstant : Obligations.PowerReasonAndAvpackConstant := by
  intro i s t h
  rcases exec_cases h with ⟨f, g, hd, rfl⟩ | ⟨f, g, -, rfl⟩
  · exact hd.keeps_pwr_avpack s.smc
  · exact ⟨rfl, rfl⟩

theorem Block.get_reset (v : DWord) (r : IicReg) :
    (Block.reset v).get r = if r = .whoami then v else 0 := by
  cases r <;> rfl

/-- Settles O13: every block is a reset block, whose empty queue holds no pending record. -/
theorem iicResetValues : Obligations.IicResetValues := by
  intro whoami c
  rw [Iic.resetWith_block]
  refine ⟨rfl, fun r hr => by rw [Block.get_reset, if_neg hr], rfl, rfl, rfl, fun core => ?_⟩
  unfold Iic.check
  split
  · rw [Iic.resetWith_block]
    rfl
  · rfl

/-- Settles O14: field by field; the empty images list no byte, so `S.uartcfg` is the word of four zeros. -/
theorem resetStateIsResetOfBoth : Obligations.ResetStateIsResetOfBoth := by
  intro old hdraws
  have hsmc : State.reset.smc = Smc.resetWith ⟨[], [], 0x11, 0x1F⟩ old := by
    rw [Smc.resetWith, hdraws]
    rfl
  have hiic : State.reset.iic = Iic.resetWith (Vector.replicate 6 0) := rfl
  rw [← hsmc, ← hiic]
  rfl

/-- Settles O11: the reset state is a reset of both devices, and a reset makes each one's invariant hold. -/
theorem resetStateWellFormed : Obligations.ResetStateWellFormed := by
  rw [Obligations.ResetStateWellFormed, resetStateIsResetOfBoth State.reset.smc rfl]
  exact ⟨Smc.inv_resetWith _ _, Iic.inv_resetWith _⟩

end Sys2Proof.Machine

/-! PROOFS of the memory's family (spec/20_memory.md): a step runs the operation it takes, an operation acts on
one device, and serialised genInterrupt calls lose and duplicate nothing. -/

namespace Sys2Proof.Machine

/-- The formats of the operations that act on the IIC: its ports and its pieces. -/
def iicFormats : List Format := [.iicPort, .iicReq, .iicSlotRead, .iicSlotWrite]

/-- An operation on the SMC has none of the IIC's formats. -/
theorem SmcDoes.format_notMem {i : Instr} {f : Smc → Smc} {g : Smc → Result} (hd : SmcDoes i f g) :
    i.format ∉ iicFormats := by
  refine of_decide_eq_false ?_
  cases hd with
  | pieceRead r | pieceWrite r | command r => cases r <;> rfl
  | _ => rfl

/-- An operation on the IIC has one of the IIC's formats. -/
theorem IicDoes.format_mem {i : Instr} {f : Iic → Iic} {g : Iic → Result} (hd : IicDoes i f g) :
    i.format ∈ iicFormats := by
  refine of_decide_eq_true ?_
  cases hd with
  | pieceRead r | pieceWrite r => cases r <;> rfl
  | _ => rfl

/-- Settles O17: an operation changes the one device it acts on, and its format says which that is. -/
theorem devicesDoNotTouchEachOther : Obligations.DevicesDoNotTouchEachOther := by
  intro i s t h
  rcases exec_cases h with ⟨f, g, hd, rfl⟩ | ⟨f, g, hd, rfl⟩
  · exact ⟨fun hmem => absurd hmem hd.format_notMem, fun _ => rfl⟩
  · exact ⟨fun _ => rfl, fun hnot => absurd hd.format_mem hnot⟩

/-- What one genInterrupt appends to a core's queue (R300). -/
theorem Iic.gen_q (type : Byte) (mask : Nat) (i : Iic) (c : Fin 6) :
    ((Iic.gen type mask i).block c).q =
      (i.block c).q ++ if mask.testBit c.val then [⟨type, Config.prio type, false⟩] else [] := by
  rw [Iic.gen_block]
  split
  · rfl
  · rw [List.append_nil]

/-- Settles O60, by induction on the calls: the first appends its record where it selects the core, the others
append theirs behind it. -/
theorem genInterruptsLoseNothing : Obligations.GenInterruptsLoseNothing := by
  intro calls i c
  induction calls generalizing i with
  | nil => exact (List.append_nil _).symm
  | cons k calls ih =>
    rw [List.foldl_cons, ih, Iic.gen_q, List.filter_cons]
    split
    · rw [List.map_cons, List.append_assoc, List.singleton_append]
    · rw [List.append_nil]

/-- Settles O7: the step takes the packet off and finds the instruction it decodes to. -/
theorem stepRunsDecodedInstruction : Obligations.StepRunsDecodedInstruction := by
  intro s bytes rest i hin hdec
  have htakes : s.Takes i := ⟨bytes, by rw [State.entry, hin, List.head?_cons], hdec⟩
  rw [step_of_takes htakes, hin]
  rfl

end Sys2Proof.Machine

/-! PROOFS of the encoding's family (spec/30_encoding.md): where an offset, an address and a frame's first byte
lead the decoder, and that it gives back every well-formed instruction. The lemmas about packets speak of the
offset as a number (`off.toNat = r.offset + l.val`), so that the statements about single packets and the round
trip are both read off them. -/

namespace Sys2Proof

/-- The tag of a format leads to that format's operands. -/
theorem decode_tag (f : Format) (ops : List Byte) : decode (f.tag :: ops) = decodeBody f ops := by
  cases f <;> rfl

/-- Data that fit in a slot are not empty (R106). -/
theorem exists_cons_of_pieceFits {w l : Nat} {data : List Byte} (h : pieceFits w l data.length = true) :
    ∃ d ds, data = d :: ds :=
  List.exists_cons_of_length_pos ((pieceFits_iff w l _).mp h).1

/-! ### Pieces of the SMC window (R104, R106) -/

/-- The slot and the lane of a window offset, from the slot's base and the lane (R104). -/
theorem smcSlot_smcLane_of_split {off : Byte} {base : Nat} {l : Fin 4} (hbase : base % 4 = 0)
    (hoff : off.toNat = base + l.val) : 4 * (smcSlot off).val = base ∧ smcLane off = l := by
  have hlt : off.toNat < 256 := off.isLt
  refine ⟨?_, Fin.ext ?_⟩
  · show 4 * (off.toNat / 4 % 64) = base
    omega
  · show off.toNat % 4 = l.val
    omega

/-- At a slot, the offset gives that slot and its lane. -/
theorem smcSlot_smcLane_of_slot {off : Byte} {slot : Fin 64} {l : Fin 4}
    (hoff : off.toNat = 4 * slot.val + l.val) : smcSlot off = slot ∧ smcLane off = l := by
  obtain ⟨hslot, hlane⟩ := smcSlot_smcLane_of_split (Nat.mul_mod_right 4 _) hoff
  exact ⟨Fin.ext (by omega), hlane⟩

/-- A slot's storage is unnamed exactly when no register has its base as offset (R104). -/
theorem smcSlotUnnamed_iff (slot : Fin 64) :
    smcSlotUnnamed slot = true ↔ ∀ r : SmcReg, r.offset ≠ 4 * slot.val := by
  simp only [smcSlotUnnamed, Option.isNone_iff_eq_none, SmcReg.ofOffset_eq_none, ne_comm]

theorem decode_smcSlotRead {off c : Byte} {n : Nat} (hc : c.toNat + 1 = n)
    (hfit : pieceFits 4 (smcLane off).val n = true) :
    decode [Format.smcSlotRead.tag, off, c] = .ok (smcReadAt off n) := by
  subst hc
  exact (decode_tag _ _).trans (if_pos hfit)

theorem decode_smcSlotWrite {off : Byte} {data : List Byte}
    (hfit : pieceFits 4 (smcLane off).val data.length = true) :
    decode (Format.smcSlotWrite.tag :: off :: data) = .ok (smcWriteAt off data) := by
  obtain ⟨d, ds, rfl⟩ := exists_cons_of_pieceFits hfit
  exact (decode_tag _ _).trans (if_pos hfit)

theorem decode_smcRead {off c : Byte} {r : SmcReg} {l : Fin 4} {n : Nat}
    (hoff : off.toNat = r.offset + l.val) (hc : c.toNat + 1 = n) (hfit : pieceFits 4 l.val n = true) :
    decode [Format.smcSlotRead.tag, off, c] = .ok (Instr.smcRead r l n) := by
  obtain ⟨hslot, rfl⟩ := smcSlot_smcLane_of_split r.offset_range.1 hoff
  rw [decode_smcSlotRead hc hfit, smcReadAt, hslot, SmcReg.ofOffset_offset]

theorem decode_smcWrite {off : Byte} {r : SmcReg} {l : Fin 4} {data : List Byte}
    (hoff : off.toNat = r.offset + l.val) (hfit : pieceFits 4 l.val data.length = true) :
    decode (Format.smcSlotWrite.tag :: off :: data) = .ok (Instr.smcWrite r l data) := by
  obtain ⟨hslot, rfl⟩ := smcSlot_smcLane_of_split r.offset_range.1 hoff
  rw [decode_smcSlotWrite hfit, smcWriteAt, hslot, SmcReg.ofOffset_offset]

theorem decode_smcStorageRead {off c : Byte} {slot : Fin 64} {l : Fin 4} {n : Nat}
    (hoff : off.toNat = 4 * slot.val + l.val) (hfree : smcSlotUnnamed slot = true)
    (hc : c.toNat + 1 = n) (hfit : pieceFits 4 l.val n = true) :
    decode [Format.smcSlotRead.tag, off, c] = .ok (.smcStorageRead slot l n) := by
  obtain ⟨rfl, rfl⟩ := smcSlot_smcLane_of_slot hoff
  rw [decode_smcSlotRead hc hfit, smcReadAt, Option.isNone_iff_eq_none.mp hfree]

theorem decode_smcStorageWrite {off : Byte} {slot : Fin 64} {l : Fin 4} {data : List Byte}
    (hoff : off.toNat = 4 * slot.val + l.val) (hfree : smcSlotUnnamed slot = true)
    (hfit : pieceFits 4 l.val data.length = true) :
    decode (Format.smcSlotWrite.tag :: off :: data) = .ok (.smcStorageWrite slot l data) := by
  obtain ⟨rfl, rfl⟩ := smcSlot_smcLane_of_slot hoff
  rw [decode_smcSlotWrite hfit, smcWriteAt, Option.isNone_iff_eq_none.mp hfree]

/-! ### Pieces of an IIC control block (R105, R106) -/

/-- The block, the slot and the lane of an address, from the block, the slot's base and the lane (R105). -/
theorem iicBlock_iicSlot_iicLane_of_split {a base : Nat} {block : Fin 6} {l : Fin 8}
    (hbase : base % 8 = 0 ∧ base + 8 ≤ 0x1000) (ha : a = block.val * Params.iicStride + base + l.val) :
    a < Params.iicSize ∧ iicBlock a = block ∧ 8 * (iicSlot a).val = base ∧ iicLane a = l := by
  obtain ⟨hmod, hsize⟩ := hbase
  have ha : a = block.val * 0x1000 + base + l.val := ha
  refine ⟨?_, Fin.ext ?_, ?_, Fin.ext ?_⟩
  · show a < 6 * 0x1000
    omega
  · show a / 0x1000 % 6 = block.val
    omega
  · show 8 * (a / 8 % 512) = base
    omega
  · show a % 8 = l.val
    omega

/-- At a slot of a block, the address gives that block, that slot and its lane. -/
theorem iicBlock_iicSlot_iicLane_of_slot {a : Nat} {block : Fin 6} {slot : Fin 512} {l : Fin 8}
    (ha : a = block.val * Params.iicStride + 8 * slot.val + l.val) :
    a < Params.iicSize ∧ iicBlock a = block ∧ iicSlot a = slot ∧ iicLane a = l := by
  obtain ⟨hsize, hblock, hslot, hlane⟩ := iicBlock_iicSlot_iicLane_of_split ⟨by omega, by omega⟩ ha
  exact ⟨hsize, hblock, Fin.ext (by omega), hlane⟩

/-- A slot of a block is unnamed exactly when no register has its base as offset (R105). -/
theorem iicSlotUnnamed_iff (slot : Fin 512) :
    iicSlotUnnamed slot = true ↔ ∀ r : IicReg, r.offset ≠ 8 * slot.val := by
  simp only [iicSlotUnnamed, Option.isNone_iff_eq_none, IicReg.ofOffset_eq_none, ne_comm]

theorem decode_iicSlotRead {lo hi c : Byte} {n : Nat} (hin : iicAddr lo hi < Params.iicSize)
    (hc : c.toNat + 1 = n) (hfit : pieceFits 8 (iicLane (iicAddr lo hi)).val n = true) :
    decode [Format.iicSlotRead.tag, lo, hi, c] = .ok (iicReadAt (iicAddr lo hi) n) := by
  subst hc
  exact (decode_tag _ _).trans ((if_pos hin).trans (if_pos hfit))

theorem decode_iicSlotWrite {lo hi : Byte} {data : List Byte} (hin : iicAddr lo hi < Params.iicSize)
    (hfit : pieceFits 8 (iicLane (iicAddr lo hi)).val data.length = true) :
    decode (Format.iicSlotWrite.tag :: lo :: hi :: data) = .ok (iicWriteAt (iicAddr lo hi) data) := by
  obtain ⟨d, ds, rfl⟩ := exists_cons_of_pieceFits hfit
  exact (decode_tag _ _).trans ((if_pos hin).trans (if_pos hfit))

theorem decode_iicRead {lo hi c : Byte} {r : IicReg} {block : Fin 6} {l : Fin 8} {n : Nat}
    (ha : iicAddr lo hi = block.val * Params.iicStride + r.offset + l.val) (hc : c.toNat + 1 = n)
    (hfit : pieceFits 8 l.val n = true) :
    decode [Format.iicSlotRead.tag, lo, hi, c] = .ok (Instr.iicRead r block l n) := by
  obtain ⟨hin, rfl, hslot, rfl⟩ := iicBlock_iicSlot_iicLane_of_split r.offset_range ha
  rw [decode_iicSlotRead hin hc hfit, iicReadAt, hslot, IicReg.ofOffset_offset]

theorem decode_iicWrite {lo hi : Byte} {r : IicReg} {block : Fin 6} {l : Fin 8} {data : List Byte}
    (ha : iicAddr lo hi = block.val * Params.iicStride + r.offset + l.val)
    (hfit : pieceFits 8 l.val data.length = true) :
    decode (Format.iicSlotWrite.tag :: lo :: hi :: data) = .ok (Instr.iicWrite r block l data) := by
  obtain ⟨hin, rfl, hslot, rfl⟩ := iicBlock_iicSlot_iicLane_of_split r.offset_range ha
  rw [decode_iicSlotWrite hin hfit, iicWriteAt, hslot, IicReg.ofOffset_offset]

theorem decode_iicUnnamedRead {lo hi c : Byte} {block : Fin 6} {slot : Fin 512} {l : Fin 8} {n : Nat}
    (ha : iicAddr lo hi = block.val * Params.iicStride + 8 * slot.val + l.val)
    (hfree : iicSlotUnnamed slot = true) (hc : c.toNat + 1 = n) (hfit : pieceFits 8 l.val n = true) :
    decode [Format.iicSlotRead.tag, lo, hi, c] = .ok (.iicUnnamedRead block slot l n) := by
  obtain ⟨hin, rfl, rfl, rfl⟩ := iicBlock_iicSlot_iicLane_of_slot ha
  rw [decode_iicSlotRead hin hc hfit, iicReadAt, Option.isNone_iff_eq_none.mp hfree]

theorem decode_iicUnnamedWrite {lo hi : Byte} {block : Fin 6} {slot : Fin 512} {l : Fin 8}
    {data : List Byte} (ha : iicAddr lo hi = block.val * Params.iicStride + 8 * slot.val + l.val)
    (hfree : iicSlotUnnamed slot = true) (hfit : pieceFits 8 l.val data.length = true) :
    decode (Format.iicSlotWrite.tag :: lo :: hi :: data) = .ok (.iicUnnamedWrite block slot l data) := by
  obtain ⟨hin, rfl, rfl, rfl⟩ := iicBlock_iicSlot_iicLane_of_slot ha
  rw [decode_iicSlotWrite hin hfit, iicWriteAt, Option.isNone_iff_eq_none.mp hfree]

/-! ### Frames (R108, R113) -/

/-- A frame's packet is the frame's instruction: it has the sixteen bytes the decoder asks for. -/
theorem decode_frame (code : Byte) (args : Args) :
    decode (Format.fifoFrame.tag :: code :: args.toList) = .ok (frameInstr code args) :=
  (decode_tag _ _).trans (dif_pos args.length_toList)

@[simp] theorem frameInstr_code (c : Cmd) (args : Args) :
    frameInstr c.code args = Instr.command c args := by
  rw [frameInstr, Cmd.ofCode_code]

theorem frameInstr_unknown {code : Byte} (h : Cmd.ofCode code = none) (args : Args) :
    frameInstr code args = .unknownCommand code args := by
  rw [frameInstr, h]

/-! ### The packets of the encoder -/

/-- The offset byte of a lane of a slot in the window (R71, R104). -/
theorem windowByte_toNat {base : Nat} (hbase : base + 4 ≤ 0x100) (l : Fin 4) :
    (BitVec.ofNat 8 (base + l.val) : Byte).toNat = base + l.val := by
  rw [byte_ofNat_toNat]
  omega

/-- The two address bytes of a lane of a slot in a block (R73, R105). -/
theorem iicAddr_of_addrBytes {a base : Nat} {block : Fin 6} {l : Fin 8} (hbase : base + 8 ≤ 0x1000)
    (ha : a = block.val * Params.iicStride + base + l.val) :
    iicAddr (BitVec.ofNat 8 (a % 256)) (BitVec.ofNat 8 (a / 256)) = a := by
  have ha : a = block.val * 0x1000 + base + l.val := ha
  rw [iicAddr, byte_ofNat_toNat, byte_ofNat_toNat]
  omega

/-- The byte count of a piece that fits in a slot survives its one byte (R106). -/
theorem encodeCount_toNat {w l n : Nat} (hw : w ≤ 256) (hfit : pieceFits w l n = true) :
    (encodeCount n).toNat + 1 = n := by
  obtain ⟨hpos, hle⟩ := (pieceFits_iff w l n).mp hfit
  rw [encodeCount, byte_ofNat_toNat]
  omega

theorem encode_smcRead (r : SmcReg) (l : Fin 4) (n : Nat) :
    encode (Instr.smcRead r l n) = Format.smcSlotRead.tag :: smcReadBody r.offset l n := by
  cases r <;> rfl

theorem encode_smcWrite (r : SmcReg) (l : Fin 4) (data : List Byte) :
    encode (Instr.smcWrite r l data) = Format.smcSlotWrite.tag :: smcWriteBody r.offset l data := by
  cases r <;> rfl

theorem encode_iicRead (r : IicReg) (block : Fin 6) (l : Fin 8) (n : Nat) :
    encode (Instr.iicRead r block l n) = Format.iicSlotRead.tag :: iicReadBody r.offset block l n := by
  cases r <;> rfl

theorem encode_iicWrite (r : IicReg) (block : Fin 6) (l : Fin 8) (data : List Byte) :
    encode (Instr.iicWrite r block l data) =
      Format.iicSlotWrite.tag :: iicWriteBody r.offset block l data := by
  cases r <;> rfl

theorem encode_command (c : Cmd) (args : Args) :
    encode (Instr.command c args) = Format.fifoFrame.tag :: frameBody c.code args := by
  cases c <;> rfl

end Sys2Proof

namespace Sys2Proof.Machine

/-- Every well-formed operation of the SMC is read back: a port operation by its naturals, a piece by its
offset, a frame by its first byte, a tray step by its code, the receive bridge's by its words' bytes. -/
theorem SmcDoes.decode_encode {i : Instr} {f : Smc → Smc} {g : Smc → Result} (hd : SmcDoes i f g)
    (hi : i.WellFormed) : decode (encode i) = .ok i := by
  cases hd with
  | read | write | memSet | configRead | configWrite =>
    rw [encode, decode_tag]
    simp [Instr.format, Instr.body, decodeBody, decodeSmcPort, atEnd, takeBuf]
  | pieceRead r l n =>
    have hfit := (Instr.smcRead_wf r l n).symm.trans hi
    rw [encode_smcRead]
    exact decode_smcRead (windowByte_toNat r.offset_range.2 l) (encodeCount_toNat (by decide) hfit) hfit
  | pieceWrite r l data =>
    rw [encode_smcWrite]
    exact decode_smcWrite (windowByte_toNat r.offset_range.2 l) ((Instr.smcWrite_wf r l data).symm.trans hi)
  | storageRead slot l n =>
    obtain ⟨hfree, hfit⟩ := Bool.and_eq_true_iff.mp hi
    exact decode_smcStorageRead (windowByte_toNat (by omega) l) hfree
      (encodeCount_toNat (by decide) hfit) hfit
  | storageWrite slot l data =>
    obtain ⟨hfree, hfit⟩ := Bool.and_eq_true_iff.mp hi
    exact decode_smcStorageWrite (windowByte_toNat (by omega) l) hfree hfit
  | command c args => rw [encode_command, frameBody, decode_frame, frameInstr_code]
  | unknown code args =>
    exact (decode_frame code args).trans
      (congrArg Except.ok (frameInstr_unknown (Option.isNone_iff_eq_none.mp hi) args))
  | trayOpenRequest | trayOpening | trayClosing => rfl
  | uartRx d st =>
    show Except.ok (Instr.uartRx (word (lane d 0) (lane d 1) (lane d 2) (lane d 3))
      (word (lane st 0) (lane st 1) (lane st 2) (lane st 3))) = _
    rw [word_lanes, word_lanes]

/-- Every well-formed operation of the IIC is read back: a port operation by its naturals, a piece by its
address. -/
theorem IicDoes.decode_encode {i : Instr} {f : Iic → Iic} {g : Iic → Result} (hd : IicDoes i f g)
    (hi : i.WellFormed) : decode (encode i) = .ok i := by
  cases hd with
  | read | write =>
    rw [encode, decode_tag]
    simp [Instr.format, Instr.body, decodeBody, decodeIicPort, atEnd, takeBuf]
  | gen | cancel | check =>
    rw [encode, decode_tag]
    simp [Instr.format, Instr.body, decodeBody, decodeIicReq, takeRequest, atEnd]
  | pieceRead r c l n =>
    have hfit := (Instr.iicRead_wf r c l n).symm.trans hi
    rw [encode_iicRead]
    exact decode_iicRead (iicAddr_of_addrBytes r.offset_range.2 rfl)
      (encodeCount_toNat (by decide) hfit) hfit
  | pieceWrite r c l data =>
    rw [encode_iicWrite]
    exact decode_iicWrite (iicAddr_of_addrBytes r.offset_range.2 rfl)
      ((Instr.iicWrite_wf r c l data).symm.trans hi)
  | unnamedRead c slot l n =>
    obtain ⟨hfree, hfit⟩ := Bool.and_eq_true_iff.mp hi
    exact decode_iicUnnamedRead (iicAddr_of_addrBytes (by omega) rfl) hfree
      (encodeCount_toNat (by decide) hfit) hfit
  | unnamedWrite c slot l data =>
    obtain ⟨hfree, hfit⟩ := Bool.and_eq_true_iff.mp hi
    exact decode_iicUnnamedWrite (iicAddr_of_addrBytes (by omega) rfl) hfree hfit

/-! ### The obligations -/

/-- Settles O1: each operation acts on one of the two devices, and an operation of either is read back. -/
theorem decodeEncodeRoundTrip : Obligations.DecodeEncodeRoundTrip := by
  intro i hi
  rcases instr_does i with ⟨f, g, hd⟩ | ⟨f, g, hd⟩
  · exact hd.decode_encode hi
  · exact hd.decode_encode hi

end Sys2Proof.Machine

namespace Sys2Proof

/-- Settles O2, by the state family's lemma about the decoder. -/
theorem decodedInstructionsAreWellFormed : Obligations.DecodedInstructionsAreWellFormed :=
  fun _ _ => wellFormed_of_decode

/-- A window offset is the base that `&&& 0xFC` leaves of it and its remainder by 4 (R104). -/
theorem windowOffset_eq_base_add_lane (a : Byte) : a.toNat = (a &&& 0xFC).toNat + a.toNat % 4 := by
  revert a
  decide

/-- Settles O3: an offset is its slot's base and lane, and the packet lemmas say what stands there. -/
theorem windowOffsetSelectsSlot : Obligations.WindowOffsetSelectsSlot := by
  refine ⟨pieceFits_iff, rfl, smcSlotUnnamed_iff, fun a c l data hl => ?_⟩
  have hoff : a.toNat = (a &&& 0xFC).toNat + l.val := hl ▸ windowOffset_eq_base_add_lane a
  refine ⟨fun r hr => ?_, fun hnone slot hslot => ?_⟩
  · rw [hr] at hoff
    exact ⟨decode_smcRead hoff rfl, decode_smcWrite hoff⟩
  · rw [← hslot] at hoff hnone
    have hfree := (smcSlotUnnamed_iff slot).mpr fun r => (hnone r).symm
    exact ⟨decode_smcStorageRead hoff hfree rfl, decode_smcStorageWrite hoff hfree⟩

/-- Settles O4: an address is its block's, its slot's base and its lane, and the packet lemmas say what stands
there. -/
theorem iicAddressSelectsBlockAndSlot : Obligations.IicAddressSelectsBlockAndSlot := by
  refine ⟨rfl, iicSlotUnnamed_iff, fun lo hi c block l data _ hblock hl => ?_⟩
  have hsplit (base : Nat)
      (hbase : (lo.toNat + 256 * hi.toNat) % 0x1000 - (lo.toNat + 256 * hi.toNat) % 0x1000 % 8 = base) :
      iicAddr lo hi = block.val * Params.iicStride + base + l.val := by
    show lo.toNat + 256 * hi.toNat = block.val * 0x1000 + base + l.val
    omega
  refine ⟨fun r hr => ?_, fun slot hslot hnone => ?_⟩
  · have ha := hsplit _ hr
    exact ⟨decode_iicRead ha rfl, decode_iicWrite ha⟩
  · have ha := hsplit _ hslot.symm
    have hfree := (iicSlotUnnamed_iff slot).mpr fun r => (hnone r).symm
    exact ⟨decode_iicUnnamedRead ha hfree rfl, decode_iicUnnamedWrite ha hfree⟩

/-- Settles O5: a frame's packet is the instruction of its first byte. -/
theorem frameDecodesByFirstByte : Obligations.FrameDecodesByFirstByte := by
  refine ⟨rfl, rfl, fun code args => ?_⟩
  rw [decode_frame]
  refine ⟨?_, fun hnone => ?_⟩
  · rintro c rfl
    rw [frameInstr_code]
  · rw [frameInstr_unknown ((Cmd.ofCode_eq_none code).mpr hnone)]

/-- A table word decodes to the instruction whose packet it stands for. -/
theorem decodeTableWord_of_packet {nbits w : Nat} {i : Instr} (hp : tablePacket nbits w = encode i)
    (hi : i.WellFormed) : decodeTableWord nbits w = some i := by
  rw [decodeTableWord, hp, Machine.decodeEncodeRoundTrip i hi]

/-- Settles O6: each packet is the encoder's own for its instruction, so the round trip gives it back. -/
theorem sampleWordsDecode : Obligations.SampleWordsDecode := by
  refine ⟨?memSet, ?smiIntAckRead, ?ackRead, ?setDvdTray, ?trayStep, ?write, ?genInterrupt⟩
  case write => exact Machine.decodeEncodeRoundTrip (.write 0x20 [0x11, 0x22]) rfl
  case genInterrupt => exact Machine.decodeEncodeRoundTrip (.genInterrupt 0x40 0x3F) rfl
  all_goals exact decodeTableWord_of_packet (by decide) (by decide)

end Sys2Proof

/-! PROOFS of the SMC bus port's family (spec/40_smc_bus_operations.md): what a Write lays over the window and
which other fields it can reach, what a Read shows, and that an operation is its pieces in ascending order. -/

namespace Sys2Proof.Machine

/-! ### Bytes laid over a storage, and bytes read from it -/

/-- A byte under the bytes laid over a storage is the byte laid there. -/
theorem overlay_inside (m : Mem) (a : Nat) {d : List Byte} {j : Nat} (hj : j < d.length) :
    overlay m a d (a + j) = d.getD j 0 := by
  rw [overlay, if_pos ⟨by omega, by omega⟩, Nat.add_sub_cancel_left]

/-- Laying only a buffer's in-range bytes over a storage discards the rest (R83). -/
theorem overlay_take_clamp (m : Mem) (addr : Nat) (buf : List Byte) (size x : Nat) :
    overlay m addr (buf.take (clamp addr buf.length size)) x =
      if x < size then overlay m addr buf x else Mem.read m x := by
  have hclamp := lt_clamp_iff addr buf.length size (x - addr)
  simp only [overlay, List.length_take, min_eq_left (clamp_le addr buf.length size)]
  by_cases hin : addr ≤ x ∧ x < addr + clamp addr buf.length size
  · have hj : x - addr < clamp addr buf.length size := by omega
    obtain ⟨hlen, hsize⟩ := hclamp.mp hj
    rw [if_pos hin, if_pos (by omega), if_pos (by omega)]
    simp [List.getD, hj]
  · rw [if_neg hin]
    by_cases hsize : x < size
    · rw [if_pos hsize, if_neg (by omega)]
    · rw [if_neg hsize]

theorem Mem.readBytes_eq_map (m : Mem) (a n : Nat) :
    Mem.readBytes m a n = (List.range n).map fun j => Mem.read m (a + j) := by
  refine List.ext_getElem? fun j => ?_
  rw [Mem.readBytes_getElem?, List.getElem?_map]
  by_cases hj : j < n
  · rw [if_pos hj, List.getElem?_range hj, Option.map_some]
  · rw [if_neg hj, List.getElem?_eq_none (by rw [List.length_range]; omega), Option.map_none]

/-- What ConfigRead hands back, byte by byte (R135). -/
theorem Smc.configRead_bytes (s : Smc) (addr len : Nat) :
    (s.configRead addr len).1 =
      (List.range len).map fun j => if addr + j < 0x100 then Mem.read s.cfg (addr + j) else 0x00 := by
  have hle := clamp_le addr len Params.cfgSize
  refine List.ext_getElem? fun j => ?_
  have hclamp : j < clamp addr len Params.cfgSize ↔ j < len ∧ addr + j < 0x100 := lt_clamp_iff _ _ _ _
  simp only [Smc.configRead, List.getElem?_append, Mem.readBytes_length, Mem.readBytes_getElem?,
    List.getElem?_replicate, List.getElem?_map]
  by_cases hlen : j < len
  · by_cases hsize : addr + j < 0x100
    · have hj := hclamp.mpr ⟨hlen, hsize⟩
      simp [hj, hlen, hsize]
    · have hj : ¬j < clamp addr len Params.cfgSize := fun h => hsize (hclamp.mp h).2
      have hrest : j - clamp addr len Params.cfgSize < len - clamp addr len Params.cfgSize := by omega
      simp [hj, hlen, hsize, hrest, Params.oorReadByte]
  · have hj : ¬j < clamp addr len Params.cfgSize := fun h => hlen (hclamp.mp h).1
    have hrest : ¬j - clamp addr len Params.cfgSize < len - clamp addr len Params.cfgSize := by omega
    simp [hj, hlen, hrest]

/-! ### Operations and pieces (R131) -/

/-- A Write cut at a slot boundary is the Write of the first part and then of the second. Where the first part
runs out of the window, nothing of the second is in it (R83). -/
theorem Smc.busWrite_append (s : Smc) {addr : Nat} {b1 : List Byte} (b2 : List Byte)
    (h : (addr + b1.length) % 4 = 0) :
    s.busWrite addr (b1 ++ b2) = (s.busWrite addr b1).busWrite (addr + b1.length) b2 := by
  have hle := clamp_le addr b1.length Params.smcSize
  simp only [Smc.busWrite, List.length_append, clamp_add]
  rcases clamp_full_or addr b1.length b2.length Params.smcSize with hfull | hnone
  · rw [hfull, pieces_append 4 addr _ _ (by decide) h, List.take_length_add_append, List.take_length]
    exact Smc.writePieces_append _ _ _ _ _ (pieces_sum 4 _ _ (by decide))
  · rw [hnone, Nat.add_zero, List.take_append_of_le_length hle]
    rfl

/-- A Read cut at a slot boundary is the Read of the first part and then of the second, its bytes those of the
two in order. -/
theorem Smc.busRead_append (s : Smc) {addr n1 : Nat} (n2 : Nat) (h : (addr + n1) % 4 = 0) :
    s.busRead addr (n1 + n2) =
      ((s.busRead addr n1).1 ++ ((s.busRead addr n1).2.busRead (addr + n1) n2).1,
        ((s.busRead addr n1).2.busRead (addr + n1) n2).2) := by
  have hle := clamp_le addr n1 Params.smcSize
  simp only [Smc.busRead, clamp_add]
  rcases clamp_full_or addr n1 n2 Params.smcSize with hfull | hnone
  · rw [hfull, pieces_append 4 addr _ _ (by decide) h, Smc.readPieces_append, Nat.add_sub_add_left,
      Nat.sub_self, List.replicate_zero, List.append_nil, List.append_assoc]
  · rw [hnone, Nat.add_zero, Nat.sub_zero, pieces_zero, Smc.readPieces, List.nil_append,
      List.append_assoc, List.replicate_append_replicate, Nat.sub_add_comm hle]

/-- The slot of an address inside the slot with base `b` (R104). -/
theorem slotBase_add {b k : Nat} (hb : b % 4 = 0) (hk : k < 4) : slotBase (b + k) = b := by
  unfold slotBase
  omega

/-- A piece of an operation lies in a slot the operation touches. -/
theorem Piece.Within.touches {p : Piece} {addr len size : Nat} (hp : p.Within 4 size)
    (hlo : addr ≤ p.base + p.lane) (hhi : p.base + p.lane + p.count ≤ addr + len) :
    Touches addr len p.base := by
  have hcount := hp.count
  have hslot := hp.slot
  exact ⟨p.base + p.lane, hlo, by omega, slotBase_add hp.base (by omega)⟩

/-! ### What a Write leaves unchanged -/

/-- Only UART_OUT, UART_CONFIG, FIFO_IN_MSG and FIFO_IN_STATUS have a write effect beyond the store (R151 to
R169). -/
theorem Smc.effect_of_plain {r : SmcReg} (h : r ∉ [.uartOut, .uartConfig, .fifoInMsg, .fifoInStatus])
    (w : Word) (d : List Byte) (s : Smc) : s.effect r w d = s := by
  cases r with
  | uartOut | uartConfig | fifoInMsg | fifoInStatus => exact absurd (by decide) h
  | _ => rfl

/-- What the store and the write effects of the touched registers keep, a Write keeps (R132, R137, R139). -/
theorem Smc.busWrite_keeps (P : Smc → Prop) (addr : Nat) (buf : List Byte) {s : Smc}
    (hstore : ∀ (t : Smc) (a : Nat) (d : List Byte), P t → P (t.store a d))
    (heffect : ∀ r : SmcReg, Touches addr buf.length r.offset →
      ∀ (w : Word) (d : List Byte) (t : Smc), P t → P (t.effect r w d))
    (h : P s) : P (s.busWrite addr buf) := by
  refine Smc.busWrite_induct P addr buf s (fun p d t hp hlo hhi _ ht => ?_) h
  unfold Smc.busWritePiece
  split
  · next r hr =>
    exact heffect r (SmcReg.offset_of_ofOffset hr ▸ hp.touches hlo hhi) _ d _ (hstore t _ d ht)
  · exact hstore t _ d ht

/-- Two SMC states with the same UART: its configuration word and the output trace. -/
structure Smc.SameUart (s t : Smc) : Prop where
  trace : t.trace = s.trace
  uartcfg : t.uartcfg = s.uartcfg

/-- Two SMC states with the same FIFO, and the same of what commands change: the responses, the tray and the
draw counter. -/
structure Smc.SameFifo (s t : Smc) : Prop where
  fifo : t.fifo = s.fifo
  cur : t.cur = s.cur
  respq : t.respq = s.respq
  tray : t.tray = s.tray
  draws : t.draws = s.draws

/-- A write effect other than UART_OUT's and UART_CONFIG's does not reach the UART: no command does (R64, R155). -/
theorem Smc.SameUart.effect {s t : Smc} (h : s.SameUart t) {r : SmcReg} (hout : r ≠ .uartOut)
    (hcfg : r ≠ .uartConfig) (w : Word) (d : List Byte) : s.SameUart (t.effect r w d) := by
  refine ⟨?_, by rw [Smc.effect_uartcfg, if_neg hcfg, h.uartcfg]⟩
  by_cases hmsg : r = .fifoInMsg
  · subst hmsg
    exact (t.appendAll_trace d).trans h.trace
  by_cases hstatus : r = .fifoInStatus
  · subst hstatus
    show (if inReady w then t.fifoFlush else t).trace = s.trace
    split
    · exact t.fifoFlush_trace.trans h.trace
    · exact h.trace
  · rw [Smc.effect_of_plain (by simp [hout, hcfg, hmsg, hstatus]), h.trace]

/-- A write effect other than FIFO_IN_MSG's and FIFO_IN_STATUS's does not reach the FIFO and runs no command. -/
theorem Smc.SameFifo.effect {s t : Smc} (h : s.SameFifo t) {r : SmcReg} (hmsg : r ≠ .fifoInMsg)
    (hstatus : r ≠ .fifoInStatus) (w : Word) (d : List Byte) : s.SameFifo (t.effect r w d) := by
  by_cases hout : r = .uartOut
  · subst hout
    exact ⟨h.fifo, h.cur, h.respq, h.tray, h.draws⟩
  by_cases hcfg : r = .uartConfig
  · subst hcfg
    exact ⟨h.fifo, h.cur, h.respq, h.tray, h.draws⟩
  · rw [Smc.effect_of_plain (by simp [hout, hcfg, hmsg, hstatus])]
    exact h

theorem Smc.sameUart_busWrite (s : Smc) {addr : Nat} {buf : List Byte}
    (hout : ¬Touches addr buf.length SmcReg.uartOut.offset)
    (hcfg : ¬Touches addr buf.length SmcReg.uartConfig.offset) :
    s.SameUart (s.busWrite addr buf) :=
  Smc.busWrite_keeps s.SameUart addr buf (fun _ _ _ h => ⟨h.trace, h.uartcfg⟩)
    (fun _ hr w d _ h => h.effect (fun he => hout (he ▸ hr)) (fun he => hcfg (he ▸ hr)) w d) ⟨rfl, rfl⟩

theorem Smc.sameFifo_busWrite (s : Smc) {addr : Nat} {buf : List Byte}
    (hmsg : ¬Touches addr buf.length SmcReg.fifoInMsg.offset)
    (hstatus : ¬Touches addr buf.length SmcReg.fifoInStatus.offset) :
    s.SameFifo (s.busWrite addr buf) :=
  Smc.busWrite_keeps s.SameFifo addr buf
    (fun _ _ _ h => ⟨h.fifo, h.cur, h.respq, h.tray, h.draws⟩)
    (fun _ hr w d _ h => h.effect (fun he => hmsg (he ▸ hr)) (fun he => hstatus (he ▸ hr)) w d)
    ⟨rfl, rfl, rfl, rfl, rfl⟩

/-- A Write only appends to the response queue (R197). -/
theorem Smc.busWrite_respq (s : Smc) (addr : Nat) (buf : List Byte) :
    ∃ ps, (s.busWrite addr buf).respq = s.respq ++ ps :=
  Smc.busWrite_keeps (fun t => ∃ ps, t.respq = s.respq ++ ps) addr buf (fun _ _ _ h => h)
    (fun r _ w d t ⟨ps, hps⟩ => by
      obtain ⟨qs, hqs⟩ := t.effect_respq r w d
      exact ⟨ps ++ qs, by rw [hqs, hps, List.append_assoc]⟩)
    ⟨[], (List.append_nil _).symm⟩

/-! ### What a Read shows and changes -/

/-- `bytes`, read at `addr`, are the window's wherever they are in no FIFO out slot (R133). -/
def ShowsWindow (m : Mem) (addr : Nat) (bytes : List Byte) : Prop :=
  ∀ j < bytes.length, slotBase (addr + j) ≠ SmcReg.fifoOutMsg.offset →
    slotBase (addr + j) ≠ SmcReg.fifoOutStatus.offset → bytes.getD j 0 = Mem.read m (addr + j)

/-- Two runs that each show the window, one behind the other. -/
theorem ShowsWindow.append {m : Mem} {addr : Nat} {d e : List Byte} (hd : ShowsWindow m addr d)
    (he : ShowsWindow m (addr + d.length) e) : ShowsWindow m addr (d ++ e) := by
  intro j hj hmsg hstatus
  rw [List.length_append] at hj
  by_cases hjd : j < d.length
  · rw [List.getD_append _ _ _ _ hjd]
    exact hd j hjd hmsg hstatus
  · have hsum : addr + d.length + (j - d.length) = addr + j := by omega
    have hej := he (j - d.length) (by omega)
    rw [hsum] at hej
    rw [List.getD_append_right _ _ _ _ (by omega)]
    exact hej hmsg hstatus

theorem showsWindow_readBytes (m : Mem) (a n : Nat) : ShowsWindow m a (Mem.readBytes m a n) := by
  intro j hj _ _
  rw [Mem.readBytes_length] at hj
  rw [List.getD, Mem.readBytes_getElem?, if_pos hj, Option.getD_some]

/-- The lanes of a stored word are the storage read of the same bytes: "this equals rule R138" (R140). -/
theorem Smc.lanes_wslot (s : Smc) (base : Nat) {l n : Nat} (h : l + n ≤ 4) :
    lanes (wordBytes (s.wslot base)) l n = Mem.readBytes s.win (base + l) n := by
  rw [lanes_wordBytes _ _ _ h, Mem.readBytes_eq_map]
  refine List.map_congr_left fun j hj => ?_
  rw [Smc.lane_wslot _ _ _ (by have := List.mem_range.mp hj; omega), Nat.add_assoc]

/-- A piece read outside the FIFO out slots is the storage read of its bytes (R138, R140). -/
theorem Smc.busReadPiece_stored {p : Piece} (hfit : p.lane + p.count ≤ 4)
    (hmsg : p.base ≠ SmcReg.fifoOutMsg.offset) (hstatus : p.base ≠ SmcReg.fifoOutStatus.offset) (s : Smc) :
    s.busReadPiece p = (Mem.readBytes s.win (p.base + p.lane) p.count, s) := by
  unfold Smc.busReadPiece
  split
  · next r hr =>
    have hbase := SmcReg.offset_of_ofOffset hr
    have hr1 : r ≠ .fifoOutMsg := fun he => hmsg (he ▸ hbase.symm)
    have hr2 : r ≠ .fifoOutStatus := fun he => hstatus (he ▸ hbase.symm)
    rw [Smc.readPiece, Smc.rule_word r s hr1 hr2, Smc.rule_state r s hr1, Smc.lanes_wslot s _ hfit, hbase]
  · rfl

/-- A piece read hands back as many bytes as the piece has (R140). -/
theorem Smc.busReadPiece_length {p : Piece} (hfit : p.lane + p.count ≤ 4) (s : Smc) :
    (s.busReadPiece p).1.length = p.count := by
  unfold Smc.busReadPiece
  split
  · rw [Smc.readPiece, lanes_wordBytes _ _ _ hfit, List.length_map, List.length_range]
  · exact Mem.readBytes_length _ _ _

theorem Smc.showsWindow_busReadPiece {p : Piece} (hbase : p.base % 4 = 0) (hfit : p.lane + p.count ≤ 4)
    (s : Smc) : ShowsWindow s.win (p.base + p.lane) (s.busReadPiece p).1 := by
  intro j hj hmsg hstatus
  have hslot : slotBase (p.base + p.lane + j) = p.base := by
    rw [Smc.busReadPiece_length hfit] at hj
    rw [Nat.add_assoc]
    exact slotBase_add hbase (by omega)
  rw [Smc.busReadPiece_stored hfit (hslot ▸ hmsg) (hslot ▸ hstatus)] at hj ⊢
  exact showsWindow_readBytes _ _ _ j hj hmsg hstatus

/-- The pieces of a run of `n` bytes, read in order, hand back `n` bytes, and show the window. -/
theorem Smc.readPieces_bytes (addr n : Nat) (s : Smc) :
    (Smc.readPieces (pieces 4 addr n) s).1.length = n ∧
      ShowsWindow s.win addr (Smc.readPieces (pieces 4 addr n) s).1 := by
  induction n using Nat.strong_induction_on generalizing addr s with
  | _ n ih =>
    by_cases h0 : n = 0
    · subst h0
      exact ⟨rfl, fun j hj => absurd hj (Nat.not_lt_zero j)⟩
    · generalize hk : min (4 - addr % 4) n = k
      generalize hp : (⟨addr - addr % 4, addr % 4, k⟩ : Piece) = p
      have hfit : p.lane + p.count ≤ 4 := by subst hp; show addr % 4 + k ≤ 4; omega
      have hbase : p.base % 4 = 0 := by subst hp; show (addr - addr % 4) % 4 = 0; omega
      have haddr : p.base + p.lane = addr := by subst hp; exact Nat.sub_add_cancel (Nat.mod_le _ _)
      have hcount : p.count = k := by subst hp; rfl
      have hlen := Smc.busReadPiece_length hfit s
      have hshows := Smc.showsWindow_busReadPiece hbase hfit s
      obtain ⟨hlen', hshows'⟩ := ih (n - k) (by omega) (addr + k) (s.busReadPiece p).2
      rw [pieces_cons 4 addr n (by decide) h0, hk, hp, Smc.readPieces]
      rw [haddr] at hshows
      rw [Smc.busReadPiece_win] at hshows'
      exact ⟨by rw [List.length_append, hlen, hlen']; omega, hshows.append (by rwa [hlen, hcount])⟩

theorem Smc.busRead_length (addr len : Nat) (s : Smc) : (s.busRead addr len).1.length = len := by
  have hle := clamp_le addr len Params.smcSize
  simp only [Smc.busRead, List.length_append, List.length_replicate, (Smc.readPieces_bytes addr _ s).1]
  omega

/-- A Read shows the window's bytes wherever they are in no FIFO out slot (R133). -/
theorem Smc.busRead_inRange (s : Smc) {addr len j : Nat} (hj : j < len) (hin : addr + j < 0x100)
    (hmsg : slotBase (addr + j) ≠ SmcReg.fifoOutMsg.offset)
    (hstatus : slotBase (addr + j) ≠ SmcReg.fifoOutStatus.offset) :
    (s.busRead addr len).1.getD j 0 = Mem.read s.win (addr + j) := by
  obtain ⟨hlen, hshows⟩ := Smc.readPieces_bytes addr (clamp addr len Params.smcSize) s
  have hjn := hlen.symm ▸ (lt_clamp_iff addr len Params.smcSize j).mpr ⟨hj, hin⟩
  exact (List.getD_append _ _ _ _ hjn).trans (hshows j hjn hmsg hstatus)

/-- A Read shows OOR_READ_BYTE beyond the window (R83). -/
theorem Smc.busRead_outOfRange (s : Smc) {addr len j : Nat} (hj : j < len) (hout : 0x100 ≤ addr + j) :
    (s.busRead addr len).1.getD j 0 = 0x00 := by
  have hlen := (Smc.readPieces_bytes addr (clamp addr len Params.smcSize) s).1
  have hclamp : j < clamp addr len Params.smcSize ↔ j < len ∧ addr + j < 0x100 := lt_clamp_iff _ _ _ _
  rw [Smc.busRead, List.getD_append_right _ _ _ _ (by omega), hlen]
  exact List.getD_replicate _ (by omega)

/-- A Read that does not touch FIFO_OUT_MSG changes nothing (R80, R133). -/
theorem Smc.busRead_state_of_not_touches (s : Smc) {addr len : Nat}
    (h : ¬Touches addr len SmcReg.fifoOutMsg.offset) :
    (s.busRead addr len).2 = s := by
  refine Smc.busRead_induct (fun t => t = s) addr len s (fun p t hp hlo hhi ht => ?_) rfl
  subst ht
  unfold Smc.busReadPiece
  split
  · next r hr =>
    exact Smc.rule_state r t fun he => h (he ▸ SmcReg.offset_of_ofOffset hr ▸ hp.touches hlo hhi)
  · rfl

/-- A Read changes at most what taking words changes: the responses, the read position and the last word
(R166). -/
theorem Smc.busRead_state (addr len : Nat) (s : Smc) :
    (s.busRead addr len).2 =
      { s with
        respq := (s.busRead addr len).2.respq
        ocur := (s.busRead addr len).2.ocur
        olast := (s.busRead addr len).2.olast } := by
  rw [← s.busRead_win addr len, ← s.busRead_cfg addr len, ← s.busRead_fifo addr len,
    ← s.busRead_cur addr len, ← s.busRead_tray addr len, ← s.busRead_pwr addr len,
    ← s.busRead_avpack addr len, ← s.busRead_uartcfg addr len, ← s.busRead_trace addr len,
    ← s.busRead_draws addr len]

/-! ### The obligations -/

/-- Settles O20: the window by what a Write lays over it; every other field because neither the store nor a
write effect of a touched register reaches it. -/
theorem writeStoresInRangeBytes : Obligations.WriteStoresInRangeBytes := by
  intro s addr buf
  refine ⟨_, exec_of_smcDoes (.write addr buf) s, s.smc.busWrite_win addr buf, rfl, rfl, rfl,
    s.smc.busWrite_cfg addr buf, s.smc.busWrite_ocur addr buf, s.smc.busWrite_olast addr buf,
    s.smc.busWrite_pwr addr buf, s.smc.busWrite_avpack addr buf, s.smc.busWrite_respq addr buf,
    fun hout hcfg => ?_, fun hmsg hstatus => ?_⟩
  · have h := s.smc.sameUart_busWrite hout hcfg
    exact ⟨h.trace, h.uartcfg⟩
  · have h := s.smc.sameFifo_busWrite hmsg hstatus
    exact ⟨h.fifo, h.cur, h.respq, h.tray, h.draws⟩

/-- Settles O21: piece by piece, a Read shows the window and changes only what taking words changes. -/
theorem readReturnsStoredBytes : Obligations.ReadReturnsStoredBytes := by
  intro s addr len
  exact ⟨_, _, exec_of_smcDoes (.read addr len) s,
    congrArg (fun d => { s with smc := d, result := .data (s.smc.busRead addr len).1 })
      (s.smc.busRead_state addr len),
    s.smc.busRead_length addr len, fun _ => s.smc.busRead_inRange, fun _ => s.smc.busRead_outOfRange,
    s.smc.busRead_state_of_not_touches⟩

/-- Settles O24: the in-range bytes are read from and laid over the configuration space. -/
theorem configSpaceReadsAndWrites : Obligations.ConfigSpaceReadsAndWrites := by
  intro s addr len buf
  refine ⟨?_, _, exec_of_smcDoes (.configWrite addr buf) s, fun x => ?_⟩
  · rw [exec_of_smcDoes (.configRead addr len) s, Smc.configRead_bytes]
  · exact (Mem.read_writeBytes _ _ _ _).trans (overlay_take_clamp s.smc.cfg addr buf Params.cfgSize x)

/-- Settles O22: a byte read back is the byte O20 or O24 says was laid there. -/
theorem writeThenReadReturnsBuffer : Obligations.WriteThenReadReturnsBuffer := by
  intro s addr buf hfit
  refine ⟨fun hmsg hstatus => ?_, ?_⟩
  · obtain ⟨t, ht, hwin, -⟩ := writeStoresInRangeBytes s addr buf
    obtain ⟨u, bytes, hu, hresult, hlen, hshows, -, hsmc⟩ := readReturnsStoredBytes t addr buf.length
    have hbytes : bytes = buf := by
      refine List.ext_getElem hlen fun j hj hj' => ?_
      have hslot : ∀ base, ¬Touches addr buf.length base → slotBase (addr + j) ≠ base :=
        fun base hnot he => hnot ⟨addr + j, by omega, by omega, he⟩
      have hbyte := hshows j hj' (by omega) (hslot _ hmsg) (hslot _ hstatus)
      rw [hwin, if_pos (by omega), overlay_inside _ _ hj'] at hbyte
      rwa [List.getD_eq_getElem _ _ hj, List.getD_eq_getElem _ _ hj'] at hbyte
    exact ⟨t, u, ht, hu, by rw [hresult, hbytes], hsmc hmsg⟩
  · obtain ⟨-, m, hwrite, hm⟩ := configSpaceReadsAndWrites s addr 0 buf
    refine ⟨_, _, hwrite, (configSpaceReadsAndWrites _ addr buf.length []).1, congrArg Result.data ?_, rfl⟩
    refine List.ext_getElem (by simp) fun j _ hj => ?_
    rw [List.getElem_map, List.getElem_range, if_pos (by omega), hm, if_pos (by omega),
      overlay_inside _ _ hj, List.getD_eq_getElem _ _ hj]

/-- `trunc8(v) = v mod 256` (R13). -/
theorem trunc8_eq (v : Nat) : trunc8 v = BitVec.ofNat 8 (v % 256) :=
  BitVec.eq_of_toNat_eq (by simp [trunc8])

/-- Settles O23: a MemSet is defined as this Write, whose bytes O20 gives. -/
theorem memSetIsWriteOfEqualBytes : Obligations.MemSetIsWriteOfEqualBytes := by
  intro s addr value len
  obtain ⟨t, ht, hwin, -⟩ :=
    writeStoresInRangeBytes s addr (List.replicate len (BitVec.ofNat 8 (value % 256)))
  have hmemSet : exec (.memSet addr value len) s =
      exec (.write addr (List.replicate len (BitVec.ofNat 8 (value % 256)))) s := by
    rw [exec_of_smcDoes (.memSet addr value len) s, exec_of_smcDoes (.write addr _) s, Smc.busMemSet,
      trunc8_eq]
  refine ⟨t, hmemSet.trans ht, ht, fun x hlo hhi hin => ?_⟩
  obtain ⟨j, rfl⟩ := Nat.exists_eq_add_of_le hlo
  have hj : j < len := by omega
  rw [hwin, if_pos hin, overlay_inside _ _ (by rwa [List.length_replicate]), List.getD_replicate _ hj]

/-- Settles O25: a storage piece is a run of bytes read from the window, or stored in it. -/
theorem storagePiecesReadAndWrite : Obligations.StoragePiecesReadAndWrite := by
  intro s slot l _
  refine ⟨fun count _ => ?_, fun data _ => ⟨_, exec_of_smcDoes (.storageWrite slot l data) s, fun x => ?_⟩⟩
  · rw [exec_of_smcDoes (.storageRead slot l count) s, Mem.readBytes_eq_map]
  · exact Mem.read_writeBytes _ _ _ _

/-- Settles O27: the ten registers are the plain ones, whose write is the store and nothing more. -/
theorem plainRegistersStoreTheirBytes : Obligations.PlainRegistersStoreTheirBytes := by
  intro s l data _ r hr
  have hplain : r ∉ [SmcReg.uartOut, .uartConfig, .fifoInMsg, .fifoInStatus] := by
    revert hr
    cases r <;> decide
  refine ⟨Mem.writeBytes s.smc.win (r.offset + l.val) data, ?_, fun x => Mem.read_writeBytes _ _ _ _⟩
  rw [exec_of_smcDoes (.pieceWrite r l data) s, Smc.writePiece, Smc.effect_of_plain hplain]
  rfl

/-- Settles O36: the cuts by `busWrite_append` and `busRead_append`; an operation inside one slot has one piece,
whose rule is that of the register named there or of storage. -/
theorem smcPieceIsBusOperation : Obligations.SmcPieceIsBusOperation := by
  intro s
  refine ⟨fun addr b1 b2 h => ?_, fun addr n1 n2 h => ?_, fun l count data => ⟨fun hfit => ?_, fun hfit => ?_⟩⟩
  · refine ⟨_, exec_of_smcDoes (.write addr b1) s, ?_⟩
    rw [exec_of_smcDoes (.write addr (b1 ++ b2)) s, exec_of_smcDoes (.write (addr + b1.length) b2),
      Smc.busWrite_append _ _ h]
  · refine ⟨_, _, _, _, exec_of_smcDoes (.read addr n1) s, rfl, exec_of_smcDoes (.read (addr + n1) n2) _,
      rfl, ?_⟩
    rw [exec_of_smcDoes (.read addr (n1 + n2)) s, Smc.busRead_append _ _ h]
  · obtain ⟨hcount, hfit⟩ := (pieceFits_iff _ _ _).mp hfit
    refine ⟨fun r => ?_, fun slot hslot => ?_⟩
    · obtain ⟨hbase, hsize⟩ := r.offset_range
      rw [exec_of_smcDoes (.pieceRead r l count) s, exec_of_smcDoes (.read (r.offset + l.val) count) s,
        Smc.busRead_one _ _ _ hbase hsize hcount hfit, Smc.busReadPiece_named]
    · rw [exec_of_smcDoes (.storageRead slot l count) s,
        exec_of_smcDoes (.read (4 * slot.val + l.val) count) s,
        Smc.busRead_one _ _ _ (Nat.mul_mod_right 4 _) (by omega) hcount hfit,
        Smc.busReadPiece_unnamed _ hslot]
  · obtain ⟨hcount, hfit⟩ := (pieceFits_iff _ _ _).mp hfit
    refine ⟨fun r => ?_, fun slot hslot => ?_⟩
    · obtain ⟨hbase, hsize⟩ := r.offset_range
      rw [exec_of_smcDoes (.pieceWrite r l data) s, exec_of_smcDoes (.write (r.offset + l.val) data) s,
        Smc.busWrite_one _ _ _ hbase hsize hcount hfit, Smc.busWritePiece_named]
    · rw [exec_of_smcDoes (.storageWrite slot l data) s,
        exec_of_smcDoes (.write (4 * slot.val + l.val) data) s,
        Smc.busWrite_one _ _ _ (Nat.mul_mod_right 4 _) (by omega) hcount hfit,
        Smc.busWritePiece_unnamed _ hslot]

end Sys2Proof.Machine

/-! PROOFS of the named registers' family (spec/41_smc_named_registers.md): what a piece read returns lane by
lane, what a piece write stores and merges, the frame a FIFO_IN_MSG write accumulates or dispatches, and the
words FIFO_OUT_MSG hands out. -/

namespace Sys2Proof.Machine

/-! ### Pieces on named registers -/

/-- A named piece read applies the register's rule once and returns lanes of its word (R140). -/
theorem exec_smcRead (s : State) (r : SmcReg) {l : Fin 4} {count : Nat}
    (hfit : pieceFits 4 l.val count = true) :
    exec (Instr.smcRead r l count) s = .next { s with
      smc := (s.smc.rule r).2
      result := .data ((List.range count).map fun j => lane (s.smc.rule r).1 (l.val + j)) } := by
  obtain ⟨-, hfit⟩ := (pieceFits_iff _ _ _).mp hfit
  rw [exec_of_smcDoes (.pieceRead r l count) s, Smc.readPiece, lanes_wordBytes _ _ _ hfit]

/-- A named piece write stores the piece's bytes, then has the register's effect with the slot's merged word
(R139). -/
theorem exec_smcWrite {s : State} {r : SmcReg} {l : Fin 4} {data : List Byte} {d : Smc}
    (h : (s.smc.store (r.offset + l.val) data).effect r
      ((s.smc.store (r.offset + l.val) data).wslot r.offset) data = d) :
    exec (Instr.smcWrite r l data) s = .next { s with smc := d, result := .nothing } :=
  h ▸ exec_of_smcDoes (.pieceWrite r l data) s

/-- FIFO_OUT_STATUS is the ready mask's word exactly while a response is queued (R168). -/
theorem Smc.outStatus_eq (s : Smc) : s.outStatus = if s.respq = [] then 0 else 0x00000004 := by
  rw [Smc.outStatus, Params.fifoOutReadyMask]
  simp only [List.isEmpty_iff]

/-! ### The command frame -/

/-- Appends that fill the frame and go on dispatch it once, at its 16th byte; the bytes after that lie at the
start of the frame buffer, over the bytes left there (R190, R194). -/
theorem Smc.appendAll_dispatch (s : Smc) (d : List Byte) (hcur : s.cur ≤ 15) (hfull : 16 ≤ s.cur + d.length)
    (honce : s.cur + d.length < 32) :
    ∃ f f' : Frame,
      s.appendAll d = { Smc.ran f { s with fifo := f, cur := 0 } with
        fifo := f', cur := s.cur + d.length - 16 } ∧
      (∀ j < 16, frameByte f j = if s.cur ≤ j then d.getD (j - s.cur) 0 else frameByte s.fifo j) ∧
      ∀ j < 16, frameByte f' j =
        if j < s.cur + d.length - 16 then d.getD (16 - s.cur + j) 0 else frameByte f j := by
  have hrest : (d.drop (16 - s.cur)).length = s.cur + d.length - 16 := by
    rw [List.length_drop]
    omega
  obtain ⟨f, hfill, hf⟩ := s.appendAll_fill (d.take (16 - s.cur)) hcur
    (by rw [List.length_take]; omega)
  obtain ⟨f', hshort, hf'⟩ := Smc.appendAll_short (Smc.ran f { s with fifo := f, cur := 0 })
    (d.drop (16 - s.cur)) (by rw [Smc.ran_cur, hrest, Nat.zero_add]; omega)
  simp only [Smc.ran_cur, Smc.ran_fifo, hrest, Nat.zero_add, Nat.zero_le, true_and, Nat.sub_zero]
    at hshort hf'
  refine ⟨f, f', ?_, fun j hj => ?_, fun j hj => ?_⟩
  · rw [← hshort, ← hfill, ← Smc.appendAll_append, List.take_append_drop]
  · rw [hf j hj]
    by_cases hcj : s.cur ≤ j
    · rw [if_pos hcj, if_pos hcj, List.getD, List.getElem?_take_of_lt (by omega), List.getD]
    · rw [if_neg hcj, if_neg hcj]
  · refine (hf' j hj).trans ?_
    rw [List.getD, List.getElem?_drop]
    rfl

/-- A write of FIFO_IN_STATUS with the ready bit set and a frame begun runs that frame as it stands, its bytes
kept; any other has no effect (R164, R192, R194). -/
theorem Smc.fifoInStatusEffect_eq (w : Word) (d : List Byte) (s : Smc) :
    s.fifoInStatusEffect w d =
      if w &&& 0x00000004 ≠ 0 ∧ s.cur ≠ 0 then Smc.ran s.fifo { s with cur := 0 } else s := by
  have hready : inReady w = true ↔ w &&& 0x00000004 ≠ 0 := bne_iff_ne
  simp only [Smc.fifoInStatusEffect, Smc.fifoFlush, hready, Smc.fifoDispatch_eq_ran]
  by_cases hbit : w &&& 0x00000004 ≠ 0
  · by_cases hcur : s.cur = 0
    · rw [if_pos hbit, if_pos hcur, if_neg fun h => h.2 hcur]
    · rw [if_pos hbit, if_neg hcur, if_pos ⟨hbit, hcur⟩]
  · rw [if_neg hbit, if_neg fun h => hbit h.1]

/-! ### The response queue -/

/-- The lanes of a response's word are its bytes (R166). -/
theorem lane_frameWord (p : Frame) (i : Nat) {j : Nat} (hj : j < 4) :
    lane (frameWord p i) j = frameByte p (i + j) := by
  obtain ⟨h0, h1, h2, h3⟩ := lane_word (frameByte p i) (frameByte p (i + 1)) (frameByte p (i + 2))
    (frameByte p (i + 3))
  match j, hj with
  | 0, _ => exact h0
  | 1, _ => exact h1
  | 2, _ => exact h2
  | 3, _ => exact h3

theorem Smc.takeWord_nil {s : Smc} (hq : s.respq = []) (d : Drained) : s.takeWord d = (s.drained d, s) := by
  rw [Smc.takeWord, hq]

/-- Taking a word of the head response, which is dropped after its fourth (R166). -/
theorem Smc.takeWord_cons {s : Smc} {p : Frame} {rest : List Frame} (hq : s.respq = p :: rest) (d : Drained) :
    s.takeWord d = (frameWord p s.ocur, { s with
      respq := if s.ocur = 12 then rest else p :: rest
      ocur := if s.ocur = 12 then 0 else s.ocur + 4
      olast := frameWord p s.ocur }) := by
  rw [Smc.takeWord, hq]
  by_cases hlast : s.ocur = 12
  · simp only [hlast, Nat.reduceAdd, if_true]
  · have hne : ¬s.ocur + 4 = 16 := by omega
    simp only [if_neg hlast, if_neg hne, ← hq]

/-- A piece read of FIFO_OUT_MSG with a response queued (R140, R166). -/
theorem exec_fifoOutMsgRead_cons {s : State} {p : Frame} {rest : List Frame} (hq : s.smc.respq = p :: rest)
    {l : Fin 4} {count : Nat} (hfit : pieceFits 4 l.val count = true) :
    exec (.fifoOutMsgRead l count) s = .next { s with
      smc := { s.smc with
        respq := if s.smc.ocur = 12 then rest else p :: rest
        ocur := if s.smc.ocur = 12 then 0 else s.smc.ocur + 4
        olast := frameWord p s.smc.ocur }
      result := .data ((List.range count).map fun j => frameByte p (s.smc.ocur + l.val + j)) } := by
  obtain ⟨-, hle⟩ := (pieceFits_iff _ _ _).mp hfit
  refine (exec_smcRead s .fifoOutMsg hfit).trans ?_
  have hrule : s.smc.rule .fifoOutMsg = _ := Smc.takeWord_cons hq Params.fifoOutDrained
  have hbytes : ((List.range count).map fun j => lane (frameWord p s.smc.ocur) (l.val + j)) =
      (List.range count).map fun j => frameByte p (s.smc.ocur + l.val + j) := by
    refine List.map_congr_left fun j hj => ?_
    have hj := List.mem_range.mp hj
    rw [lane_frameWord _ _ (by omega), Nat.add_assoc]
  rw [hrule, ← hbytes]

/-- A bus read of the whole FIFO_OUT_MSG slot at read position `o` (R131, R166). -/
theorem exec_read_fifoOutMsg {s : State} {p : Frame} {rest : List Frame} {o : Nat}
    (hq : s.smc.respq = p :: rest) (ho : s.smc.ocur = o) :
    exec (.read 0x90 4) s = .next { s with
      smc := { s.smc with
        respq := if o = 12 then rest else p :: rest
        ocur := if o = 12 then 0 else o + 4
        olast := frameWord p o }
      result := .data ((List.range 4).map fun j => frameByte p (o + j)) } := by
  subst ho
  obtain ⟨-, -, hpieces⟩ := smcPieceIsBusOperation s
  obtain ⟨hread, -⟩ := hpieces 0 4 []
  obtain ⟨hnamed, -⟩ := hread rfl
  exact (hnamed .fifoOutMsg).symm.trans (exec_fifoOutMsgRead_cons hq rfl)

/-- A frame's bytes in order are its list of bytes (R110). -/
theorem map_frameByte_range (p : Frame) : (List.range 16).map (frameByte p) = p.toList := by
  refine List.ext_getElem (by simp) fun j _ hj => ?_
  rw [List.getElem_map, List.getElem_range, frameByte, List.getD_eq_getElem _ _ hj]

/-! ### The obligations -/

/-- Settles O26: the rule of these twelve is the stored word, whose lanes are the window's bytes. -/
theorem storedRegistersReadTheirBytes : Obligations.StoredRegistersReadTheirBytes := by
  intro s l count hfit r hmsg hstatus
  obtain ⟨-, hle⟩ := (pieceFits_iff _ _ _).mp hfit
  rw [exec_of_smcDoes (.pieceRead r l count) s, Smc.readPiece, Smc.rule_word r s.smc hmsg hstatus,
    Smc.rule_state r s.smc hmsg, Smc.lanes_wslot _ _ hle, Mem.readBytes_eq_map]

/-- Settles O28: the effect with the merged word of the stored bytes; the read is O26's. -/
theorem uartOutWriteEmitsMergedWord : Obligations.UartOutWriteEmitsMergedWord := by
  refine ⟨fun w j _ => lane_toNat w j, fun s l data _ => ⟨?_, ?_⟩⟩
  · exact ⟨_, _, exec_smcWrite (r := .uartOut) rfl, fun x => Mem.read_writeBytes _ _ _ _,
      fun _ hj => Smc.lane_wslot _ _ _ hj⟩
  · exact storedRegistersReadTheirBytes s 0 4 rfl .uartOut (by decide) (by decide)

/-- Settles O29: the effect with the merged word of the stored bytes. -/
theorem uartConfigWriteReinitialises : Obligations.UartConfigWriteReinitialises := by
  intro s l data _
  exact ⟨_, _, exec_smcWrite (r := .uartConfig) rfl, fun x => Mem.read_writeBytes _ _ _ _,
    fun _ hj => Smc.lane_wslot _ _ _ hj⟩

/-- Settles O30: the stored bytes are appended, and short of 16 an append only places them. -/
theorem fifoInMsgWriteAccumulates : Obligations.FifoInMsgWriteAccumulates := by
  intro s l data _ hshort
  obtain ⟨f, happend, hf⟩ := Smc.appendAll_short (s.smc.store (0x80 + l.val) data) data hshort
  exact ⟨_, f, exec_smcWrite (r := .fifoInMsg) happend, fun x => Mem.read_writeBytes _ _ _ _, hf⟩

/-- Settles O31: the appends up to the 16th byte dispatch the frame, those after it begin the next. -/
theorem fifoInMsgWriteDispatchesFullFrame : Obligations.FifoInMsgWriteDispatchesFullFrame := by
  intro s l data hfit hcur hfull
  obtain ⟨-, hle⟩ := (pieceFits_iff _ _ _).mp hfit
  obtain ⟨f, f', happend, hf, hf'⟩ := Smc.appendAll_dispatch (s.smc.store (0x80 + l.val) data) data hcur
    hfull (by rw [Smc.store_cur]; omega)
  exact ⟨_, f, f', exec_smcWrite (r := .fifoInMsg) happend, fun x => Mem.read_writeBytes _ _ _ _,
    hf, hf'⟩

/-- Settles O32: the effect tests the merged word's ready bit, the flush tests the cursor. -/
theorem fifoInStatusWriteFlushes : Obligations.FifoInStatusWriteFlushes := by
  intro s l data _
  exact ⟨_, _, fun x => Mem.read_writeBytes _ _ _ _, fun _ hj => Smc.lane_wslot _ _ _ hj,
    (exec_smcWrite (r := .fifoInStatus) (Smc.fifoInStatusEffect_eq _ data _)).trans
      (apply_ite (fun d => Host.Outcome.next { s with smc := d, result := .nothing }) _ _ _)⟩

/-- Settles O33: a word is taken once per piece, and its lanes are four bytes of the head response. -/
theorem fifoOutMsgReadTakesAWord : Obligations.FifoOutMsgReadTakesAWord := by
  intro s l count hfit
  refine ⟨fun hq => ⟨?_, fun d => ?_⟩, fun p rest hq _ => ⟨frameWord p s.smc.ocur,
    fun j hj => lane_frameWord _ _ hj, exec_fifoOutMsgRead_cons hq hfit⟩⟩
  · have hrule : s.smc.rule .fifoOutMsg = (0, s.smc) := Smc.takeWord_nil hq Params.fifoOutDrained
    refine (exec_smcRead s .fifoOutMsg hfit).trans ?_
    have hzero : ∀ j, lane 0 j = 0 := fun j => by simp [lane]
    simp only [hrule, hzero, List.map_const', List.length_range]
  · rw [Smc.takeWord_nil hq]
    cases d <;> rfl

/-- Settles O35: the four reads move the read position through 0, 4, 8 and 12. -/
theorem fourReadsReturnAResponse : Obligations.FourReadsReturnAResponse := by
  intro s p rest hq ho
  exact ⟨_, _, _, _, _, _, _, _, exec_read_fifoOutMsg hq ho, rfl, exec_read_fifoOutMsg (o := 4) rfl rfl, rfl,
    exec_read_fifoOutMsg (o := 8) rfl rfl, rfl, exec_read_fifoOutMsg (o := 12) rfl rfl, rfl,
    map_frameByte_range p, rfl⟩

/-- Settles O34: the status word depends only on whether the queue is empty, and the rule keeps the state. -/
theorem fifoOutStatusReadsReady : Obligations.FifoOutStatusReadsReady := by
  intro s l count hfit
  have hrule : s.smc.rule .fifoOutStatus = (if s.smc.respq = [] then 0 else 0x00000004, s.smc) :=
    congrArg (·, s.smc) s.smc.outStatus_eq
  refine (exec_smcRead s .fifoOutStatus hfit).trans ?_
  rw [hrule]

end Sys2Proof.Machine

/-! PROOFS of the FIFO commands' family (spec/42_fifo_commands.md): what each row enqueues or changes, and the
run of a frame sent in four words. -/

namespace Sys2Proof.Machine

/-! ### The bytes of a frame -/

theorem frameByte_frameOf_zero (code : Byte) (args : Args) : frameByte (frameOf code args) 0 = code := by
  rw [frameByte, frameOf_toList, List.getD_cons_zero]

theorem frameByte_frameOf_succ (code : Byte) (args : Args) (j : Nat) :
    frameByte (frameOf code args) (j + 1) = args.toList.getD j 0 := by
  rw [frameByte, frameOf_toList, List.getD_cons_succ]

/-- A response of code and answer: the two bytes, then zeros (R110). -/
theorem frameByte_answer (code a : Byte) :
    frameByte (answer code a) 0 = code ∧ frameByte (answer code a) 1 = a ∧
      ∀ j, 2 ≤ j → j < 16 → frameByte (answer code a) j = 0 := by
  simp only [frameByte, answer_toList]
  refine ⟨rfl, rfl, fun j hlo hhi => ?_⟩
  obtain ⟨k, rfl⟩ := Nat.exists_eq_add_of_le' hlo
  exact List.getD_replicate _ (by omega : k < 14)

/-- A frame is its sixteen bytes. -/
theorem frame_ext {f g : Frame} (h : ∀ j < 16, frameByte f j = frameByte g j) : f = g := by
  refine Vector.ext fun j hj => ?_
  have hbyte := h j hj
  rwa [frameByte, frameByte, List.getD_eq_getElem _ _ (by simpa using hj),
    List.getD_eq_getElem _ _ (by simpa using hj), Vector.getElem_toList, Vector.getElem_toList] at hbyte

/-! ### The rows of the commands -/

/-- A command's row runs the command's effect with the row's frame (R196). -/
theorem exec_command {c : Cmd} {args : Args} {s : State} {d : Smc}
    (h : s.smc.runCommand c (frameOf c.code args) = d) :
    exec (Instr.command c args) s = .next { s with smc := d, result := .nothing } :=
  h ▸ exec_of_smcDoes (.command c args) s

/-- A row that answers by code and answer byte enqueues that response alone (R110, R197). -/
theorem exec_command_answer {c : Cmd} {s : State} {a : Byte} (args : Args)
    (h : ∀ f : Frame, s.smc.runCommand c f = s.smc.respond (answer f[0] a)) :
    ∃ p : Frame, exec (Instr.command c args) s = .next { s with
        smc := { s.smc with respq := s.smc.respq ++ [p] }, result := .nothing } ∧
      frameByte p 0 = c.code ∧ frameByte p 1 = a ∧ ∀ j, 2 ≤ j → j < 16 → frameByte p j = 0 := by
  refine ⟨answer c.code a, exec_command ?_, frameByte_answer c.code a⟩
  rw [h, frameOf_code]
  rfl

/-- The open queries answer with a free payload (R200, R201, R204, R205, R207 to R209). -/
theorem Smc.runCommand_of_openQuery {c : Cmd} (hc : c ∈ [Cmd.queryRtc, .queryTemp, .i2cPassthrough,
    .queryVersion, .queryIrAddr, .queryTilt, .queryIntAck0, .queryIntAck1]) (f : Frame) (s : Smc) :
    s.runCommand c f = s.respondFree c f := by
  simp only [List.mem_cons, List.not_mem_nil, or_false] at hc
  rcases hc with rfl | rfl | rfl | rfl | rfl | rfl | rfl | rfl <;> rfl

/-- The set commands other than SET_DVD_TRAY change nothing (R222). -/
theorem Smc.runCommand_of_setting {c : Cmd} (hc : c ∈ [Cmd.setStandby, .setTime, .setFanAlgorithm,
    .setFanSpeed0, .setFanSpeed1, .setPowerLed, .setAudioMute, .setIrAddr, .setRtcWake, .setAsyncOp,
    .setIntEnable0, .setIntEnable1]) (f : Frame) (s : Smc) : s.runCommand c f = s := by
  simp only [List.mem_cons, List.not_mem_nil, or_false] at hc
  rcases hc with rfl | rfl | rfl | rfl | rfl | rfl | rfl | rfl | rfl | rfl | rfl | rfl <;> rfl

/-- A tray request that is none of R214's three moves leaves the tray. -/
theorem trayRequest_of_no_move {arg : Byte} {t : Tray} (hopen : ¬(arg = 0x60 ∧ t = .closed))
    (hclose : ¬(arg = 0x62 ∧ t = .opened)) (hcancel : ¬(arg = 0x62 ∧ t = .openRequest)) :
    trayRequest arg t = t := by
  unfold trayRequest
  split
  · next harg =>
    cases t with
    | closed => exact absurd ⟨harg, rfl⟩ hopen
    | _ => rfl
  · split
    · next harg =>
      cases t with
      | opened => exact absurd ⟨harg, rfl⟩ hclose
      | openRequest => exact absurd ⟨harg, rfl⟩ hcancel
      | _ => rfl
    · rfl

/-! ### A frame run whole -/

/-- What a dispatch runs for a command's frame is that command (R196). -/
theorem Smc.ran_frameOf_code (c : Cmd) (args : Args) (s : Smc) :
    Smc.ran (frameOf c.code args) s = s.runCommand c (frameOf c.code args) := by
  simp only [Smc.ran, frameOf_code, Cmd.ofCode_code]

/-- "Unknown command codes are ignored" (R198). -/
theorem Smc.ran_of_unknown {f : Frame} (h : ∀ c : Cmd, c.code ≠ f[0]) (s : Smc) : Smc.ran f s = s := by
  simp only [Smc.ran, (Cmd.ofCode_eq_none _).mpr h]

/-! ### A frame sent in four words -/

/-- A bus write of a named slot's whole word is the register's piece write (R131, R132). -/
theorem exec_write_named (s : State) (r : SmcReg) {data : List Byte} (hlen : data.length = 4) {d : Smc}
    (h : (s.smc.store r.offset data).effect r ((s.smc.store r.offset data).wslot r.offset) data = d) :
    exec (.write r.offset data) s = .next { s with smc := d, result := .nothing } := by
  obtain ⟨-, -, hpieces⟩ := smcPieceIsBusOperation s
  obtain ⟨-, hwrite⟩ := hpieces 0 0 data
  obtain ⟨hnamed, -⟩ := hwrite (by rw [hlen]; rfl)
  exact (hnamed r).symm.trans (exec_smcWrite h)

/-- A store before bytes that do not fill the frame may as well come after them: no command runs that could
see it. -/
theorem Smc.store_appendAll {s : Smc} {d : List Byte} (hshort : s.cur + d.length < 16) (a : Nat)
    (e : List Byte) : (s.appendAll d).store a e = (s.store a e).appendAll d := by
  induction d generalizing s with
  | nil => rfl
  | cons b d ih =>
    rw [List.length_cons] at hshort
    have hplace : ∀ t : Smc, t.cur = s.cur → t.fifoAppend b = t.place b := fun t ht => by
      rw [Smc.fifoAppend, if_neg (by rw [Smc.place_cur, ht]; omega)]
    rw [Smc.appendAll, Smc.appendAll, hplace s rfl, hplace (s.store a e) rfl,
      ih (by rw [Smc.place_cur]; omega)]
    rfl

/-- A word sent after bytes that do not fill the frame extends them (R162, R190). -/
theorem Smc.appendAll_store_appendAll {s : Smc} {d : List Byte} (hshort : s.cur + d.length < 16) (a : Nat)
    (e : List Byte) : ((s.appendAll d).store a e).appendAll e = (s.store a e).appendAll (d ++ e) := by
  rw [Smc.store_appendAll hshort, Smc.appendAll_append]

/-- From cursor 0 a frame's sixteen bytes run its command once, with the whole frame (R190, R221). -/
theorem Smc.appendAll_frame {s : Smc} (hcur : s.cur = 0) (f : Frame) :
    s.appendAll f.toList = Smc.ran f { s with fifo := f, cur := 0 } := by
  obtain ⟨g, hg, hbytes⟩ := s.appendAll_fill f.toList (by omega) (by rw [hcur, Vector.length_toList])
  have hgf : g = f := frame_ext fun j hj => by
    rw [hbytes j hj, hcur, if_pos (Nat.zero_le j), Nat.sub_zero, frameByte]
  rw [hg, hgf]

/-- A frame's four words, one behind the other, are its bytes. -/
theorem four_words_append (f : Frame) :
    (f.toList.drop 0).take 4 ++ (f.toList.drop 4).take 4 ++ (f.toList.drop 8).take 4 ++
      (f.toList.drop 12).take 4 = f.toList := by
  rw [List.drop_zero, ← List.take_add, ← List.take_add, ← List.take_add]
  exact List.take_of_length_le (Vector.length_toList).le

/-- State `s` with window `w` and bytes `d` appended to the frame: what writes of `d` to FIFO_IN_MSG come to. -/
def State.sent (s : State) (w : Mem) (d : List Byte) : State :=
  { s with smc := Smc.appendAll { s.smc with win := w } d, result := .nothing }

theorem exec_write_fifoInMsg (s : State) {e : List Byte} (hlen : e.length = 4) :
    exec (.write 0x80 e) s = .next (s.sent (Mem.writeBytes s.smc.win 0x80 e) e) :=
  exec_write_named s .fifoInMsg hlen rfl

/-- A word written to FIFO_IN_MSG after bytes that do not fill the frame (R162, R190). -/
theorem exec_write_fifoInMsg_sent {s : State} {d : List Byte} (hshort : s.smc.cur + d.length < 16) (w : Mem)
    {e : List Byte} (hlen : e.length = 4) :
    exec (.write 0x80 e) (s.sent w d) = .next (s.sent (Mem.writeBytes w 0x80 e) (d ++ e)) :=
  exec_write_named (s.sent w d) .fifoInMsg hlen
    (Smc.appendAll_store_appendAll (s := { s.smc with win := w }) hshort 0x80 e)

/-- Sent from cursor 0, a whole frame has run (R221). -/
theorem State.sent_frame {s : State} (hcur : s.smc.cur = 0) (w : Mem) {d : List Byte} {f : Frame}
    (hd : d = f.toList) :
    s.sent w d = { s with
      smc := Smc.ran f { s.smc with win := w, fifo := f, cur := 0 }, result := .nothing } := by
  rw [hd, State.sent, Smc.appendAll_frame (s := { s.smc with win := w }) hcur]

/-- A flush word written at cursor 0 is stored and has no other effect (R164, R192). -/
theorem exec_write_fifoInStatus_at_zero {s : State} (hcur : s.smc.cur = 0) {data : List Byte}
    (hlen : data.length = 4) :
    exec (.write 0x84 data) s = .next { s with
      smc := { s.smc with win := Mem.writeBytes s.smc.win 0x84 data }, result := .nothing } :=
  exec_write_named s .fifoInStatus hlen
    ((Smc.fifoInStatusEffect_eq _ data _).trans (if_neg fun h => h.2 hcur))

/-- A word stored in FIFO_IN_MSG's slot leaves the window outside it. -/
theorem Mem.read_writeBytes_fifoInMsg (w : Mem) {d : List Byte} (hlen : d.length = 4) {x : Nat}
    (hx : x < 0x80 ∨ 0x84 ≤ x) : Mem.read (Mem.writeBytes w 0x80 d) x = Mem.read w x := by
  rw [Mem.read_writeBytes, if_neg (by omega)]

/-! ### The obligations -/

/-- Settles O41: the tray the request asks for, at each of its three moves and at none of them. -/
theorem setDvdTrayFollowsTheTable : Obligations.SetDvdTrayFollowsTheTable := by
  intro s args
  refine ⟨trayRequest args[0] s.smc.tray, exec_command (c := .setDvdTray) ?_, fun harg ht => ?_,
    fun harg ht => ?_, fun harg ht => ?_, trayRequest_of_no_move⟩
  · show s.smc.setDvdTray _ = _
    rw [Smc.setDvdTray, frameOf_arg0]
  all_goals
    rw [harg, ht]
    rfl

/-- Settles O42: short of 16 the words only extend the frame, at the 16th byte it runs whole, and the cursor
it leaves at 0 makes the flush's effect none. -/
theorem sendThenFlushDispatchesOnce : Obligations.SendThenFlushDispatchesOnce := by
  refine ⟨fun s args => ⟨fun c => exec_command (Smc.ran_frameOf_code c args s.smc).symm, fun code h => ?_⟩,
    fun code args => ⟨frameByte_frameOf_zero code args, fun j _ => frameByte_frameOf_succ code args j⟩,
    fun s f hcur => ?_⟩
  · rw [Smc.ran_of_unknown (by rwa [frameOf_code])]
    exact exec_of_smcDoes (.unknown code args) s
  · have hlen : ∀ i ≤ 12, ((f.toList.drop i).take 4).length = 4 := fun i hi => by
      rw [List.length_take, List.length_drop, Vector.length_toList]
      omega
    have h0 := hlen 0 (by omega)
    have h4 := hlen 4 (by omega)
    have h8 := hlen 8 (by omega)
    have h12 := hlen 12 le_rfl
    refine ⟨_, _, _, _, _, _, _, exec_write_fifoInMsg s h0, exec_write_fifoInMsg_sent (by simp [hcur]) _ h4,
      exec_write_fifoInMsg_sent (by simp [hcur]) _ h8, exec_write_fifoInMsg_sent (by simp [hcur]) _ h12,
      State.sent_frame hcur _ (four_words_append f), fun x hx => ?_,
      exec_write_fifoInStatus_at_zero ?_ rfl, rfl⟩
    · rw [Mem.read_writeBytes_fifoInMsg _ h12 hx, Mem.read_writeBytes_fifoInMsg _ h8 hx,
        Mem.read_writeBytes_fifoInMsg _ h4 hx, Mem.read_writeBytes_fifoInMsg _ h0 hx]
    · rw [State.sent_frame hcur _ (four_words_append f), Smc.ran_cur]

/-- Settles O37: each of the three queries answers by its own byte. -/
theorem namedQueriesAnswer : Obligations.NamedQueriesAnswer := by
  refine ⟨rfl, ?_⟩
  rintro s args i c a (⟨rfl, rfl, rfl⟩ | ⟨rfl, rfl, rfl⟩ | ⟨rfl, rfl, rfl⟩)
  · exact exec_command_answer (c := .pwronType) args fun _ => rfl
  · exact exec_command_answer (c := .queryTray) args fun _ => rfl
  · exact exec_command_answer (c := .queryAvpack) args fun _ => rfl

/-- Settles O38: FIFO_TEST answers by the pattern, the open queries by code and free payload. -/
theorem openQueriesEnqueueFreeValues : Obligations.OpenQueriesEnqueueFreeValues := by
  intro s args
  refine ⟨exec_command (c := .fifoTest) rfl, fun c hc => ⟨_, exec_command ?_,
    frameByte_frameOf_zero _ _, fun j _ => frameByte_frameOf_succ _ _ j⟩⟩
  rw [Smc.runCommand_of_openQuery hc, Smc.respondFree, frameOf_code]

/-- Settles O39: neither the row nor a dispatch finds a command to run. -/
theorem unknownCommandChangesNothing : Obligations.UnknownCommandChangesNothing := by
  refine fun code h => ⟨fun s args => exec_of_smcDoes (.unknown code args) s, fun d hcode => ?_⟩
  rw [Smc.fifoDispatch_eq_ran, Smc.ran_of_unknown (by rwa [hcode])]

/-- Settles O40: the twelve commands' effect is none. -/
theorem otherSetCommandsChangeNothing : Obligations.OtherSetCommandsChangeNothing :=
  fun s _ _ hc => exec_command (Smc.runCommand_of_setting hc _ s.smc)

end Sys2Proof.Machine

/-! PROOFS of the background agents' family (spec/43_smc_background_agents.md): every operation moves the tray
along the transition relation or leaves it, what a fair run's tray comes to, and the receive bridge's stores. -/

namespace Sys2Proof.Machine

/-! ### The tray's transition relation (R244) -/

theorem TrayArrow.refl (t : Tray) : TrayArrow t t := .inl (.refl t)

/-- Where the relation leads from OPEN_REQUEST. -/
theorem TrayArrow.of_openRequest {t : Tray} (h : TrayArrow .openRequest t) :
    t = .openRequest ∨ t = .opening ∨ t = .closed := by
  cases t <;> simp_all [TrayArrow, CommandArrow]

/-- Where the relation leads from OPENING. -/
theorem TrayArrow.of_opening {t : Tray} (h : TrayArrow .opening t) : t = .opening ∨ t = .opened := by
  cases t <;> simp_all [TrayArrow, CommandArrow]

/-- Where the relation leads from CLOSING. -/
theorem TrayArrow.of_closing {t : Tray} (h : TrayArrow .closing t) : t = .closing ∨ t = .closed := by
  cases t <;> simp_all [TrayArrow, CommandArrow]

/-- The pieces of a Write can run commands (FIFO_IN_MSG, FIFO_IN_STATUS), so it moves the tray as they do. -/
theorem Smc.busWritePiece_tray (p : Piece) (d : List Byte) (s : Smc) :
    CommandArrow s.tray (s.busWritePiece p d).tray := by
  unfold Smc.busWritePiece
  split
  · exact Smc.effect_tray _ _ d (s.store _ d)
  · exact .refl _

/-- One Write can dispatch several frames, and commands' arrows compose. -/
theorem Smc.busWrite_tray (addr : Nat) (buf : List Byte) (s : Smc) :
    CommandArrow s.tray (s.busWrite addr buf).tray :=
  Smc.busWrite_induct (fun t => CommandArrow s.tray t.tray) addr buf s
    (fun p d t _ _ _ _ h => h.trans (t.busWritePiece_tray p d)) (.refl _)

/-- A tray step changes no field but the tray (R241 to R243). -/
theorem Smc.trayStep_eq (a b : Tray) (s : Smc) :
    s.trayStep a b = { s with tray := if s.tray = a then b else s.tray } := by
  unfold Smc.trayStep
  split
  · rfl
  · rfl

/-- A tray step moves along its own arrow or leaves the tray. -/
theorem Smc.trayStep_tray {a b : Tray} (hab : TrayArrow a b) (s : Smc) :
    TrayArrow s.tray (s.trayStep a b).tray := by
  rw [Smc.trayStep_eq]
  split
  · next ha => exact ha ▸ hab
  · exact .refl _

/-- Every operation on the SMC moves the tray along the relation or leaves it. -/
theorem SmcDoes.moves_tray {i : Instr} {f : Smc → Smc} {g : Smc → Result} (hd : SmcDoes i f g) (s : Smc) :
    TrayArrow s.tray (f s).tray := by
  cases hd with
  | read addr len => exact s.busRead_tray addr len ▸ .refl _
  | write addr buf => exact .inl (s.busWrite_tray addr buf)
  | memSet addr value len => exact .inl (s.busWrite_tray addr _)
  | pieceRead r l count => exact s.rule_tray r ▸ .refl _
  | pieceWrite r l data => exact .inl (Smc.effect_tray r _ data (s.store _ data))
  | command c args => exact .inl (Smc.runCommand_tray c _ s)
  | trayOpenRequest => exact s.trayStep_tray (.inr (.inl ⟨rfl, rfl⟩))
  | trayOpening => exact s.trayStep_tray (.inr (.inr (.inl ⟨rfl, rfl⟩)))
  | trayClosing => exact s.trayStep_tray (.inr (.inr (.inr ⟨rfl, rfl⟩)))
  | configRead | configWrite | storageRead | storageWrite | unknown | uartRx => exact .refl _

/-- Settles O15: an operation on the SMC moves the tray along the relation, one on the IIC does not touch it. -/
theorem trayMovesAlongTheRelation : Obligations.TrayMovesAlongTheRelation := by
  intro i s t h
  rcases exec_cases h with ⟨f, g, hd, rfl⟩ | ⟨f, g, -, rfl⟩
  · exact hd.moves_tray s.smc
  · exact .refl _

/-! ### The tray worker in a fair run (R245) -/

/-- A step moves the tray along the relation, or it is an SMC reset, which closes the tray (R66). -/
theorem step_moves_tray {s t : State} (h : step s = .next t) :
    TrayArrow s.smc.tray t.smc.tray ∨
      (∃ inputs, s.entry = some (.smcReset inputs)) ∧ t.smc.tray = .closed := by
  rcases step_cases h with ⟨-, rfl⟩ | ⟨bytes, rest, i, -, -, hexec⟩ | ⟨inputs, rest, hin, rfl⟩ |
    ⟨whoami, rest, -, rfl⟩
  · exact .inl (.refl _)
  · exact .inl (trayMovesAlongTheRelation i (s.advance rest) t hexec)
  · exact .inr ⟨⟨inputs, by rw [State.entry, hin, List.head?_cons]⟩, rfl⟩
  · exact .inl (.refl _)

/-- The same of a run's step: what the agents deliver before it does not touch the tray. -/
theorem IsRun.moves_tray {delivered : Nat → List Input} {run : Nat → State} (hr : IsRun delivered run) (m : Nat) :
    TrayArrow (run m).smc.tray (run (m + 1)).smc.tray ∨
      (∃ inputs, ((run m).deliver (delivered m)).entry = some (.smcReset inputs)) ∧
        (run (m + 1)).smc.tray = .closed :=
  step_moves_tray (hr m)

/-- The worker's step from `a` to `b`, run in any tray state. -/
theorem exec_trayStep {i : Instr} {a b : Tray} (hd : SmcDoes i (Smc.trayStep a b) fun _ => .nothing) (s : State) :
    exec i s = .next { s with
      smc := { s.smc with tray := if s.smc.tray = a then b else s.smc.tray }
      result := .nothing } := by
  rw [exec_of_smcDoes hd, Smc.trayStep_eq]

/-- The worker's step takes the tray out of the state that enables it. -/
theorem exec_trayStep_leaves {i : Instr} {a b : Tray} (hd : SmcDoes i (Smc.trayStep a b) fun _ => .nothing)
    (hne : b ≠ a) (s t : State) (hs : s.smc.tray = a) (h : exec i s = .next t) : t.smc.tray ≠ a := by
  rw [exec_trayStep hd, if_pos hs] at h
  cases h
  exact hne

/-- Settles O43: from OPEN_REQUEST the tray can only go to OPENING or CLOSED, from OPENING only to OPEN or by a
reset, and fairness does not let it stay. -/
theorem trayOpeningSteps : Obligations.TrayOpeningSteps := by
  refine ⟨fun s x hx => ?_, fun delivered run hr hf n => ⟨fun hn => ?_, fun hn => ?_⟩⟩
  · simp only [List.mem_cons, List.not_mem_nil, or_false] at hx
    rcases hx with rfl | rfl
    · exact exec_trayStep .trayOpenRequest s
    · exact exec_trayStep .trayOpening s
  · refine leads_of_fair hr hf rfl (fun m hm => .inr ?_) (exec_trayStep_leaves .trayOpenRequest nofun) hn
    rcases hr.moves_tray m with harrow | ⟨-, hclosed⟩
    · exact (hm ▸ harrow).of_openRequest
    · exact .inr (.inr hclosed)
  · have hleads : ∃ m, n ≤ m ∧ ((run m).smc.tray = .opened ∨
        ∃ inputs, ((run m).deliver (delivered m)).entry = some (.smcReset inputs)) := by
      refine leads_of_fair hr hf rfl (fun m hm => ?_) (exec_trayStep_leaves .trayOpening nofun) hn
      rcases hr.moves_tray m with harrow | ⟨hreset, -⟩
      · exact .inr ((hm ▸ harrow).of_opening.imp_right .inl)
      · exact .inl (.inr hreset)
    obtain ⟨m, hle, hopen | ⟨inputs, hreset⟩⟩ := hleads
    · exact .inl ⟨m, hle, hopen⟩
    · exact .inr ⟨m, inputs, hle, hreset⟩

/-- Settles O44: from CLOSING the tray can only go to CLOSED, by the step or by a reset, and fairness does not
let it stay. -/
theorem trayClosingStep : Obligations.TrayClosingStep := by
  refine ⟨exec_trayStep .trayClosing, fun delivered run hr hf n hn => ?_⟩
  refine leads_of_fair hr hf rfl (fun m hm => .inr ?_) (exec_trayStep_leaves .trayClosing nofun) hn
  rcases hr.moves_tray m with harrow | ⟨-, hclosed⟩
  · exact (hm ▸ harrow).of_closing
  · exact .inr hclosed

/-! ### The receive bridge (R246) -/

/-- A byte read after a word is stored: a lane of the word in its slot, the old byte elsewhere. -/
theorem Mem.read_writeBytes_word (m : Mem) (a x : Nat) (w : Word) :
    Mem.read (Mem.writeBytes m a (wordBytes w)) x =
      if a ≤ x ∧ x < a + 4 then lane w (x - a) else Mem.read m x := by
  rw [Mem.read_writeBytes, wordBytes_length]
  split
  · rw [List.getD, wordBytes_getElem?, if_pos (by omega), Option.getD_some]
  · rfl

/-- Settles O45: the two slots, 0x10 and 0x18, have no byte in common. -/
theorem uartReceiveStoresTwoWords : Obligations.UartReceiveStoresTwoWords := by
  intro s d st
  refine ⟨Mem.writeBytes (Mem.writeBytes s.smc.win 0x10 (wordBytes d)) 0x18 (wordBytes st),
    exec_of_smcDoes (.uartRx d st) s, fun x => ?_⟩
  rw [Mem.read_writeBytes_word, Mem.read_writeBytes_word]
  by_cases hin : 0x10 ≤ x ∧ x < 0x14
  · rw [if_neg (by omega), if_pos hin, if_pos hin]
  · rw [if_neg hin, if_neg hin]

end Sys2Proof.Machine

/-! PROOFS of the IIC register port's family (spec/44_iic_register_access.md): what a piece read or write of
each named register does to its block, that a port operation is its pieces in ascending order, the bytes a
readInterrupt returns and a writeInterrupt lays, and which records can leave a queue. -/

namespace Sys2Proof

theorem IicReg.offset_injective : Function.Injective IicReg.offset := by
  intro r r' h
  have hr := IicReg.ofOffset_offset r
  rw [h, IicReg.ofOffset_offset] at hr
  exact (Option.some.inj hr).symm

end Sys2Proof

namespace Sys2Proof.Machine

/-! ### Pieces on named registers -/

/-- A named piece read applies the register's rule once and returns lanes of its value (R262). -/
theorem exec_iicRead (s : State) (r : IicReg) (c : Fin 6) {l : Fin 8} {count : Nat}
    (hfit : pieceFits 8 l.val count = true) :
    exec (Instr.iicRead r c l count) s = .next { s with
      iic := s.iic.setBlock c ((s.iic.block c).rule r).2
      result := .data ((List.range count).map fun j => blane ((s.iic.block c).rule r).1 (l.val + j)) } := by
  obtain ⟨-, hfit⟩ := (pieceFits_iff _ _ _).mp hfit
  rw [exec_of_iicDoes (.pieceRead r c l count) s, Iic.readPiece, lanes_valBytes _ _ _ hfit]

/-- A named piece write stores the merged value, then has the register's effect with it (R263). -/
theorem exec_iicWrite {s : State} {r : IicReg} {c : Fin 6} {l : Fin 8} {data : List Byte} {b : Block}
    (h : ((s.iic.block c).set r (mergeLanes ((s.iic.block c).get r) l.val data)).effect r
      (mergeLanes ((s.iic.block c).get r) l.val data) = b) :
    exec (Instr.iicWrite r c l data) s =
      .next { s with iic := s.iic.setBlock c b, result := .nothing } :=
  h ▸ exec_of_iicDoes (.pieceWrite r c l data) s

/-- The value a piece write stores, lane by lane, for a piece that fits (R263). -/
theorem blane_mergeLanes_of_fits (v : DWord) {l : Fin 8} {data : List Byte}
    (hfit : pieceFits 8 l.val data.length = true) (j : Nat) (hj : j < 8) :
    blane (mergeLanes v l.val data) j =
      if l.val ≤ j ∧ j < l.val + data.length then data.getD (j - l.val) 0 else blane v j :=
  blane_mergeLanes v _ data j hj ((pieceFits_iff _ _ _).mp hfit).2

/-- An end of interrupt where a best ACKED record is known, field by field (R273). -/
theorem endOfInterrupt_eq_of_best {b : Block} {i : Nat} {m : IntRecord}
    (h : IsBest IntRecord.ack b.q i m) :
    endOfInterrupt b =
      { regs := b.regs
        q := b.q.eraseIdx i
        sig := if b.q.eraseIdx i = [] then false else b.sig } := by
  rw [endOfInterrupt_of_best b i m h, Block.withQueue]
  simp only [List.isEmpty_iff]

/-- Once the record at `i` of an all-PENDING queue is marked ACKED, it is the best ACKED record: the only one. -/
theorem isBest_ack_set {q : List IntRecord} {i : Nat} {r : IntRecord} (hi : i < q.length)
    (hq : ∀ m ∈ q, m.ack = false) (hr : r.ack = true) : IsBest IntRecord.ack (q.set i r) i r := by
  refine ⟨List.getElem?_set_self hi, hr, fun j m hj hm => ?_⟩
  by_cases hij : i = j
  · subst hij
    rw [List.getElem?_set_self hi, Option.some.injEq] at hj
    exact .inr ⟨congrArg IntRecord.prio hj, le_rfl⟩
  · rw [List.getElem?_set_ne hij] at hj
    have hpending := hq m (List.mem_of_getElem? hj)
    rw [hm] at hpending
    contradiction

/-! ### Port operations and pieces (R261) -/

/-- A writeInterrupt cut at a slot boundary is that of the first part and then of the second. Where the first
part runs out of the space, nothing of the second is in it (R83). -/
theorem Iic.busWrite_append (i : Iic) {addr : Nat} {b1 : List Byte} (b2 : List Byte)
    (h : (addr + b1.length) % 8 = 0) :
    i.busWrite addr (b1 ++ b2) = (i.busWrite addr b1).busWrite (addr + b1.length) b2 := by
  have hle := clamp_le addr b1.length Params.iicSize
  simp only [Iic.busWrite, List.length_append, clamp_add]
  rcases clamp_full_or addr b1.length b2.length Params.iicSize with hfull | hnone
  · rw [hfull, pieces_append 8 addr _ _ (by decide) h, List.take_length_add_append, List.take_length]
    exact Iic.writePieces_append _ _ _ _ _ (pieces_sum 8 _ _ (by decide))
  · rw [hnone, Nat.add_zero, List.take_append_of_le_length hle]
    rfl

/-- A readInterrupt cut at a slot boundary is that of the first part and then of the second, its bytes those of
the two in order. -/
theorem Iic.busRead_append (i : Iic) {addr n1 : Nat} (n2 : Nat) (h : (addr + n1) % 8 = 0) :
    i.busRead addr (n1 + n2) =
      ((i.busRead addr n1).1 ++ ((i.busRead addr n1).2.busRead (addr + n1) n2).1,
        ((i.busRead addr n1).2.busRead (addr + n1) n2).2) := by
  have hle := clamp_le addr n1 Params.iicSize
  simp only [Iic.busRead, clamp_add]
  rcases clamp_full_or addr n1 n2 Params.iicSize with hfull | hnone
  · rw [hfull, pieces_append 8 addr _ _ (by decide) h, Iic.readPieces_append, Nat.add_sub_add_left,
      Nat.sub_self, List.replicate_zero, List.append_nil, List.append_assoc]
  · rw [hnone, Nat.add_zero]
    simp only [pieces_zero, Iic.readPieces, List.nil_append, Nat.sub_zero,
      List.append_assoc, List.replicate_append_replicate, Nat.sub_add_comm hle]

/-! ### Addresses and slots (R105, R260) -/

/-- An address names its block, register and lane (R105). -/
theorem iicAddress_injective {c c' : Fin 6} {r r' : IicReg} {l l' : Nat} (hl : l < 8) (hl' : l' < 8)
    (h : 0x1000 * c.val + r.offset + l = 0x1000 * c'.val + r'.offset + l') : c = c' ∧ r = r' ∧ l = l' := by
  have hr := r.offset_range
  have hr' := r'.offset_range
  exact ⟨Fin.ext (by omega), IicReg.offset_injective (by omega), by omega⟩

/-- What a piece read does to a block: the rule of the register of that block it is on, or nothing. -/
theorem Iic.busReadPiece_block {p : Piece} (hp : p.Within 8 Params.iicSize) (i : Iic) (c : Fin 6) :
    (∃ r : IicReg, p.base = 0x1000 * c.val + r.offset ∧
      (i.busReadPiece p).2.block c = ((i.block c).rule r).2) ∨
    (i.busReadPiece p).2.block c = i.block c := by
  rcases p.iic_cases hp with ⟨d, r, hb⟩ | ⟨d, slot, hs, hb⟩
  · rw [hb, Iic.busReadPiece_named, Iic.readPiece_block]
    by_cases hcd : c = d
    · subst hcd
      exact .inl ⟨r, rfl, if_pos rfl⟩
    · exact .inr (if_neg hcd)
  · rw [hb, Iic.busReadPiece_unnamed _ _ hs]
    exact .inr rfl

/-- What a piece write does to a block: the store in the register of that block it is on, then its effect; or
nothing, where it is on none. -/
theorem Iic.busWritePiece_block {p : Piece} (hp : p.Within 8 Params.iicSize) (d : List Byte) (i : Iic)
    (c : Fin 6) :
    (∃ r : IicReg, p.base = 0x1000 * c.val + r.offset ∧
      (i.busWritePiece p d).block c =
        ((i.block c).set r (mergeLanes ((i.block c).get r) p.lane d)).effect r
          (mergeLanes ((i.block c).get r) p.lane d)) ∨
    (∀ r : IicReg, p.base ≠ 0x1000 * c.val + r.offset) ∧ (i.busWritePiece p d).block c = i.block c := by
  rcases p.iic_cases hp with ⟨e, r, hb⟩ | ⟨e, slot, hs, hb⟩
  · rw [hb, Iic.busWritePiece_named, Iic.writePiece_block]
    by_cases hce : c = e
    · subst hce
      exact .inl ⟨r, rfl, if_pos rfl⟩
    · exact .inr ⟨fun r' h => hce (iicAddress_injective (l := 0) (l' := 0) (by decide) (by decide) h.symm).1,
        if_neg hce⟩
  · rw [hb, Iic.busWritePiece_unnamed _ _ hs]
    refine .inr ⟨fun r h => ?_, rfl⟩
    have hfree := (iicSlotUnnamed_iff slot).mp hs r
    have hr := r.offset_range
    have h : 0x1000 * e.val + 8 * slot.val = 0x1000 * c.val + r.offset := h
    omega

/-! ### A run of bytes and its pieces (R261) -/

/-- No byte of an operation at `addr` of length `len` falls on the addresses `lo .. hi - 1`. -/
def Avoids (addr len lo hi : Nat) : Prop := ∀ x, addr ≤ x → x < addr + len → x < lo ∨ hi ≤ x

/-- Where an operation avoids a run of whole slots, the slot of each of its pieces lies outside the run. -/
theorem Avoids.piece {addr len lo hi size : Nat} (h : Avoids addr len lo hi) (hlo : lo % 8 = 0) (hhi : hi % 8 = 0)
    {p : Piece} (hp : p.Within 8 size) (hfirst : addr ≤ p.base + p.lane)
    (hlast : p.base + p.lane + p.count ≤ addr + len) : p.base < lo ∨ hi ≤ p.base := by
  have hbase := hp.base
  have hcount := hp.count
  have hslot := hp.slot
  have hx := h (p.base + p.lane) hfirst (by omega)
  omega

/-- Induction over the pieces of a run inside the IIC's space, the first piece taken off at each step. -/
theorem iicPieces_induct {P : Nat → Nat → List Piece → Prop} (nil : ∀ addr, P addr 0 [])
    (cons : ∀ (p : Piece) (n : Nat) (ps : List Piece), p.Within 8 Params.iicSize →
      P (p.base + p.lane + p.count) n ps → P (p.base + p.lane) (p.count + n) (p :: ps))
    (addr n : Nat) (hfit : 0 < n → addr + n ≤ Params.iicSize) : P addr n (pieces 8 addr n) := by
  induction n using Nat.strong_induction_on generalizing addr with
  | _ n ih =>
    by_cases h0 : n = 0
    · subst h0
      exact nil addr
    · rw [pieces_cons 8 addr n (by decide) h0]
      generalize hk : min (8 - addr % 8) n = k
      have hbase : addr - addr % 8 + addr % 8 = addr := Nat.sub_add_cancel (Nat.mod_le _ _)
      have hcount : k + (n - k) = n := by omega
      have hp : Piece.Within ⟨addr - addr % 8, addr % 8, k⟩ 8 Params.iicSize := by
        constructor <;> dsimp only <;> omega
      have hstep := cons _ (n - k) (pieces 8 (addr + k) (n - k)) hp
      simp only [hbase, hcount] at hstep
      exact hstep (ih (n - k) (by omega) (addr + k) (by omega))

/-! ### What a readInterrupt returns and leaves (R262) -/

/-- What a read may show at address `x`: a register's lane (ACK's is O48's), zero where no register is. -/
structure ShownAt (i : Iic) (x : Nat) (b : Byte) : Prop where
  named : ∀ (c : Fin 6) (r : IicReg) (l : Nat), l < 8 → r ≠ .ack → x = 0x1000 * c.val + r.offset + l →
    b = blane ((i.block c).get r) l
  unnamed : 0x6000 ≤ x ∨ (∀ r : IicReg, x % 0x1000 < r.offset ∨ r.offset + 8 ≤ x % 0x1000) → b = 0x00

/-- `bytes`, read at `addr`, are what a read may show there. -/
def ShowsRegisters (i : Iic) (addr : Nat) (bytes : List Byte) : Prop :=
  ∀ j < bytes.length, ShownAt i (addr + j) (bytes.getD j 0)

/-- Two runs that each show the registers, one behind the other. -/
theorem ShowsRegisters.append {i : Iic} {addr : Nat} {d e : List Byte} (hd : ShowsRegisters i addr d)
    (he : ShowsRegisters i (addr + d.length) e) : ShowsRegisters i addr (d ++ e) := by
  intro j hj
  rw [List.length_append] at hj
  by_cases hjd : j < d.length
  · rw [List.getD_append _ _ _ _ hjd]
    exact hd j hjd
  · have hsum : addr + d.length + (j - d.length) = addr + j := by omega
    rw [List.getD_append_right _ _ _ _ (by omega), ← hsum]
    exact he (j - d.length) (by omega)

/-- Only the registers other than ACK decide what a read may show. -/
theorem ShowsRegisters.of_get {i t : Iic} {addr : Nat} {d : List Byte}
    (hget : ∀ (c : Fin 6) (r : IicReg), r ≠ .ack → (t.block c).get r = (i.block c).get r)
    (h : ShowsRegisters t addr d) : ShowsRegisters i addr d := fun j hj =>
  ⟨fun c r l hl hr hx => hget c r hr ▸ (h j hj).named c r l hl hr hx, (h j hj).unnamed⟩

/-- Zeros show every address at which no register is. -/
theorem showsRegisters_replicate (i : Iic) {addr n : Nat}
    (hfree : ∀ j < n, ∀ (c : Fin 6) (r : IicReg) (l : Nat), l < 8 → addr + j ≠ 0x1000 * c.val + r.offset + l) :
    ShowsRegisters i addr (List.replicate n 0) := by
  intro j hj
  rw [List.length_replicate] at hj
  rw [List.getD_replicate _ hj]
  exact ⟨fun c r l hl _ hx => absurd hx (hfree j hj c r l hl), fun _ => rfl⟩

/-- Lanes of a register's read rule show that register's slot (R262). -/
theorem showsRegisters_lanes (i : Iic) (c : Fin 6) (r : IicReg) {l n : Nat} (hfit : l + n ≤ 8) :
    ShowsRegisters i (0x1000 * c.val + r.offset + l) (lanes (valBytes ((i.block c).rule r).1) l n) := by
  intro j hj
  have hr := r.offset_range
  rw [lanes_valBytes _ _ _ hfit] at hj ⊢
  rw [List.length_map, List.length_range] at hj
  refine ⟨fun c' r' l' hl' hack hx => ?_, fun hout => ?_⟩
  · obtain ⟨rfl, rfl, rfl⟩ := iicAddress_injective (by omega) hl' ((Nat.add_assoc _ _ _).symm.trans hx)
    rw [Block.rule_shadow r _ hack]
    simp [List.getD, hj]
  · rcases hout with hout | hout
    · omega
    · have := hout r
      omega

/-- A piece read hands back as many bytes as the piece has, and shows the registers (R262, R264). -/
theorem Iic.busReadPiece_bytes {p : Piece} (hp : p.Within 8 Params.iicSize) (i : Iic) :
    (i.busReadPiece p).1.length = p.count ∧ ShowsRegisters i (p.base + p.lane) (i.busReadPiece p).1 := by
  have hslot := hp.slot
  rcases p.iic_cases hp with ⟨c, r, hb⟩ | ⟨c, slot, hs, hb⟩
  · rw [hb, Iic.busReadPiece_named]
    refine ⟨?_, showsRegisters_lanes i c r hslot⟩
    rw [Iic.readPiece, lanes_valBytes _ _ _ hslot, List.length_map, List.length_range]
  · rw [hb, Iic.busReadPiece_unnamed _ _ hs]
    refine ⟨List.length_replicate, showsRegisters_replicate i fun j hj c' r l hl => ?_⟩
    have hfree := (iicSlotUnnamed_iff slot).mp hs r
    have hr := r.offset_range
    show 0x1000 * c.val + 8 * slot.val + p.lane + j ≠ _
    have hj : j < p.count := hj
    omega

/-- The pieces `ps`, read in order from `addr`, hand back `n` bytes, which show the registers. -/
def PiecesShow (addr n : Nat) (ps : List Piece) : Prop :=
  ∀ i : Iic, (Iic.readPieces ps i).1.length = n ∧ ShowsRegisters i addr (Iic.readPieces ps i).1

/-- The pieces of a run hand back its bytes, which show the registers (R261, R262). -/
theorem piecesShow_pieces (addr n : Nat) (hfit : 0 < n → addr + n ≤ Params.iicSize) :
    PiecesShow addr n (pieces 8 addr n) := by
  refine iicPieces_induct (fun addr i => ⟨rfl, fun j hj => absurd hj (Nat.not_lt_zero j)⟩)
    (fun p n ps hp ih i => ?_) addr n hfit
  obtain ⟨hlen, hshows⟩ := i.busReadPiece_bytes hp
  obtain ⟨hlen', hshows'⟩ := ih (i.busReadPiece p).2
  rw [Iic.readPieces]
  refine ⟨by rw [List.length_append, hlen, hlen'], hshows.append ?_⟩
  rw [hlen]
  exact hshows'.of_get fun c r hr => i.busReadPiece_get p hp c r hr

/-- A readInterrupt hands back `len` bytes, which show the registers (R83, R262). -/
theorem Iic.busRead_bytes (addr len : Nat) (i : Iic) :
    (i.busRead addr len).1.length = len ∧ ShowsRegisters i addr (i.busRead addr len).1 := by
  have hle := clamp_le addr len Params.iicSize
  obtain ⟨hlen, hshows⟩ := piecesShow_pieces addr _ (clamp_fits addr len Params.iicSize) i
  refine ⟨by simp only [Iic.busRead, List.length_append, List.length_replicate, hlen]; omega,
    hshows.append (showsRegisters_replicate i fun j hj c r l hl => ?_)⟩
  have hout := lt_clamp_iff addr len Params.iicSize (clamp addr len Params.iicSize + j)
  have hr := r.offset_range
  have hsize : Params.iicSize = 0x6000 := rfl
  rw [hlen]
  omega

/-- A block that differs from another at most in ACK and in the records' ack flags. -/
structure Block.SameButAck (b b' : Block) : Prop where
  sig : b'.sig = b.sig
  records : b'.q.map (fun r => (r.type, r.prio)) = b.q.map (fun r => (r.type, r.prio))
  get : ∀ r : IicReg, r ≠ .ack → b'.get r = b.get r

theorem Block.SameButAck.acknowledge {b b' : Block} (h : b.SameButAck b') :
    b.SameButAck (acknowledge .ack b').2 := by
  rcases acknowledge_cases .ack b' with ⟨i, m, hbest, e⟩ | ⟨-, e⟩ <;> rw [e]
  · refine ⟨h.sig, Eq.trans ?_ h.records, fun r hr => Eq.trans ?_ (h.get r hr)⟩
    · obtain ⟨hi, rfl⟩ := List.getElem?_eq_some_iff.mp hbest.1
      rw [List.map_set]
      have hself := List.set_getElem_self (as := b'.q.map fun r => (r.type, r.prio)) (i := i) (by simpa using hi)
      rwa [List.getElem_map] at hself
    · exact (Regs.get_set b'.regs .ack r _).trans (if_neg hr)
  · exact ⟨h.sig, h.records, fun r hr => (Block.get_set b' .ack r _).trans ((if_neg hr).trans (h.get r hr))⟩

theorem Block.SameButAck.rule {b b' : Block} (h : b.SameButAck b') (r : IicReg) :
    b.SameButAck (b'.rule r).2 := by
  by_cases hr : r = .ack
  · subst hr
    exact h.acknowledge
  · rw [Block.rule_shadow r b' hr]
    exact h

/-- A readInterrupt changes at most ACK and the records' ack flags of a block (R262, R270). -/
theorem Iic.busRead_sameButAck (addr len : Nat) (i : Iic) (c : Fin 6) :
    (i.block c).SameButAck ((i.busRead addr len).2.block c) := by
  refine Iic.busRead_induct (fun t => (i.block c).SameButAck (t.block c)) addr len i
    (fun p t hp _ _ ht => ?_) ⟨rfl, rfl, fun _ _ => rfl⟩
  rcases t.busReadPiece_block hp c with ⟨r, -, e⟩ | e <;> rw [e]
  · exact ht.rule r
  · exact ht

/-- A readInterrupt that does not touch a block's ACK slot leaves the block as it is (R262). -/
theorem Iic.busRead_block_of_not_ack {addr len : Nat} (i : Iic) (c : Fin 6)
    (hack : Avoids addr len (0x1000 * c.val + 0x50) (0x1000 * c.val + 0x58)) :
    (i.busRead addr len).2.block c = i.block c := by
  refine Iic.busRead_induct (fun t => t.block c = i.block c) addr len i (fun p t hp hlo hhi ht => ?_) rfl
  rcases t.busReadPiece_block hp c with ⟨r, hbase, e⟩ | e <;> rw [e]
  · have hr : r ≠ .ack := by
      rintro rfl
      have hout := hack.piece (by omega) (by omega) hp hlo hhi
      have hoff : IicReg.ack.offset = 0x50 := rfl
      omega
    rw [Block.rule_shadow r _ hr]
    exact ht
  · exact ht

/-! ### What a writeInterrupt lays and leaves (R263) -/

/-- The byte at address `x`, `old` before, after bytes `d` are laid at addresses `a ..`. -/
def laidByte (a : Nat) (d : List Byte) (x : Nat) (old : Byte) : Byte :=
  if a ≤ x ∧ x < a + d.length then d.getD (x - a) 0 else old

theorem laidByte_append (a : Nat) (d e : List Byte) (x : Nat) (old : Byte) :
    laidByte a (d ++ e) x old = laidByte (a + d.length) e x (laidByte a d x old) := by
  unfold laidByte
  rw [List.length_append]
  by_cases he : a + d.length ≤ x ∧ x < a + d.length + e.length
  · rw [if_pos he, if_pos (by omega), List.getD_append_right _ _ _ _ (by omega), Nat.sub_add_eq]
  · rw [if_neg he]
    by_cases hd : a ≤ x ∧ x < a + d.length
    · rw [if_pos hd, if_pos (by omega), List.getD_append _ _ _ _ (by omega)]
    · rw [if_neg hd, if_neg (by omega)]

/-- The registers after a write effect with the value just stored: the end of interrupt changes none, the copy
CURRENT_TSK_PRI (R273, R275). -/
theorem Block.effect_set_get (b : Block) (r r' : IicReg) (v : DWord)
    (hpri : r' = .currentTskPri → r ≠ .eoiSetPri) :
    ((b.set r v).effect r v).get r' = if r' = r then v else b.get r' := by
  by_cases h1 : r = .eoi
  · subst h1
    rw [Block.effect_eoi, endOfInterrupt_get, Block.get_set]
  by_cases h2 : r = .eoiSetPri
  · have hr' : r' ≠ .currentTskPri := fun h => hpri h h2
    subst h2
    rw [Block.effect_eoiSetPri, Block.get_set, if_neg hr', endOfInterrupt_get, Block.get_set]
  · rw [Block.effect_shadow r v _ h1 h2, Block.get_set]

/-- A piece write lays its bytes over the registers (R263). -/
theorem Iic.busWritePiece_lane {p : Piece} (hp : p.Within 8 Params.iicSize) {d : List Byte}
    (hd : d.length = p.count) (i : Iic) {c : Fin 6} {r : IicReg} {l : Nat} (hl : l < 8)
    (hpri : r = .currentTskPri → p.base ≠ 0x1000 * c.val + 0x68) :
    blane (((i.busWritePiece p d).block c).get r) l =
      laidByte (p.base + p.lane) d (0x1000 * c.val + r.offset + l) (blane ((i.block c).get r) l) := by
  have hslot := hp.slot
  have hr := r.offset_range
  unfold laidByte
  rcases i.busWritePiece_block hp d c with ⟨r', hbase, e⟩ | ⟨hbase, e⟩ <;> rw [e]
  · have hr' := r'.offset_range
    have hcopy : r = .currentTskPri → r' ≠ .eoiSetPri := fun h he => hpri h (by rw [hbase, he]; rfl)
    rw [Block.effect_set_get _ _ _ _ hcopy]
    by_cases hrr : r = r'
    · subst hrr
      rw [if_pos rfl, blane_mergeLanes _ _ _ _ hl (by omega), hbase]
      have hsub : 0x1000 * c.val + r.offset + l - (0x1000 * c.val + r.offset + p.lane) = l - p.lane := by
        omega
      rw [hsub]
      exact if_congr (by omega) rfl rfl
    · have hoff : r.offset ≠ r'.offset := fun h => hrr (IicReg.offset_injective h)
      rw [if_neg hrr, if_neg (by omega)]
  · have hne := hbase r
    have hmod := hp.base
    rw [if_neg (by omega)]

/-- The pieces `ps`, written in order from `addr` with `n` bytes, lay them over lane `l` of a register;
CURRENT_TSK_PRI is excepted where they touch EOI_SET_CPU_CURRENT_TSK_PRI (R275). -/
def PiecesLay (c : Fin 6) (r : IicReg) (l addr n : Nat) (ps : List Piece) : Prop :=
  ∀ (d : List Byte) (i : Iic), d.length = n →
    (r = .currentTskPri → Avoids addr n (0x1000 * c.val + 0x68) (0x1000 * c.val + 0x70)) →
    blane (((Iic.writePieces ps d i).block c).get r) l =
      laidByte addr d (0x1000 * c.val + r.offset + l) (blane ((i.block c).get r) l)

/-- The pieces of a run lay its bytes over the registers (R261, R263). -/
theorem piecesLay_pieces (c : Fin 6) (r : IicReg) {l : Nat} (hl : l < 8) (addr n : Nat)
    (hfit : 0 < n → addr + n ≤ Params.iicSize) : PiecesLay c r l addr n (pieces 8 addr n) := by
  refine iicPieces_induct (fun addr d i hd _ => ?_) (fun p n ps hp ih d i hd hpri => ?_) addr n hfit
  · obtain rfl := List.eq_nil_of_length_eq_zero hd
    exact (if_neg (by simp)).symm
  · have htake : (d.take p.count).length = p.count := by rw [List.length_take]; omega
    have hdrop : (d.drop p.count).length = n := by rw [List.length_drop]; omega
    have hslot : r = .currentTskPri → p.base ≠ 0x1000 * c.val + 0x68 := fun h => by
      have hout := (hpri h).piece (by omega) (by omega) hp le_rfl (by omega)
      omega
    rw [Iic.writePieces, ih _ _ hdrop fun h x hlo hhi => hpri h x (by omega) (by omega),
      Iic.busWritePiece_lane hp htake i hl hslot]
    conv_rhs => rw [← List.take_append_drop p.count d, laidByte_append, htake]

/-- Laying only the in-range bytes of a buffer over a register discards no byte of it: the register is in
range (R83). -/
theorem laidByte_take_clamp {addr size x : Nat} (d : List Byte) (old : Byte) (hx : x < size) :
    laidByte addr (d.take (clamp addr d.length size)) x old = laidByte addr d x old := by
  have hclamp := lt_clamp_iff addr d.length size (x - addr)
  unfold laidByte
  rw [List.length_take, min_eq_left (clamp_le addr d.length size)]
  by_cases hin : addr ≤ x ∧ x < addr + d.length
  · have hj : x - addr < clamp addr d.length size := by omega
    rw [if_pos hin, if_pos (by omega)]
    simp [List.getD, hj]
  · rw [if_neg hin, if_neg (by omega)]

/-- A writeInterrupt lays its bytes over the registers, CURRENT_TSK_PRI excepted where it touches
EOI_SET_CPU_CURRENT_TSK_PRI (R263, R275). -/
theorem Iic.busWrite_lane (addr : Nat) (d : List Byte) (i : Iic) (c : Fin 6) (r : IicReg) {l : Nat} (hl : l < 8)
    (hpri : r = .currentTskPri → Avoids addr d.length (0x1000 * c.val + 0x68) (0x1000 * c.val + 0x70)) :
    blane (((i.busWrite addr d).block c).get r) l =
      laidByte addr d (0x1000 * c.val + r.offset + l) (blane ((i.block c).get r) l) := by
  have hle := clamp_le addr d.length Params.iicSize
  have hr := r.offset_range
  have hin : 0x1000 * c.val + r.offset + l < Params.iicSize := by
    show _ < 0x6000
    omega
  rw [← laidByte_take_clamp d _ hin]
  exact piecesLay_pieces c r hl addr _ (clamp_fits addr d.length Params.iicSize) _ i
    (by rw [List.length_take]; omega) fun h x hlo hhi => hpri h x hlo (by omega)

/-- A writeInterrupt that touches neither EOI slot of a block leaves its queue and signal flag (R263, R273). -/
theorem Iic.busWrite_queue_of_not_eoi {addr : Nat} {d : List Byte} (i : Iic) (c : Fin 6)
    (heoi : Avoids addr d.length (0x1000 * c.val + 0x60) (0x1000 * c.val + 0x70)) :
    ((i.busWrite addr d).block c).q = (i.block c).q ∧ ((i.busWrite addr d).block c).sig = (i.block c).sig := by
  refine Iic.busWrite_induct (fun t => (t.block c).q = (i.block c).q ∧ (t.block c).sig = (i.block c).sig)
    addr d i (fun p d t hp hlo hhi _ ht => ?_) ⟨rfl, rfl⟩
  rcases t.busWritePiece_block hp d c with ⟨r, hbase, e⟩ | ⟨-, e⟩ <;> rw [e]
  · have hout : r.offset < 0x60 ∨ 0x70 ≤ r.offset := by
      have := heoi.piece (by omega) (by omega) hp hlo hhi
      omega
    have h1 : r ≠ .eoi := fun h => absurd (h ▸ hout) (by decide)
    have h2 : r ≠ .eoiSetPri := fun h => absurd (h ▸ hout) (by decide)
    rw [Block.effect_shadow r _ _ h1 h2]
    exact ht
  · exact ht

/-! ### Records and queues (R278) -/

/-- A queue's records are records that were there, in their order, each kept as R278 says. -/
def QueueKept (before after : List IntRecord) : Prop :=
  List.SublistForall₂ (fun a b => IntRecord.Kept b a) after before

theorem IntRecord.Kept.refl (r : IntRecord) : r.Kept r := ⟨rfl, rfl, id⟩

theorem IntRecord.Kept.trans {r s t : IntRecord} (h : r.Kept s) (h' : s.Kept t) : r.Kept t := by
  obtain ⟨htype, hprio, hack⟩ := h
  obtain ⟨htype', hprio', hack'⟩ := h'
  exact ⟨htype'.trans htype, hprio'.trans hprio, hack' ∘ hack⟩

theorem QueueKept.of_sublist {q q' : List IntRecord} (h : q'.Sublist q) : QueueKept q q' :=
  List.sublistForall₂_iff.mpr ⟨q', List.forall₂_same.mpr fun r _ => .refl r, h⟩

theorem QueueKept.refl (q : List IntRecord) : QueueKept q q := .of_sublist (.refl q)

theorem QueueKept.trans {p q r : List IntRecord} (h : QueueKept p q) (h' : QueueKept q r) : QueueKept p r :=
  have : IsTrans IntRecord fun a b => b.Kept a := ⟨fun _ _ _ hab hbc => hbc.trans hab⟩
  List.SublistForall₂.is_trans.trans _ _ _ h' h

/-- A queue in which one record is replaced by one that keeps it (R270). -/
theorem QueueKept.set {q : List IntRecord} {i : Nat} {r r' : IntRecord} (hi : q[i]? = some r)
    (hr : r.Kept r') : QueueKept q (q.set i r') := by
  refine List.sublistForall₂_iff.mpr ⟨q, ?_, .refl q⟩
  refine List.forall₂_iff_get.mpr ⟨List.length_set .., fun j _ hj => ?_⟩
  simp only [List.get_eq_getElem, List.getElem_set]
  split
  · next hij =>
    subst hij
    rw [List.getElem?_eq_getElem hj, Option.some.injEq] at hi
    exact hi ▸ hr
  · exact .refl _

theorem Block.rule_keeps_queue (r : IicReg) (b : Block) : QueueKept b.q (b.rule r).2.q := by
  by_cases hr : r = .ack
  · subst hr
    show QueueKept b.q (acknowledge .ack b).2.q
    rcases acknowledge_cases .ack b with ⟨i, m, hbest, e⟩ | ⟨-, e⟩ <;> rw [e]
    · exact .set hbest.1 ⟨rfl, rfl, fun _ => rfl⟩
    · exact .refl _
  · rw [Block.rule_shadow r b hr]
    exact .refl _

theorem endOfInterrupt_keeps_queue (b : Block) : QueueKept b.q (endOfInterrupt b).q := by
  rcases endOfInterrupt_cases b with ⟨i, m, -, e⟩ | ⟨-, e⟩ <;> rw [e]
  · exact .of_sublist (List.eraseIdx_sublist ..)
  · exact .refl _

theorem Block.effect_keeps_queue (r : IicReg) (v : DWord) (b : Block) : QueueKept b.q (b.effect r v).q := by
  by_cases h1 : r = .eoi
  · subst h1
    exact endOfInterrupt_keeps_queue b
  by_cases h2 : r = .eoiSetPri
  · subst h2
    exact endOfInterrupt_keeps_queue b
  · rw [Block.effect_shadow r v b h1 h2]
    exact .refl _

theorem Iic.readPiece_keeps_queue (r : IicReg) (d c : Fin 6) (l n : Nat) (i : Iic) :
    QueueKept (i.block c).q ((i.readPiece (Block.rule r) d l n).2.block c).q := by
  rw [Iic.readPiece_block]
  split
  · next h => exact h ▸ Block.rule_keeps_queue r _
  · exact .refl _

theorem Iic.writePiece_keeps_queue (r : IicReg) (e c : Fin 6) (l : Nat) (d : List Byte) (i : Iic) :
    QueueKept (i.block c).q ((i.writePiece r (Block.effect r) e l d).block c).q := by
  rw [Iic.writePiece_block]
  split
  · next h => exact h ▸ Block.effect_keeps_queue r _ (Block.set _ _ _)
  · exact .refl _

theorem Iic.busReadPiece_keeps_queue (p : Piece) (c : Fin 6) (i : Iic) :
    QueueKept (i.block c).q ((i.busReadPiece p).2.block c).q := by
  unfold Iic.busReadPiece
  split
  · exact i.readPiece_keeps_queue _ _ c _ _
  · exact .refl _

theorem Iic.busWritePiece_keeps_queue (p : Piece) (d : List Byte) (c : Fin 6) (i : Iic) :
    QueueKept (i.block c).q ((i.busWritePiece p d).block c).q := by
  unfold Iic.busWritePiece
  split
  · exact i.writePiece_keeps_queue _ _ c _ _
  · exact .refl _

theorem Iic.cancel_keeps_queue (type : Byte) (mask : Nat) (c : Fin 6) (i : Iic) :
    QueueKept (i.block c).q ((Iic.cancel type mask i).block c).q := by
  rw [Iic.cancel_block, Iic.withdraw_block]
  split
  · split
    · exact .of_sublist (List.eraseIdx_sublist ..)
    · exact .refl _
  · exact .refl _

/-- Every operation on the IIC but genInterrupt only removes records or marks them (R278, R304). -/
theorem IicDoes.keeps_queue {x : Instr} {f : Iic → Iic} {g : Iic → Result} (hd : IicDoes x f g)
    (hx : ∀ type mask, x ≠ .genInterrupt type mask) (i : Iic) (c : Fin 6) :
    QueueKept (i.block c).q ((f i).block c).q := by
  cases hd with
  | read addr len =>
    exact Iic.busRead_induct (fun t => QueueKept (i.block c).q (t.block c).q) addr len i
      (fun p t _ _ _ h => h.trans (t.busReadPiece_keeps_queue p c)) (.refl _)
  | write addr data =>
    exact Iic.busWrite_induct (fun t => QueueKept (i.block c).q (t.block c).q) addr data i
      (fun p d t _ _ _ _ h => h.trans (t.busWritePiece_keeps_queue p d c)) (.refl _)
  | gen type mask => exact absurd rfl (hx type mask)
  | cancel type mask => exact i.cancel_keeps_queue type mask c
  | pieceRead r d l count => exact i.readPiece_keeps_queue r d c _ _
  | pieceWrite r d l data => exact i.writePiece_keeps_queue r d c _ _
  | check | unnamedRead | unnamedWrite => exact .refl _

/-! ### The obligations -/

/-- Settles O46: the seven registers' read rule is the shadow read. -/
theorem shadowReadsReturnTheRegister : Obligations.ShadowReadsReturnTheRegister := by
  refine ⟨fun v j _ => blane_toNat v j, fun s c l count hfit r hr => ?_⟩
  have hack : r ≠ .ack := by
    revert hr
    cases r <;> decide
  rw [exec_iicRead s r c hfit, Block.rule_shadow r _ hack, Iic.setBlock_self]

/-- Settles O47: the six registers' write has no effect beyond the store of the merged value. -/
theorem shadowWritesMergeTheLanes : Obligations.ShadowWritesMergeTheLanes := by
  intro s c l data hfit r hr
  obtain ⟨heoi, hset⟩ : r ≠ .eoi ∧ r ≠ .eoiSetPri := by
    revert hr
    cases r <;> decide
  exact ⟨_, exec_iicWrite (Block.effect_shadow r _ _ heoi hset), blane_mergeLanes_of_fits _ hfit⟩

/-- Settles O48: the read rule of ACK is the acknowledge, with a best PENDING record and with none. -/
theorem ackReadAcknowledgesBestPending : Obligations.AckReadAcknowledgesBestPending := by
  intro s c l count hfit
  have hexec := exec_iicRead s .ack c hfit
  refine ⟨fun i r hbest => ?_, fun hnone => ?_⟩
  · rw [show (s.iic.block c).rule .ack = _ from acknowledge_of_best .ack _ i r hbest] at hexec
    exact hexec
  · rw [show (s.iic.block c).rule .ack = _ from acknowledge_of_none .ack _ hnone] at hexec
    exact hexec

/-- Settles O49: the write effect of EOI is the end of interrupt, which finds the queue the store left alone. -/
theorem eoiWriteRemovesBestAcked : Obligations.EoiWriteRemovesBestAcked := by
  intro s c l data hfit
  refine ⟨_, blane_mergeLanes_of_fits _ hfit, fun i r hbest => ?_, fun hnone => ?_⟩
  · exact exec_iicWrite (r := .eoi) (endOfInterrupt_eq_of_best hbest)
  · exact exec_iicWrite (r := .eoi) (endOfInterrupt_of_none _ hnone)

/-- Settles O50: the write effect of EOI_SET_CPU_CURRENT_TSK_PRI is the end of interrupt and then a store. -/
theorem eoiSetWriteAlsoSetsTaskPriority : Obligations.EoiSetWriteAlsoSetsTaskPriority := by
  intro s c l data hfit
  refine ⟨_, blane_mergeLanes_of_fits _ hfit, fun i r hbest => ?_, fun hnone => ?_⟩
  · refine exec_iicWrite (r := .eoiSetPri) ?_
    rw [Block.effect_eoiSetPri, endOfInterrupt_eq_of_best (b := Block.set _ _ _) hbest]
    rfl
  · refine exec_iicWrite (r := .eoiSetPri) ?_
    rw [Block.effect_eoiSetPri, endOfInterrupt_of_none (Block.set _ _ _) hnone]
    rfl

/-- Settles O51: at an unnamed offset nothing is read but zeros, and nothing is stored. -/
theorem unnamedBlockOffsetsHoldNothing : Obligations.UnnamedBlockOffsetsHoldNothing := by
  intro s c slot l _
  exact ⟨fun count _ => exec_of_iicDoes (.unnamedRead c slot l count) s,
    fun data _ => exec_of_iicDoes (.unnamedWrite c slot l data) s⟩

/-- Settles O52: the cuts by `busWrite_append` and `busRead_append`; an operation inside one slot has one piece,
whose rule is that of the register named there or of an unnamed offset. -/
theorem iicPieceIsPortOperation : Obligations.IicPieceIsPortOperation := by
  intro s
  refine ⟨fun addr b1 b2 h => ?_, fun addr n1 n2 h => ?_,
    fun c l count data => ⟨fun hfit => ?_, fun hfit => ?_⟩⟩
  · refine ⟨_, exec_of_iicDoes (.write addr b1) s, ?_⟩
    rw [exec_of_iicDoes (.write addr (b1 ++ b2)) s, exec_of_iicDoes (.write (addr + b1.length) b2),
      Iic.busWrite_append _ _ h]
  · refine ⟨_, _, _, _, exec_of_iicDoes (.read addr n1) s, rfl, exec_of_iicDoes (.read (addr + n1) n2) _,
      rfl, ?_⟩
    rw [exec_of_iicDoes (.read addr (n1 + n2)) s, Iic.busRead_append _ _ h]
  · obtain ⟨hcount, hfit⟩ := (pieceFits_iff _ _ _).mp hfit
    refine ⟨fun r => ?_, fun slot hslot => ?_⟩
    · obtain ⟨hbase, hsize⟩ := r.offset_range
      rw [exec_of_iicDoes (.pieceRead r c l count) s, exec_of_iicDoes (.read _ count) s,
        Iic.busRead_one _ _ _ (by omega) (by omega) hcount hfit, Iic.busReadPiece_named]
    · rw [exec_of_iicDoes (.unnamedRead c slot l count) s, exec_of_iicDoes (.read _ count) s,
        Iic.busRead_one _ _ _ (by omega) (by omega) hcount hfit, Iic.busReadPiece_unnamed _ _ hslot]
  · obtain ⟨hcount, hfit⟩ := (pieceFits_iff _ _ _).mp hfit
    refine ⟨fun r => ?_, fun slot hslot => ?_⟩
    · obtain ⟨hbase, hsize⟩ := r.offset_range
      rw [exec_of_iicDoes (.pieceWrite r c l data) s, exec_of_iicDoes (.write _ data) s,
        Iic.busWrite_one _ _ _ (by omega) (by omega) hcount hfit, Iic.busWritePiece_named]
    · rw [exec_of_iicDoes (.unnamedWrite c slot l data) s, exec_of_iicDoes (.write _ data) s,
        Iic.busWrite_one _ _ _ (by omega) (by omega) hcount hfit, Iic.busWritePiece_unnamed _ _ hslot]

/-- Settles O55: a piece's result and its new block are functions of its block alone. -/
theorem registerOperationsStayInTheirBlock : Obligations.RegisterOperationsStayInTheirBlock := by
  intro s s' c r l count data hblock i hi
  simp only [List.mem_cons, List.not_mem_nil, or_false] at hi
  rcases hi with rfl | rfl
  · refine ⟨_, _, exec_of_iicDoes (.pieceRead r c l count) s, exec_of_iicDoes (.pieceRead r c l count) s',
      ?_, ?_, fun c' hc' => ?_⟩
    · simp only [Iic.readPiece, hblock]
    · simp only [Iic.readPiece_block, hblock]
    · rw [Iic.readPiece_block, if_neg hc']
  · refine ⟨_, _, exec_of_iicDoes (.pieceWrite r c l data) s, exec_of_iicDoes (.pieceWrite r c l data) s',
      rfl, ?_, fun c' hc' => ?_⟩
    · simp only [Iic.writePiece_block, hblock]
    · rw [Iic.writePiece_block, if_neg hc']

/-- Settles O56: the record O48 marks is the one O49 removes. -/
theorem ackThenEoiRemovesThatRecord : Obligations.AckThenEoiRemovesThatRecord := by
  intro s c i r hq hbest
  have hi : i < (s.iic.block c).q.length := (List.getElem?_eq_some_iff.mp hbest.1).1
  have hread := (ackReadAcknowledgesBestPending s c 0 8 rfl).1 i r hbest
  generalize ht : ({ s with iic := _, result := _ } : State) = t at hread
  obtain ⟨v, -, hwrite, -⟩ := eoiWriteRemovesBestAcked t c 0 (List.replicate 8 0) rfl
  have hblock : (t.iic.block c).q = (s.iic.block c).q.set i { r with ack := true } ∧
      (t.iic.block c).sig = (s.iic.block c).sig := by
    rw [← ht, Iic.setBlock_same]
    exact ⟨rfl, rfl⟩
  have hwrite := hwrite i { r with ack := true } (hblock.1 ▸ isBest_ack_set hi hq rfl)
  refine ⟨t, _, hread, hwrite, ?_, ?_⟩
  · rw [Iic.setBlock_same, hblock.1, List.eraseIdx_set_eq]
  · rw [Iic.setBlock_same, hblock.1, hblock.2, List.eraseIdx_set_eq]

/-- Settles O53: the bytes by what the pieces show, the frame by what the read rules leave. -/
theorem readInterruptReturnsRegisters : Obligations.ReadInterruptReturnsRegisters := by
  intro s addr len
  obtain ⟨hlen, hshows⟩ := s.iic.busRead_bytes addr len
  refine ⟨_, _, exec_of_iicDoes (.read addr len) s, hlen, s.iic.busRead_trace addr len,
    fun c r l hl hr j hj => (hshows j (hlen.symm ▸ hj)).named c r l hl hr,
    fun j hj => (hshows j (hlen.symm ▸ hj)).unnamed,
    fun c => s.iic.busRead_block_of_not_ack c, fun c => ?_⟩
  have h := s.iic.busRead_sameButAck addr len c
  exact ⟨h.sig, h.records, h.get⟩

/-- Settles O54: every byte of a register is in range, and only the two EOI effects reach a queue. -/
theorem writeInterruptLaysBytesOverRegisters : Obligations.WriteInterruptLaysBytesOverRegisters := by
  intro s addr data
  exact ⟨_, exec_of_iicDoes (.write addr data) s, s.iic.busWrite_trace addr data,
    fun c r l hl => s.iic.busWrite_lane addr data c r hl,
    fun c => s.iic.busWrite_queue_of_not_eoi c⟩

/-- Settles O19: an operation on the SMC touches no queue, one on the IIC keeps each, and a genInterrupt is
given by `Iic.gen_q`. -/
theorem recordsOnlyMoveForward : Obligations.RecordsOnlyMoveForward := by
  intro i s t c h
  by_cases hgen : ∃ type mask, i = .genInterrupt type mask
  · obtain ⟨type, mask, rfl⟩ := hgen
    rw [exec_of_iicDoes (.gen type mask) s] at h
    cases h
    refine ⟨_, _, Iic.gen_q type mask s.iic c, QueueKept.refl _, fun hne => absurd rfl (hne type mask), ?_⟩
    rintro _ _ ⟨⟩
    exact ⟨rfl, rfl⟩
  · have hne : ∀ type mask, i ≠ .genInterrupt type mask := fun type mask e => hgen ⟨type, mask, e⟩
    have hkept : QueueKept (s.iic.block c).q (t.iic.block c).q := by
      rcases exec_cases h with ⟨f, g, -, rfl⟩ | ⟨f, g, hd, rfl⟩
      · exact .refl _
      · exact hd.keeps_queue hne s.iic c
    exact ⟨_, [], (List.append_nil _).symm, hkept, fun _ => rfl, fun type mask e => absurd e (hne type mask)⟩

end Sys2Proof.Machine

/-! PROOFS of the IIC request port's family (spec/45_iic_requests.md): which lines a genInterrupt raises and in
what order, that no other operation raises one, which record a cancelInterrupt removes, and what a
checkExtInterrupt sees. -/

namespace Sys2Proof.Machine

/-! ### Posting on the selected cores (R300, R301) -/

/-- Posting on a list of cores raises each line that was not raised, in the list's order: a post changes no other
core's flag. -/
theorem Iic.foldl_post_trace (type : Byte) {l : List (Fin 6)} (hl : l.Nodup) (i : Iic) :
    (l.foldl (Iic.post type) i).trace =
      i.trace ++ (l.filter fun c => !(i.block c).sig).map IicEvent.lineAssert := by
  induction l generalizing i with
  | nil => exact (List.append_nil _).symm
  | cons a l ih =>
    obtain ⟨ha, hl⟩ := List.nodup_cons.mp hl
    have hrest : (l.filter fun c => !((i.post type a).block c).sig) = l.filter fun c => !(i.block c).sig := by
      refine List.filter_congr fun c hc => ?_
      rw [Iic.post_block, if_neg (ne_of_mem_of_not_mem hc ha)]
    rw [List.foldl_cons, ih hl, hrest, Iic.post_trace, List.append_assoc]
    cases hsig : (i.block a).sig <;> simp [hsig]

/-- The events of a genInterrupt (R301). -/
theorem Iic.gen_trace (type : Byte) (mask : Nat) (i : Iic) :
    (Iic.gen type mask i).trace = i.trace ++
      (cores.filter fun c => mask.testBit c.val && !(i.block c).sig).map IicEvent.lineAssert := by
  have hnodup : (cores.filter (coreSelected mask)).Nodup := List.Nodup.filter _ (by decide)
  rw [Iic.gen, Iic.forCores, Iic.foldl_post_trace type hnodup, List.filter_filter]
  exact congrArg (fun l => i.trace ++ l.map IicEvent.lineAssert)
    (List.filter_congr fun c _ => Bool.and_comm _ _)

theorem Iic.gen_sig (type : Byte) (mask : Nat) (i : Iic) (c : Fin 6) :
    ((Iic.gen type mask i).block c).sig = (mask.testBit c.val || (i.block c).sig) := by
  rw [Iic.gen_block]
  cases mask.testBit c.val <;> rfl

/-- How often a list of cores, asserted in turn, asserts one core: once if the core is listed. -/
theorem count_map_lineAssert {l : List (Fin 6)} (hl : l.Nodup) (c : Fin 6) :
    (l.map IicEvent.lineAssert).count (.lineAssert c) = if c ∈ l then 1 else 0 := by
  rw [List.count_map_of_injective _ _ fun _ _ => IicEvent.lineAssert.inj, hl.count]

/-! ### No other operation raises a line (R301) -/

theorem Block.rule_sig (r : IicReg) (b : Block) : (b.rule r).2.sig = b.sig := by
  by_cases hr : r = .ack
  · subst hr
    show (acknowledge .ack b).2.sig = b.sig
    rcases acknowledge_cases .ack b with ⟨j, m, -, e⟩ | ⟨-, e⟩ <;> rw [e]
    rfl
  · rw [Block.rule_shadow r b hr]

theorem Block.withQueue_lowered {b : Block} (h : b.sig = false) (q : List IntRecord) :
    (b.withQueue q).sig = false := by
  rw [Block.withQueue_sig, h, ite_self]

theorem endOfInterrupt_lowered {b : Block} (h : b.sig = false) : (endOfInterrupt b).sig = false := by
  rcases endOfInterrupt_cases b with ⟨j, m, -, e⟩ | ⟨-, e⟩ <;> rw [e]
  · exact Block.withQueue_lowered h _
  · exact h

theorem Block.effect_lowered {b : Block} (h : b.sig = false) (r : IicReg) (v : DWord) :
    (b.effect r v).sig = false := by
  by_cases h1 : r = .eoi
  · subst h1
    exact endOfInterrupt_lowered h
  by_cases h2 : r = .eoiSetPri
  · subst h2
    exact endOfInterrupt_lowered h
  · rw [Block.effect_shadow r v b h1 h2]
    exact h

theorem Iic.cancel_lowered {i : Iic} {c : Fin 6} (h : (i.block c).sig = false) (type : Byte) (mask : Nat) :
    ((Iic.cancel type mask i).block c).sig = false := by
  rw [Iic.cancel_block, Iic.withdraw_block]
  split
  · split
    · exact Block.withQueue_lowered h _
    · exact h
  · exact h

/-- A signal flag that is not raised stays so in every operation on the IIC but genInterrupt. -/
theorem IicDoes.keeps_lowered {x : Instr} {f : Iic → Iic} {g : Iic → Result} (hd : IicDoes x f g)
    (hx : ∀ type mask, x ≠ .genInterrupt type mask) {i : Iic} {c : Fin 6} (h : (i.block c).sig = false) :
    ((f i).block c).sig = false := by
  cases hd with
  | read addr len =>
    refine Iic.busRead_induct (fun t => (t.block c).sig = false) addr len i (fun p t hp _ _ ht => ?_) h
    rcases t.busReadPiece_block hp c with ⟨r, -, e⟩ | e <;> rw [e]
    · exact (Block.rule_sig r _).trans ht
    · exact ht
  | write addr data =>
    refine Iic.busWrite_induct (fun t => (t.block c).sig = false) addr data i (fun p d t hp _ _ _ ht => ?_) h
    rcases t.busWritePiece_block hp d c with ⟨r, -, e⟩ | ⟨-, e⟩ <;> rw [e]
    · exact Block.effect_lowered (b := Block.set _ _ _) ht r _
    · exact ht
  | gen type mask => exact absurd rfl (hx type mask)
  | cancel type mask => exact Iic.cancel_lowered h type mask
  | pieceRead r d l count =>
    show ((i.readPiece (Block.rule r) d l.val count).2.block c).sig = false
    rw [Iic.readPiece_block]
    split
    · next hcd => exact (Block.rule_sig r _).trans (hcd ▸ h)
    · exact h
  | pieceWrite r d l data =>
    rw [Iic.writePiece_block]
    split
    · next hcd => exact Block.effect_lowered (b := Block.set _ _ _) (hcd ▸ h) r _
    · exact h
  | check | unnamedRead | unnamedWrite => exact h

/-- Only a genInterrupt emits anything (R301). -/
theorem IicDoes.keeps_trace {x : Instr} {f : Iic → Iic} {g : Iic → Result} (hd : IicDoes x f g)
    (hx : ∀ type mask, x ≠ .genInterrupt type mask) (i : Iic) : (f i).trace = i.trace := by
  cases hd with
  | read addr len => exact i.busRead_trace addr len
  | write addr data => exact i.busWrite_trace addr data
  | gen type mask => exact absurd rfl (hx type mask)
  | cancel type mask => exact i.cancel_trace type mask
  | check | pieceRead | pieceWrite | unnamedRead | unnamedWrite => rfl

/-! ### The record a cancelInterrupt removes (R302) -/

/-- The search of a withdrawal finds the earliest PENDING record of the type. -/
theorem findIdx?_eq_some_iff_isFirstPending (type : Byte) (q : List IntRecord) (j : Nat) :
    q.findIdx? (fun r => r.type == type && r.pending) = some j ↔ IsFirstPending type q j := by
  simp only [List.findIdx?_eq_some_iff_getElem, IsFirstPending, IntRecord.pending, List.getElem?_eq_some_iff,
    Bool.and_eq_true, beq_iff_eq, Bool.not_eq_true', Bool.not_eq_false, not_and]
  constructor
  · rintro ⟨hj, hpending, hfirst⟩
    refine ⟨⟨_, ⟨hj, rfl⟩, hpending⟩, ?_⟩
    rintro k hk _ ⟨_, rfl⟩ htype
    exact hfirst k hk htype
  · rintro ⟨⟨_, ⟨hj, rfl⟩, hpending⟩, hfirst⟩
    exact ⟨hj, hpending, fun k hk => hfirst k hk _ ⟨hk.trans hj, rfl⟩⟩

theorem findIdx?_eq_none_iff_no_pending (type : Byte) (q : List IntRecord) :
    q.findIdx? (fun r => r.type == type && r.pending) = none ↔ ∀ r ∈ q, r.type = type → r.ack = true := by
  simp [List.findIdx?_eq_none_iff, IntRecord.pending]

theorem Iic.withdraw_of_isFirstPending {type : Byte} {i : Iic} {c : Fin 6} {j : Nat}
    (h : IsFirstPending type (i.block c).q j) :
    (i.withdraw type c).block c = { (i.block c) with
      q := (i.block c).q.eraseIdx j
      sig := if (i.block c).q.eraseIdx j = [] then false else (i.block c).sig } := by
  rw [Iic.withdraw_block, (findIdx?_eq_some_iff_isFirstPending _ _ _).mpr h]
  simp only [Block.withQueue, List.isEmpty_iff]

theorem Iic.withdraw_of_no_pending {type : Byte} {i : Iic} {c : Fin 6}
    (h : ∀ r ∈ (i.block c).q, r.type = type → r.ack = true) : (i.withdraw type c).block c = i.block c := by
  rw [Iic.withdraw_block, (findIdx?_eq_none_iff_no_pending _ _).mpr h]

/-! ### The external interrupt line (R303) -/

theorem Block.line_iff (b : Block) : b.line = true ↔ ∃ r ∈ b.q, r.ack = false := by
  simp [Block.line, IntRecord.pending]

theorem Iic.check_iff (core : Nat) (i : Iic) :
    i.check core = true ↔ ∃ h : core < 6, (i.block ⟨core, h⟩).line = true := by
  unfold Iic.check
  split
  · next h => exact ⟨fun hline => ⟨h, hline⟩, fun ⟨_, hline⟩ => hline⟩
  · next h => exact iff_of_false Bool.false_ne_true fun ⟨hlt, _⟩ => h hlt

/-! ### The obligations -/

/-- Settles O57: block by block, and the events in the cores' order. -/
theorem genInterruptQueuesOnSelectedCores : Obligations.GenInterruptQueuesOnSelectedCores := by
  intro s type mask
  exact ⟨_, exec_of_iicDoes (.gen type mask) s, s.iic.gen_block type mask, s.iic.gen_trace type mask⟩

/-- Settles O18: a genInterrupt asserts each selected core whose flag was not raised, and those flags are the ones
it raises; any other operation raises no flag and emits nothing. -/
theorem lineAssertOnFalseToTrueOnly : Obligations.LineAssertOnFalseToTrueOnly := by
  intro i s t h
  by_cases hgen : ∃ type mask, i = .genInterrupt type mask
  · obtain ⟨type, mask, rfl⟩ := hgen
    rw [exec_of_iicDoes (.gen type mask) s] at h
    cases h
    refine ⟨_, s.iic.gen_trace type mask, fun c => ?_, fun hne => absurd rfl (hne type mask)⟩
    have hraised : c ∈ (cores.filter fun c => mask.testBit c.val && !(s.iic.block c).sig) ↔
        (s.iic.block c).sig = false ∧ ((Iic.gen type mask s.iic).block c).sig = true := by
      have hcore : c ∈ cores := by
        revert c
        decide
      rw [List.mem_filter, Iic.gen_sig]
      cases (s.iic.block c).sig <;> simp [hcore]
    rw [count_map_lineAssert (List.Nodup.filter _ (by decide))]
    exact if_congr hraised rfl rfl
  · have hne : ∀ type mask, i ≠ .genInterrupt type mask := fun type mask e => hgen ⟨type, mask, e⟩
    have hquiet : t.iic.trace = s.iic.trace ∧
        ∀ c, (s.iic.block c).sig = false → (t.iic.block c).sig = false := by
      rcases exec_cases h with ⟨f, g, -, rfl⟩ | ⟨f, g, hd, rfl⟩
      · exact ⟨rfl, fun _ => id⟩
      · exact ⟨hd.keeps_trace hne s.iic, fun _ => hd.keeps_lowered hne⟩
    obtain ⟨htrace, hlowered⟩ := hquiet
    refine ⟨[], htrace.trans (List.append_nil _).symm, fun c => ?_, fun _ => rfl⟩
    rw [if_neg fun ⟨hbefore, hafter⟩ => Bool.false_ne_true ((hlowered c hbefore).symm.trans hafter)]
    rfl

/-- Settles O58: a selected core's block is that of a withdrawal, which removes what its search finds. -/
theorem cancelInterruptRemovesEarliestPending : Obligations.CancelInterruptRemovesEarliestPending := by
  intro s type mask
  refine ⟨_, exec_of_iicDoes (.cancel type mask) s, s.iic.cancel_trace type mask, fun c => ?_⟩
  rw [Iic.cancel_block]
  refine ⟨fun hout => if_neg (Bool.eq_false_iff.mp hout), fun hin => ?_⟩
  rw [if_pos hin]
  exact ⟨fun j hfirst => Iic.withdraw_of_isFirstPending hfirst, Iic.withdraw_of_no_pending⟩

/-- Settles O59: the line of a core below 6 is "some record is PENDING", and a core of 6 or more has none. -/
theorem checkExtInterruptSeesPending : Obligations.CheckExtInterruptSeesPending := by
  intro s core
  refine ⟨s.iic.check core, exec_of_iicDoes (.check core) s, ?_⟩
  simp only [Iic.check_iff, Block.line_iff]

end Sys2Proof.Machine

/-! PROOFS of the exceptions' family (spec/60_exceptions.md): no operation faults, is refused or fails. -/

namespace Sys2Proof.Machine

/-- Settles O9: every operation is a function of the SMC or of the IIC alone, defined on every state, so that it
answers a next state, and the schedule belongs to neither device. -/
theorem everyOperationAnswersNext : Obligations.EveryOperationAnswersNext := by
  intro i s
  rcases instr_does i with ⟨f, g, hd⟩ | ⟨f, g, hd⟩
  · exact ⟨_, exec_of_smcDoes hd s, rfl⟩
  · exact ⟨_, exec_of_iicDoes hd s, rfl⟩

end Sys2Proof.Machine

/-! PROOFS of the reset's family (spec/70_reset_and_hazards.md): what a step does that takes no operation. -/

namespace Sys2Proof.Machine

/-! ### One step by the head of the schedule, where that is no operation -/

theorem step_of_idle {s : State} (hin : s.inbox = []) : step s = .next s := by
  simp only [step, hin]

theorem step_of_undecodable {s : State} {bytes : List Byte} {rest : List Input} {e : DecodeError}
    (hin : s.inbox = .packet bytes :: rest) (hdec : decode bytes = .error e) :
    step s = .refused (.undecodable e) := by
  simp only [step, hin, hdec]

theorem step_of_smcReset {s : State} {inputs : SmcInputs} {rest : List Input}
    (hin : s.inbox = .smcReset inputs :: rest) : step s = .next ((s.advance rest).smcReset inputs) := by
  simp only [step, hin]

theorem step_of_iicReset {s : State} {whoami : Vector DWord 6} {rest : List Input}
    (hin : s.inbox = .iicReset whoami :: rest) : step s = .next ((s.advance rest).iicReset whoami) := by
  simp only [step, hin]

/-! ### The state a reset event leaves (R350) -/

theorem State.advance_smcReset (s : State) (rest : List Input) (inputs : SmcInputs) :
    (s.advance rest).smcReset inputs =
      { s with smc := Smc.resetWith inputs s.smc, inbox := rest, result := .nothing } := rfl

theorem State.advance_iicReset (s : State) (rest : List Input) (whoami : Vector DWord 6) :
    (s.advance rest).iicReset whoami =
      { s with iic := Iic.resetWith whoami, inbox := rest, result := .nothing } := rfl

/-! ### The obligation -/

/-- Settles O8, by what stands at the head of the schedule: nothing, a packet the decoder refuses, or the reset event
of one device, which is no update of the other. -/
theorem stepWithoutInstruction : Obligations.StepWithoutInstruction := by
  intro s
  refine ⟨step_of_idle, fun bytes rest e => step_of_undecodable, fun inputs rest hin => ?_,
    fun whoami rest hin => ?_⟩
  · rw [step_of_smcReset hin, State.advance_smcReset]
  · rw [step_of_iicReset hin, State.advance_iicReset]

end Sys2Proof.Machine
